-- ==== Sys2Proof/Word.lean ====
section
/-! DEFINITION. The two word types of the mining work engine (the MWE): the byte its buffers hold and the 32-bit
word its registers and its bus carry (rules R7, R80). Byte order and every other helper stand in
Machine/Bytes.lean. -/

namespace Sys2Proof

/-- One byte of a buffer. -/
abbrev Byte := BitVec 8

/-- One register, bus word or command word: 32 bits (rule R7). -/
abbrev Word := BitVec 32

end Sys2Proof
end

