-- ==== Sys2Proof/Machine/Bytes.lean ====
section
/-! DEFINITION. Integer views of byte sequences (rule R10), the saturation of rule R11, and the packing of words. -/

namespace Sys2Proof.Machine

/-- The 32-bit value of four bytes, the first of them least significant: `LE32` of rule R10. -/
def le32 (b0 b1 b2 b3 : Byte) : Word :=
  BitVec.ofNat 32 (b0.toNat + 256 * b1.toNat + 65536 * b2.toNat + 16777216 * b3.toNat)

/-- `LE32(B, i)` of rule R10. -/
def le32At (bs : List Byte) (i : Nat) : Word :=
  le32 (bs.getD i 0) (bs.getD (i + 1) 0) (bs.getD (i + 2) 0) (bs.getD (i + 3) 0)

/-- `toLE32(v)` of rule R10: the four bytes of `v`, least significant first. -/
def toLE32 (v : Word) : List Byte :=
  [v.extractLsb' 0 8, v.extractLsb' 8 8, v.extractLsb' 16 8, v.extractLsb' 24 8]

/-- The 32-bit value of four bytes, the first of them most significant: `BE32` of rule R10. -/
def be32 (b0 b1 b2 b3 : Byte) : Word := le32 b3 b2 b1 b0

/-- `toBE32(v)` of rule R10. -/
def toBE32 (v : Word) : List Byte := (toLE32 v).reverse

/-- `toBE64(n)` of rule R141: the 8 bytes of `n`, most significant first. -/
def toBE64 (n : Nat) : List Byte :=
  (List.range 8).map (fun i => BitVec.ofNat 8 (n / 256 ^ (7 - i)))

/-- `BE256(x)` of rule R10: the unsigned integer read big-endian. -/
def be256 (x : List Byte) : Nat := x.foldl (fun acc b => 256 * acc + b.toNat) 0

/-- `sat32(v)` of rule R11. -/
def sat32 (n : Nat) : Word := BitVec.ofNat 32 (min n 0xFFFFFFFF)

/-- A byte sequence as little-endian words (rule R252); a last incomplete group gives no word. -/
def bytesToWords : List Byte → List Word
  | b0 :: b1 :: b2 :: b3 :: rest => le32 b0 b1 b2 b3 :: bytesToWords rest
  | _ => []

/-- A byte sequence as big-endian words (rule R142); a last incomplete group gives no word. -/
def bytesToWordsBE : List Byte → List Word
  | b0 :: b1 :: b2 :: b3 :: rest => be32 b0 b1 b2 b3 :: bytesToWordsBE rest
  | _ => []

/-- Words written back as little-endian bytes (rule R252). -/
def wordsToBytes (ws : List Word) : List Byte := ws.flatMap toLE32

/-- `k × b` of rule R9. -/
def fill (k : Nat) (b : Byte) : List Byte := List.replicate k b

end Sys2Proof.Machine
end

