-- ==== Sys2Proof/Config.lean ====
section
/-! DEFINITION. What is fixed for one MWE and what its spec leaves open. The table of rule R6 gives the
implementation parameters: those with a value are definitions here, those marked OPEN (`BASE`, `CB_CAP`) are
constants without a body. The draws of rule R12 (every UNSPECIFIED value and every `Δt`) are functions without a
body, applied to the number of the draw, which State counts. Nothing in Lean can compute or assume a value of an
opaque constant, so a theorem holds for every value of it. The value of `CIPHER` stands in Machine/Cipher.lean. -/

namespace Sys2Proof.Config

/-- `BASE` is OPEN and aligned to 4096 (rules R6, R82): the number of its 4 KiB page is not fixed. -/
opaque basePage : Nat

/-- `BASE`, the bus address of offset 0 (rules R6, R82). -/
def base : Nat := 4096 * basePage

/-- The size of the register window in bytes (rule R80). -/
def windowBytes : Nat := 4096

/-- `CB_CAP` is OPEN, one of 64 and 128 (rule R6, decision D50): which of the two is not fixed. -/
opaque cbCapIs128 : Bool

/-- `CB_CAP`, the longest coinbase fragment in bytes (rule R6). -/
def cbCap : Nat := if cbCapIs128 then 128 else 64

/-- `MAX_PATH`, the longest Merkle path in entries (rule R6). -/
def maxPath : Nat := 16

/-- `HEIGHT_MAX`, the largest legal block height (rule R6). -/
def heightMax : Nat := 0xFFFFFF

/-- `CB_LEAD`, the fixed leading byte of the coinbase height prefix (rule R6, decision D15). -/
def cbLead : Byte := 0x03

/-- `CBUF_BYTES`, the size of the cipher buffer (rule R6). -/
def cbufBytes : Nat := 2048

/-- `NONCE_MAX` (rule R6). -/
def nonceMax : Word := 0xFFFFFFFF

/-- `NONCE2_MAX` (rule R6). -/
def nonce2Max : Word := 0xFFFFFFFF

/-- Draw `n` of an UNSPECIFIED buffer: the byte it leaves at an offset of the window (rules R12, R198, R301). -/
opaque drawByte (n offset : Nat) : Byte

/-- Draw `n` of the word a read returns while it is UNSPECIFIED (rule R93). -/
opaque drawWord (n : Nat) : Word

/-- Draw `n` of the UNSPECIFIED height a failed INIT leaves, a value in 0 .. 0xFFFFFF (rule R198). -/
opaque drawHeight (n : Nat) : BitVec 24

/-- Draw `n` of the UNSPECIFIED path length a failed INIT leaves, a value in 0 .. 16 (rule R198). -/
opaque drawPathLen (n : Nat) : Fin 17

/-- Draw `n` of `Δt`, the milliseconds one MINE adds to `HASHTIME`, an unsigned integer (rules R6, R226). -/
opaque drawElapsed (n : Nat) : Nat

end Sys2Proof.Config
end

