-- ==== Sys2Proof/Syntax.lean ====
section
/-! DEFINITION. The syntax of the MWE: its seven commands, the names of its locations, and what the host can do to
it. A command has no operand field: every operand is read from a fixed argument register or buffer (rules R30,
R114). -/

namespace Sys2Proof

/-- The commands of rule R111, one constructor for each row of the opcode table. -/
inductive Instr where
  /-- BEGIN, `begin(coinbase)` (rule R190). -/
  | begin
  /-- INIT, `init(height, header, path)` (rule R194). -/
  | init
  /-- MINE, `mine(cycles)` (rule R220). -/
  | mine
  /-- END, `end()` (rule R202). -/
  | endSession
  /-- REPORT, `report()` (rule R204). -/
  | report
  /-- ENCRYPT, the source's encrypt contract (rule R255). -/
  | encrypt
  /-- DECRYPT, the source's decrypt contract (rule R257). -/
  | decrypt
deriving DecidableEq, Repr

/-- The one-word locations of the address map (rule R87). -/
inductive Reg where
  | cmd | ctrl | estat | result | state | height | nonce | nonce2 | startNonce | bestNonce | hashTime | cbLen | pathLen
  | argCbLen | argHeight | argPathLen | argCycles
  | key0 | key1 | key2 | key3 | clen | ccap | cres
deriving DecidableEq, Repr

/-- The buffers of the address map (rule R87). -/
inductive Buf where
  | bestHash | target | header | report | argHeader | argCb | argPath | coinbase | path | cbuf
deriving DecidableEq, Repr

/-- What stands at an offset of the window: a register, a byte of a buffer, or nothing (rule R87). -/
inductive Loc where
  | reg (r : Reg)
  | buf (b : Buf)
  | reserved
deriving DecidableEq, Repr

/-- What a host access does: it reads, or it writes a word (rule R86). -/
inductive AccessKind where
  | read
  | write (v : Word)
deriving DecidableEq, Repr

/-- One host access, as it arrives on the bus. The engine issues none (rule R80). -/
structure Access where
  /-- The bus address. -/
  addr : Nat
  /-- The width of the access in bytes. -/
  width : Nat
  kind : AccessKind
deriving DecidableEq, Repr

/-- What can happen next to an MWE, in the order in which it happens: a host access, the engine's turn, or an edge of
the reset input (rules R15, R91, R96, R300). -/
inductive Event where
  | access (a : Access)
  | engine
  | resetAssert
  | resetRelease
deriving DecidableEq, Repr

/-- A line of a host program in the notation of rules R115 and R116: `wr`, `wr` and `wrbytes` into a buffer, `rd`,
`rdbytes`, `poll`, and the pseudo-instructions `cmd`, `cmd.raw`, `mine` and `clrovr`. -/
inductive HostLine where
  | wr (r : Reg) (v : Word)
  | wrBuf (b : Buf) (k : Nat) (v : Word)
  | wrBytes (b : Buf) (k : Nat) (bs : List Byte)
  | rd (r : Reg)
  | rdBytes (b : Buf) (n : Nat)
  | poll
  | cmd (i : Instr)
  | cmdRaw (w : Word)
  | mine (cycles : Word)
  | clrOvr
deriving DecidableEq, Repr

/-- What a line of host notation makes the host do, one after another: one access, or reads of `ESTAT` until bit 0 is
0 (rule R115). -/
inductive HostAction where
  | access (a : Access)
  | poll
deriving DecidableEq, Repr

end Sys2Proof
end

