-- ==== Sys2Proof/Machine/State.lean ====
section
/-! DEFINITION. The state of the MWE (rules R30 to R65) with the fields the model adds of its own, and the reset state
(rule R301). `ESTAT.BUSY` is not stored: `pending` is present exactly while it is 1 (rule R64). `NONCE` is not stored:
it is a view of `HEADER` (rule R39). -/

namespace Sys2Proof.Machine

/-- The buffers of the window, as the bytes at their offsets: offsets strictly rising, and no entry equal to what an
unlisted offset reads as (`unlistedByte` in Machine/Ops.lean; `Memory.wf` in Safety.lean). -/
abbrev Memory := List Host.Cell

/-- The result codes of rule R36, a closed set. -/
inductive ResultCode where
  | ok | einval | estate | eopc
deriving DecidableEq, Repr

/-- The session status codes of rule R37, a closed set. -/
inductive Status where
  | idle | ready | mining | done | fail | invalid
deriving DecidableEq, Repr

/-- The 128-bit cipher key as four words (rules R52, R251). -/
structure Key where
  k0 : Word
  k1 : Word
  k2 : Word
  k3 : Word
deriving DecidableEq, Repr

/-- Everything the spec gives the machine, then what the model adds of its own. -/
@[ext]
structure State where
  /-- `CMD`, the last accepted command word (rule R33). -/
  cmd : Word
  /-- `CTRL`: bit 0 `XPOL`, bit 1 `MROOT` (rule R34). -/
  ctrl : Word
  /-- The latched command word the engine has not finished; `ESTAT.BUSY` = 1 exactly while present (rules R35, R64). -/
  pending : Option Word
  /-- `ESTAT.OVR` (rule R35). -/
  ovr : Bool
  /-- `RESULT` (rule R36). -/
  result : ResultCode
  /-- `STATE` (rule R37). -/
  status : Status
  /-- `HEIGHT` (rule R38). -/
  height : Word
  /-- `NONCE2` (rule R40). -/
  nonce2 : Word
  /-- `START_NONCE` (rule R41). -/
  startNonce : Word
  /-- `BEST_NONCE` (rule R42). -/
  bestNonce : Word
  /-- `HASHTIME` (rule R43). -/
  hashTime : Word
  /-- `CB_LEN` (rule R44). -/
  cbLen : Word
  /-- `PATH_LEN` (rule R45). -/
  pathLen : Word
  /-- `ARG_CBLEN` (rule R57). -/
  argCbLen : Word
  /-- `ARG_HEIGHT` (rule R58). -/
  argHeight : Word
  /-- `ARG_PATHLEN` (rule R59). -/
  argPathLen : Word
  /-- `ARG_CYCLES` (rule R60). -/
  argCycles : Word
  /-- `KEY0` to `KEY3` (rule R52). -/
  key0 : Word
  key1 : Word
  key2 : Word
  key3 : Word
  /-- `CLEN` (rule R53). -/
  clen : Word
  /-- `CCAP` (rule R54). -/
  ccap : Word
  /-- `CRES` (rule R55). -/
  cres : Word
  /-- The buffers `BEST_HASH`, `TARGET`, `HEADER`, `REPORT`, `ARG_HEADER`, `ARG_CB`, `ARG_PATH`, `COINBASE`, `PATH` and
  `CBUF` at their offsets (rules R46 to R51, R56, R61 to R63, R87). -/
  mem : Memory
  /-- The reset input is asserted (rule R300). -/
  resetLine : Bool
  /-- The MODEL's own: what happens next, in order: the host's accesses, the engine's turns, the reset input. -/
  schedule : List Event
  /-- The MODEL's own: the word the last host access read; none when it read nothing. -/
  busData : Option Word
  /-- The MODEL's own: how many draws have been made (rule R12). -/
  draws : Nat
  /-- The MODEL's own: which draw gave the UNSPECIFIED buffer contents of the last reset (rule R301). -/
  resetDraw : Nat
deriving DecidableEq, Repr

/-- Why the machine stops. -/
inductive Fault where
  /-- A host access to the window that is not 32 bits wide or not aligned to 4 gets a bus error (rule R83). Raised by
  a host access, never by a command. Safe: the spec asks for a fault after which the run does not continue. -/
  | busError (addr : Nat)
deriving DecidableEq, Repr

/-- Why the machine gives no meaning. -/
inductive Refusal where
  /-- A command that has no meaning yet, raised by `exec` alone. Safe: nothing can be proved past it. No arm of `exec`
  answers so. -/
  | notModelled (mnemonic : String)
deriving DecidableEq, Repr

/-- The machine right after reset is released (rules R300, R301): memory lists nothing, so every buffer holds what an
unlisted offset reads as. Nothing is scheduled; draw 0 gave the UNSPECIFIED buffers. -/
def State.reset : State where
  cmd := 0
  ctrl := 0
  pending := none
  ovr := false
  result := .ok
  status := .idle
  height := 0
  nonce2 := 0
  startNonce := 0
  bestNonce := 0
  hashTime := 0
  cbLen := 0
  pathLen := 0
  argCbLen := 0
  argHeight := 0
  argPathLen := 0
  argCycles := 0
  key0 := 0
  key1 := 0
  key2 := 0
  key3 := 0
  clen := 0
  ccap := 0
  cres := 0
  mem := []
  resetLine := false
  schedule := []
  busData := none
  draws := 1
  resetDraw := 0

end Sys2Proof.Machine
end

