-- ==== Sys2Proof/Machine/Ops.lean ====
section
/-! DEFINITION. The named operations over memory and registers: where each buffer stands, what an unlisted byte reads
as, reading and storing bytes, the header's nonce, and the two ways a command ends. The MWE takes no exception and
has none to return from (rules R280, R285, R286): its one shared error operation is `State.failWith`, and a bus error
is an outcome of the host access alone (`busError`). -/

namespace Sys2Proof.Machine

/-- The offset of a buffer's byte 0 (rule R87). -/
def bufBase : Buf → Nat
  | .bestHash => 0x040
  | .target => 0x060
  | .header => 0x080
  | .report => 0x0D0
  | .argHeader => 0x120
  | .argCb => 0x180
  | .argPath => 0x200
  | .coinbase => 0x400
  | .path => 0x500
  | .cbuf => 0x800

/-- The size of a buffer in bytes (rule R87). -/
def bufSize : Buf → Nat
  | .bestHash => 32
  | .target => 32
  | .header => 80
  | .report => 60
  | .argHeader => 80
  | .argCb => 128
  | .argPath => 512
  | .coinbase => 132
  | .path => 512
  | .cbuf => 2048

/-- The buffers a host write changes (access RW, rule R87); the others are read-only. -/
def bufWritable : Buf → Bool
  | .bestHash => false
  | .target => false
  | .header => false
  | .report => false
  | .argHeader => true
  | .argCb => true
  | .argPath => true
  | .coinbase => false
  | .path => false
  | .cbuf => true

/-- What an unlisted offset holds: the reset value of rule R301, all ones for `BEST_HASH`, nothing fixed for the
buffers that are UNSPECIFIED at reset (`ARG_HEADER`, `ARG_CB`, `ARG_PATH`, `CBUF`), and 0 elsewhere. -/
def unlistedByte (a : Nat) : Option Byte :=
  if 0x040 ≤ a ∧ a < 0x060 then some 0xFF
  else if (0x120 ≤ a ∧ a < 0x170) ∨ (0x180 ≤ a ∧ a < 0x400) ∨ (0x800 ≤ a ∧ a < 0x1000) then none
  else some 0

/-- The byte memory fixes at an offset; `none` where it is UNSPECIFIED since reset. -/
def Memory.get (m : Memory) (a : Nat) : Option Byte :=
  match m.find? (fun c => c.1 == a) with
  | some c => some c.2
  | none => unlistedByte a

/-- The cells that hold `bs` from offset `a` on, less those an unlisted offset already reads as. -/
def cellsOf (a : Nat) : List Byte → Memory
  | [] => []
  | b :: bs => if unlistedByte a = some b then cellsOf (a + 1) bs else (a, b) :: cellsOf (a + 1) bs

/-- The one way memory changes: `bs` is stored from offset `a` on. -/
def Memory.store (m : Memory) (a : Nat) (bs : List Byte) : Memory :=
  m.filter (fun c => decide (c.1 < a)) ++ cellsOf a bs ++ m.filter (fun c => decide (a + bs.length ≤ c.1))

/-- The byte at an offset of the window's buffers. A byte UNSPECIFIED since reset is draw `resetDraw` at that offset,
so two reads of it agree (rules R12, R89, R301). -/
def State.readByte (s : State) (a : Nat) : Byte :=
  match s.mem.get a with
  | some b => b
  | none => Config.drawByte s.resetDraw a

/-- The `n` bytes from offset `a` on. -/
def State.readBytes (s : State) (a n : Nat) : List Byte :=
  (List.range n).map (fun i => s.readByte (a + i))

/-- The 32-bit word of the bytes at offsets `a` to `a + 3` (rule R84). -/
def State.readWord (s : State) (a : Nat) : Word :=
  le32 (s.readByte a) (s.readByte (a + 1)) (s.readByte (a + 2)) (s.readByte (a + 3))

/-- The whole of a buffer. -/
def State.buffer (s : State) (b : Buf) : List Byte := s.readBytes (bufBase b) (bufSize b)

/-- `BUF[k .. k + len(bs)) <- bs` (rule R12). -/
def State.writeBuf (s : State) (b : Buf) (k : Nat) (bs : List Byte) : State :=
  { s with mem := s.mem.store (bufBase b + k) bs }

/-- The offset of the header's nonce field, bytes 76..79 of `HEADER` (rules R39, R46). -/
def nonceOffset : Nat := bufBase .header + 76

/-- The offset of the header's compact bits field, bytes 72..75 of `HEADER` (rule R46). -/
def bitsOffset : Nat := bufBase .header + 72

/-- `NONCE`, a view of `HEADER[76..80)` (rule R39). -/
def State.nonce (s : State) : Word := s.readWord nonceOffset

/-- `HEADER[76..80) <- toLE32(v)`. -/
def State.setNonce (s : State) (v : Word) : State := s.writeBuf .header 76 (toLE32 v)

/-- `KEY0 .. KEY3` as the cipher's key (rule R52). -/
def State.key (s : State) : Key := ⟨s.key0, s.key1, s.key2, s.key3⟩

/-- `RESULT <- r`. -/
def State.setResult (s : State) (r : ResultCode) : State := { s with result := r }

/-- `STATE <- x`. -/
def State.setStatus (s : State) (x : Status) : State := { s with status := x }

/-- `CRES <- v`. -/
def State.setCres (s : State) (v : Word) : State := { s with cres := v }

/-- `NONCE2 <- v`. -/
def State.setNonce2 (s : State) (v : Word) : State := { s with nonce2 := v }

/-- `BEST_HASH <- h; BEST_NONCE <- nc` (rule R223). -/
def State.recordBest (s : State) (h : List Byte) (nc : Word) : State :=
  { s.writeBuf .bestHash 0 h with bestNonce := nc }

/-- One draw has been made (rule R12). -/
def State.countDraw (s : State) : State := { s with draws := s.draws + 1 }

/-- The `n` bytes an UNSPECIFIED write leaves from offset `a` on: draw `d` at each offset (rules R12, R198). -/
def drawnBytes (d a n : Nat) : List Byte :=
  (List.range n).map (fun i => Config.drawByte d (a + i))

/-- A command that fails and changes nothing else (rules R191, R200, R113): the result code is its only record, since
the MWE raises nothing (rule R280). -/
def State.failWith (s : State) (r : ResultCode) : State := s.setResult r

/-- The bus error response of rule R83: no state of the MWE changes and the run does not go on. -/
def busError (addr : Nat) : Host.Outcome State Fault Refusal := .fault (.busError addr)

end Sys2Proof.Machine
end

