-- ==== Sys2Proof/WellFormed.lean ====
section
/-! DEFINITION. What is well formed. A command carries no operand, so every term of `Instr` is well formed (rule R114);
what can be ill formed is a command word (rule R110), a host access (rule R83) and a line of host notation (rule
R115). -/

namespace Sys2Proof

/-- No command word carries an immediate or a register number (rule R114): there is no field to check. -/
def Instr.wellFormed : Instr → Bool
  | .begin => true
  | .init => true
  | .mine => true
  | .endSession => true
  | .report => true
  | .encrypt => true
  | .decrypt => true

/-- The opcodes of rule R111. -/
def definedOpcodes : List Byte := [0x01, 0x02, 0x03, 0x04, 0x05, 0x10, 0x11]

/-- A command word is well formed when `RSVD` is 0 and `OPC` is in the table (rules R110, R111). -/
def wordWellFormed (w : Word) : Bool :=
  (w.extractLsb' 8 24 == 0) && definedOpcodes.contains (w.extractLsb' 0 8)

/-- Every host access must be 32 bits wide and aligned to 4 (rule R83). `BASE` is a multiple of 4096 (rule R82), so an
address and its offset have the same alignment. -/
def Access.wellFormed (a : Access) : Bool :=
  (a.width == 4) && (a.addr % 4 == 0)

/-- `n` bytes from byte `k` on are a word-aligned part of buffer `b`. -/
def inBuffer (b : Buf) (k n : Nat) : Bool := (k % 4 == 0) && decide (k + n ≤ Machine.bufSize b)

/-- In a line of host notation the byte offset into a buffer is a multiple of 4, and what is written or read, the
padding of a byte string with it, lies in the buffer the line names (rule R115). -/
def HostLine.wellFormed : HostLine → Bool
  | .wrBuf b k _ => inBuffer b k 4
  | .wrBytes b k bs => inBuffer b k (4 * ((bs.length + 3) / 4))
  | .wr _ _ => true
  | .rd _ => true
  | .rdBytes b n => inBuffer b 0 n
  | .poll => true
  | .cmd _ => true
  | .cmdRaw _ => true
  | .mine _ => true
  | .clrOvr => true

end Sys2Proof
end

