-- ==== Sys2Proof/Decode.lean ====
section
/-! DEFINITION. The decoder of rule R112, total on any word and any byte sequence and rejecting by name; the encoder,
written from the table of rule R111; and the disassembler of rule R117. -/

namespace Sys2Proof

/-- Why a command word stands for no command (rule R113). -/
inductive Reject where
  /-- Fewer than four bytes: a command word is always 4 bytes (rule R110). -/
  | truncated
  /-- `RSVD`, bits [31:8], is not 0. -/
  | reservedBits
  /-- `OPC`, bits [7:0], is not in the table of rule R111. -/
  | undefinedOpcode (opc : Byte)
deriving DecidableEq, Repr

/-- `OPC`, bits [7:0] of a command word (rule R110). -/
def opcField (w : Word) : Byte := w.extractLsb' 0 8

/-- `RSVD`, bits [31:8] of a command word (rule R110). -/
def rsvdField (w : Word) : BitVec 24 := w.extractLsb' 8 24

/-- The command an opcode stands for (rules R111, R112). -/
def decodeOpcode (opc : Byte) : Except Reject Instr :=
  match opc.toNat with
  | 0x01 => .ok .begin
  | 0x02 => .ok .init
  | 0x03 => .ok .mine
  | 0x04 => .ok .endSession
  | 0x05 => .ok .report
  | 0x10 => .ok .encrypt
  | 0x11 => .ok .decrypt
  | _ => .error (.undefinedOpcode opc)

/-- Decoding a command word: `RSVD` is examined before the opcode (rule R112). -/
def decode (w : Word) : Except Reject Instr :=
  if rsvdField w ≠ 0 then .error .reservedBits else decodeOpcode (opcField w)

/-- Decoding from bytes: one command word in little-endian lanes (rule R84) and the bytes after it. -/
def decodeBytes : List Byte → Except Reject (Instr × List Byte)
  | b0 :: b1 :: b2 :: b3 :: rest =>
    match decode (Machine.le32 b0 b1 b2 b3) with
    | .ok i => .ok (i, rest)
    | .error e => .error e
  | _ => .error .truncated

/-- The opcode column of rule R111. -/
def opcodeOf : Instr → Byte
  | .begin => 0x01
  | .init => 0x02
  | .mine => 0x03
  | .endSession => 0x04
  | .report => 0x05
  | .encrypt => 0x10
  | .decrypt => 0x11

/-- The command word of a command: `RSVD` = 0 above the opcode (rules R110, R111). -/
def encode (i : Instr) : Word := (opcodeOf i).setWidth 32

/-- The command word as the bus carries it, least significant byte first (rule R84). -/
def encodeBytes (i : Instr) : List Byte := Machine.toLE32 (encode i)

/-- The mnemonic column of rule R111. -/
def mnemonic : Instr → String
  | .begin => "BEGIN"
  | .init => "INIT"
  | .mine => "MINE"
  | .endSession => "END"
  | .report => "REPORT"
  | .encrypt => "ENCRYPT"
  | .decrypt => "DECRYPT"

/-- One lower-case hexadecimal digit. -/
def hexDigit (n : Nat) : Char :=
  "0123456789abcdef".toList.getD (n % 16) '0'

/-- The eight hexadecimal digits of a word, most significant first (rule R8). -/
def hexWord (w : Word) : String :=
  String.ofList ((List.range 8).map (fun i => hexDigit (w.toNat / 16 ^ (7 - i))))

/-- What a disassembler prints for a command word (rule R117). -/
def disassemble (w : Word) : String :=
  match decode w with
  | .ok i => mnemonic i
  | .error _ => ".undef 0x" ++ hexWord w

/-- The command a printed mnemonic names, the inverse of `mnemonic` (rule R117). -/
def assemble (s : String) : Option Word :=
  ([.begin, .init, .mine, .endSession, .report, .encrypt, .decrypt].find? (fun i => mnemonic i == s)).map encode

/-- The instruction the decoder reads from a row's bits. A command word is 32 bits and `BASE`'s lanes are
little-endian, so bit 0 of `w` is bit 0 of the word; a value that needs more than 32 bits is no command word. -/
def decodeTableWord (nbits w : Nat) : Option Instr :=
  let v := w % 2 ^ nbits
  if v < 2 ^ 32 then
    match decodeBytes (Machine.toLE32 (BitVec.ofNat 32 v)) with
    | .ok (i, _) => some i
    | .error _ => none
  else none

end Sys2Proof
end

