-- ==== Sys2Proof/Machine/Flags.lean ====
section
/-! DEFINITION. The status indications. The MWE has no condition codes and no arithmetic flags (rule R65): its only
single-bit indications are `ESTAT.BUSY` and `ESTAT.OVR`, its only multi-valued ones `STATE` and `RESULT`. The two
control bits of `CTRL` stand here too. -/

namespace Sys2Proof.Machine

/-- `ESTAT.BUSY` (rules R35, R64). -/
def State.busy (s : State) : Bool := s.pending.isSome

/-- `ESTAT` as it is read: bit 0 `BUSY`, bit 1 `OVR`, the rest 0 (rule R35). -/
def State.estatWord (s : State) : Word :=
  (if s.busy then 1 else 0) ||| (if s.ovr then 2 else 0)

/-- `RESULT` as it is read (rule R36). -/
def resultWord : ResultCode → Word
  | .ok => 0
  | .einval => 1
  | .estate => 2
  | .eopc => 3

/-- `STATE` as it is read (rule R37). -/
def statusWord : Status → Word
  | .idle => 0
  | .ready => 1
  | .mining => 2
  | .done => 3
  | .fail => 4
  | .invalid => 5

/-- The bits of `CTRL` that exist; the others read 0 and ignore writes (rule R34). -/
def ctrlMask : Word := 0x00000003

/-- `CTRL.XPOL` = 1, the ROLLOVER policy (rule R34). -/
def State.xpol (s : State) : Bool := s.ctrl.getLsbD 0

/-- `CTRL.MROOT` = 1, the SUPPLIED Merkle root (rule R34). -/
def State.mroot (s : State) : Bool := s.ctrl.getLsbD 1

end Sys2Proof.Machine
end

