-- ==== Sys2Proof/Machine/Operands.lean ====
section
/-! DEFINITION. Operand assembly (rule R114). Every operand of a command is a fixed argument register or buffer: the
scalars are unsigned and never truncated before a range check, but for `CLEN`, which is signed. -/

namespace Sys2Proof.Machine

/-- `ARG_CBLEN`, unsigned. -/
def State.opCbLen (s : State) : Nat := s.argCbLen.toNat

/-- `begin(coinbase)`: the fragment `ARG_CB[0..ARG_CBLEN)`. -/
def State.opFragment (s : State) : List Byte := s.readBytes (bufBase .argCb) s.opCbLen

/-- `ARG_HEIGHT`, unsigned. -/
def State.opHeight (s : State) : Nat := s.argHeight.toNat

/-- `ARG_PATHLEN`, unsigned. -/
def State.opPathLen (s : State) : Nat := s.argPathLen.toNat

/-- `init(…, header, …)`: the 80 bytes of `ARG_HEADER`. -/
def State.opHeader (s : State) : List Byte := s.buffer .argHeader

/-- The compact bits of the header argument, `LE32(ARG_HEADER, 72)` (rule R194). -/
def State.opBits (s : State) : Word := s.readWord (bufBase .argHeader + 72)

/-- The bytes of the first `n` entries of `ARG_PATH` (rule R63). -/
def State.opPathBytes (s : State) (n : Nat) : List Byte := s.readBytes (bufBase .argPath) (32 * n)

/-- `mine(cycles)`: `ARG_CYCLES`, unsigned. -/
def State.opCycles (s : State) : Nat := s.argCycles.toNat

/-- `s32(CLEN)` (rules R53, R114). -/
def State.opLength (s : State) : Int := s.clen.toInt

/-- `CCAP`, unsigned (rule R54). -/
def State.opCapacity (s : State) : Nat := s.ccap.toNat

end Sys2Proof.Machine
end

