-- ==== Sys2Proof/Machine/Map.lean ====
section
/-! DEFINITION. The address map (rule R87) and what a read and a write of each location do (rules R86, R88, R89). -/

namespace Sys2Proof.Machine

/-- The offset of a register (rule R87). -/
def regOffset : Reg → Nat
  | .cmd => 0x000
  | .ctrl => 0x004
  | .estat => 0x008
  | .result => 0x00C
  | .state => 0x010
  | .height => 0x014
  | .nonce => 0x018
  | .nonce2 => 0x01C
  | .startNonce => 0x020
  | .bestNonce => 0x024
  | .hashTime => 0x028
  | .cbLen => 0x02C
  | .pathLen => 0x030
  | .argCbLen => 0x110
  | .argHeight => 0x114
  | .argPathLen => 0x118
  | .argCycles => 0x11C
  | .key0 => 0x700
  | .key1 => 0x704
  | .key2 => 0x708
  | .key3 => 0x70C
  | .clen => 0x710
  | .ccap => 0x714
  | .cres => 0x718

/-- Every register of the map. -/
def allRegs : List Reg :=
  [.cmd, .ctrl, .estat, .result, .state, .height, .nonce, .nonce2, .startNonce, .bestNonce, .hashTime, .cbLen,
    .pathLen, .argCbLen, .argHeight, .argPathLen, .argCycles, .key0, .key1, .key2, .key3, .clen, .ccap, .cres]

/-- Every buffer of the map. -/
def allBufs : List Buf :=
  [.bestHash, .target, .header, .report, .argHeader, .argCb, .argPath, .coinbase, .path, .cbuf]

/-- What stands at an offset; an offset in no row of the map is reserved (rule R87). -/
def locate (o : Nat) : Loc :=
  match allRegs.find? (fun r => decide (regOffset r ≤ o ∧ o < regOffset r + 4)) with
  | some r => .reg r
  | none =>
    match allBufs.find? (fun b => decide (bufBase b ≤ o ∧ o < bufBase b + bufSize b)) with
    | some b => .buf b
    | none => .reserved

/-- The word a read of a register returns (rules R33 to R45, R52 to R60). -/
def readReg (s : State) : Reg → Word
  | .cmd => s.cmd
  | .ctrl => s.ctrl
  | .estat => s.estatWord
  | .result => resultWord s.result
  | .state => statusWord s.status
  | .height => s.height
  | .nonce => s.nonce
  | .nonce2 => s.nonce2
  | .startNonce => s.startNonce
  | .bestNonce => s.bestNonce
  | .hashTime => s.hashTime
  | .cbLen => s.cbLen
  | .pathLen => s.pathLen
  | .argCbLen => s.argCbLen
  | .argHeight => s.argHeight
  | .argPathLen => s.argPathLen
  | .argCycles => s.argCycles
  | .key0 => s.key0
  | .key1 => s.key1
  | .key2 => s.key2
  | .key3 => s.key3
  | .clen => s.clen
  | .ccap => s.ccap
  | .cres => s.cres

/-- The word at an offset of the window, as the bus reads it when nothing is UNSPECIFIED by a pending command: the
register, the four bytes of the buffer, or 0 where the offset is reserved (rules R84, R86, R87). -/
def windowWord (s : State) (o : Nat) : Word :=
  match locate o with
  | .reg r => readReg s r
  | .buf _ => s.readWord o
  | .reserved => 0

/-- A write of `CMD` while `BUSY` = 0: the word is latched and read back, and `BUSY` rises (rule R90). -/
def acceptCommand (w : Word) (s : State) : State := { s with cmd := w, pending := some w }

/-- A write of `ESTAT`: bit 1 = 1 clears `OVR`, and nothing else of it has an effect (rules R35, R88, R92). -/
def writeEstat (v : Word) (s : State) : State := if v.getLsbD 1 then { s with ovr := false } else s

/-- A write of a register while `BUSY` = 0; a read-only register ignores it (rules R33 to R60, R88, R90). -/
def writeReg (r : Reg) (v : Word) (s : State) : State :=
  match r with
  | .cmd => acceptCommand v s
  | .ctrl => { s with ctrl := v &&& ctrlMask }
  | .estat => writeEstat v s
  | .result => s
  | .state => s
  | .height => s
  | .nonce => s
  | .nonce2 => s
  | .startNonce => s
  | .bestNonce => s
  | .hashTime => s
  | .cbLen => s
  | .pathLen => s
  | .argCbLen => { s with argCbLen := v }
  | .argHeight => { s with argHeight := v }
  | .argPathLen => { s with argPathLen := v }
  | .argCycles => { s with argCycles := v }
  | .key0 => { s with key0 := v }
  | .key1 => { s with key1 := v }
  | .key2 => { s with key2 := v }
  | .key3 => { s with key3 := v }
  | .clen => { s with clen := v }
  | .ccap => { s with ccap := v }
  | .cres => s

/-- A write of the word at an offset while `BUSY` = 0: little-endian lanes into a writable buffer, ignored by a
read-only location and a reserved offset (rules R84, R86, R88). -/
def writeWindow (o : Nat) (v : Word) (s : State) : State :=
  match locate o with
  | .reg r => writeReg r v s
  | .buf b => if bufWritable b then { s with mem := s.mem.store o (toLE32 v) } else s
  | .reserved => s

end Sys2Proof.Machine
end

