-- ==== Sys2Proof/Machine/Bus.lean ====
section
/-! DEFINITION. The host's accesses (rules R80 to R99) and the reset input (rules R300, R301). -/

namespace Sys2Proof.Machine

/-- The command the pending word stands for; `none` for an undefined word (rule R112). -/
def commandOf (w : Word) : Option Instr :=
  match decode w with
  | .ok i => some i
  | .error _ => none

/-- The locations a pending command may be writing (rule R93); `none` is an undefined command word. -/
def writeSet : Option Instr → List Loc
  | some .begin =>
    [.reg .state, .reg .result, .reg .height, .reg .nonce2, .reg .startNonce, .reg .bestNonce, .reg .hashTime,
      .reg .cbLen, .reg .pathLen, .buf .bestHash, .buf .target, .buf .header, .reg .nonce, .buf .coinbase, .buf .path]
  | some .init =>
    [.reg .state, .reg .result, .reg .height, .buf .coinbase, .buf .path, .reg .pathLen, .buf .header, .reg .nonce,
      .buf .target, .reg .startNonce]
  | some .mine =>
    [.reg .state, .reg .result, .buf .header, .reg .nonce, .reg .nonce2, .buf .bestHash, .reg .bestNonce,
      .reg .hashTime]
  | some .endSession => [.reg .state, .reg .result]
  | some .report => [.buf .report, .reg .result]
  | some .encrypt => [.buf .cbuf, .reg .cres, .reg .result]
  | some .decrypt => [.buf .cbuf, .reg .cres, .reg .result]
  | none => [.reg .result]

/-- A read of this offset returns an UNSPECIFIED value now: a command is pending and the location is in its write set
(rule R93). -/
def unsettled (s : State) (o : Nat) : Bool :=
  match s.pending with
  | none => false
  | some w => decide (locate o ∈ writeSet (commandOf w))

/-- A 32-bit read at an aligned offset: a fresh draw where the location is unsettled, and otherwise the word there; no
read has a side effect on the MWE (rules R86, R93, R94). -/
def hostRead (o : Nat) (s : State) : State :=
  if unsettled s o then ({ s with busData := some (Config.drawWord s.draws) } : State).countDraw
  else { s with busData := some (windowWord s o) }

/-- A 32-bit write at an aligned offset. While `BUSY` = 1 only a write to `ESTAT` is performed; every other one is
dropped and sets `OVR` (rules R86, R90, R92). -/
def hostWrite (o : Nat) (v : Word) (s : State) : State :=
  if s.busy then
    if locate o = .reg .estat then writeEstat v s else { s with ovr := true }
  else writeWindow o v s

/-- The offset a bus address selects; `none` where it is no address of the window (rule R82). -/
def windowOffset (addr : Nat) : Option Nat :=
  if Config.base ≤ addr ∧ addr < Config.base + Config.windowBytes then some (addr - Config.base) else none

/-- An access at an offset of the window: a bus error before anything else unless it is 32 bits wide and aligned
(rules R83, R283). -/
def windowAccess (a : Access) (o : Nat) (s : State) : Host.Outcome State Fault Refusal :=
  if a.width = 4 ∧ o % 4 = 0 then
    match a.kind with
    | .read => .next (hostRead o s)
    | .write v => .next (hostWrite o v { s with busData := none })
  else busError a.addr

/-- One host access. While reset is asserted none is performed (rule R300); an access elsewhere on the bus is not an
access to the MWE (rule R82). -/
def hostAccess (a : Access) (s : State) : Host.Outcome State Fault Refusal :=
  if s.resetLine then .next { s with busData := none }
  else
    match windowOffset a.addr with
    | some o => windowAccess a o s
    | none => .next { s with busData := none }

/-- Reset is asserted (rule R300). -/
def assertReset (s : State) : State := { s with resetLine := true, busData := none }

/-- Reset is released: every location takes its reset value, the pending command is gone, and the UNSPECIFIED buffers
are a fresh draw (rules R300, R301). What the host does next and the count of draws are not the MWE's. -/
def releaseReset (s : State) : State :=
  if s.resetLine then
    { State.reset with schedule := s.schedule, draws := s.draws + 1, resetDraw := s.draws }
  else s

end Sys2Proof.Machine
end

