-- ==== Sys2Proof/Machine/Cipher.lean ====
section
/-! DEFINITION. The payload cipher (rules R250 to R267). The two commands take the block cipher as an argument, since
`CIPHER` is a parameter (rule R251); this hardware's value is XTEA with 32 cycles (rules R259, R260). -/

namespace Sys2Proof.Machine

/-- A 64-bit block as two 32-bit words (rule R251). -/
abbrev Block := Word × Word

/-- `k[i]`: the key word a two-bit index selects (rule R259). -/
def keyWord (k : Key) (i : Word) : Word :=
  if i &&& 3 = 0 then k.k0 else if i &&& 3 = 1 then k.k1 else if i &&& 3 = 2 then k.k2 else k.k3

/-- XTEA's constant (rule R259). -/
def xteaDelta : Word := 0x9E3779B9

/-- `((v << 4) ⊕ (v >> 5)) + v` (rule R259). -/
def xteaMix (v : Word) : Word := ((v <<< 4) ^^^ (v >>> 5)) + v

/-- `n` cycles of XTEA from a value of `sum` on (rule R259). -/
def xteaEncCycles (k : Key) : Nat → Word → Block → Block
  | 0, _, b => b
  | n + 1, sum, (v0, v1) =>
    let v0' := v0 + (xteaMix v1 ^^^ (sum + keyWord k sum))
    let sum' := sum + xteaDelta
    let v1' := v1 + (xteaMix v0' ^^^ (sum' + keyWord k (sum' >>> 11)))
    xteaEncCycles k n sum' (v0', v1')

/-- `n` cycles of the decipherment from a value of `sum` on (rule R260). -/
def xteaDecCycles (k : Key) : Nat → Word → Block → Block
  | 0, _, b => b
  | n + 1, sum, (v0, v1) =>
    let v1' := v1 - (xteaMix v0 ^^^ (sum + keyWord k (sum >>> 11)))
    let sum' := sum - xteaDelta
    let v0' := v0 - (xteaMix v1' ^^^ (sum' + keyWord k sum'))
    xteaDecCycles k n sum' (v0', v1')

/-- `E(k, v0, v1)` of rule R259. -/
def xteaEncipher (k : Key) (b : Block) : Block := xteaEncCycles k 32 0 b

/-- `D(k, v0, v1)` of rule R260. -/
def xteaDecipher (k : Key) (b : Block) : Block := xteaDecCycles k 32 0xC6EF3720 b

/-- Electronic codebook over consecutive word pairs from word 0; a trailing unpaired word stays (rules R253, R266). -/
def ecb (f : Block → Block) : List Word → List Word
  | x :: y :: rest => (f (x, y)).1 :: (f (x, y)).2 :: ecb f rest
  | ws => ws

/-- `CipherE` and `CipherD` on the bytes of a region whose length is a multiple of 4 (rules R252 to R254). -/
def cipherRegion (f : Block → Block) (region : List Byte) : List Byte :=
  wordsToBytes (ecb f (bytesToWords region))

/-- `p`, the padding count of a payload of `n` bytes (rule R262). -/
def padCount (n : Nat) : Nat := 4 - n % 4

/-- A payload with its value-as-count padding (rules R255, R262). -/
def padded (payload : List Byte) : List Byte :=
  payload ++ fill (padCount payload.length) (BitVec.ofNat 8 (padCount payload.length))

/-- ENCRYPT of a positive length `n` (rules R255, R256, R264): the capacity is checked first and `CBUF` written
after. -/
def encryptPayload (e : Key → Block → Block) (n : Nat) (s : State) : State :=
  let total := n + padCount n
  if s.opCapacity < total ∨ Config.cbufBytes < total then (s.setCres 0xFFFFFFFF).setResult .einval
  else ((s.writeBuf .cbuf 0 (cipherRegion (e s.key) (padded (s.readBytes (bufBase .cbuf) n)))).setCres
    (BitVec.ofNat 32 total)).setResult .ok

/-- ENCRYPT with the block cipher as an argument: the length is checked for 0, then for its sign, then against the
capacity (rules R255, R263, R283). -/
def encryptEffect (e : Key → Block → Block) (s : State) : State :=
  if s.opLength = 0 then (s.setCres 0).setResult .ok
  else if s.opLength < 0 then (s.setCres 0xFFFFFFFF).setResult .einval
  else encryptPayload e s.opLength.toNat s

/-- DECRYPT of a well-formed length `n`: the last decrypted byte is the padding count and is not checked (rules R257,
R265). -/
def decryptRegion (d : Key → Block → Block) (n : Nat) (s : State) : State :=
  let out := cipherRegion (d s.key) (s.readBytes (bufBase .cbuf) n)
  ((s.writeBuf .cbuf 0 out).setCres (BitVec.ofInt 32 ((n : Int) - ((out.getD (n - 1) 0).toNat : Int)))).setResult .ok

/-- DECRYPT with the block cipher as an argument: a malformed length is returned unchanged (rules R257, R258). -/
def decryptEffect (d : Key → Block → Block) (s : State) : State :=
  if s.opLength ≤ 0 ∨ s.opLength % 4 ≠ 0 ∨ (Config.cbufBytes : Int) < s.opLength then
    (s.setCres s.clen).setResult .einval
  else decryptRegion d s.opLength.toNat s

/-- `CIPHER`'s `E` on this hardware (rules R6, R251, R259). -/
def cipherE : Key → Block → Block := xteaEncipher

/-- `CIPHER`'s `D` on this hardware (rules R6, R251, R260). -/
def cipherD : Key → Block → Block := xteaDecipher

/-- ENCRYPT (rule R255). -/
def execEncrypt (s : State) : Host.Outcome State Fault Refusal := .next (encryptEffect cipherE s)

/-- DECRYPT (rule R257). -/
def execDecrypt (s : State) : Host.Outcome State Fault Refusal := .next (decryptEffect cipherD s)

end Sys2Proof.Machine
end

