-- ==== Sys2Proof/Machine/Sha256.lean ====
section
/-! DEFINITION. SHA-256 (rules R140 to R147), the double hash (rules R148, R149) and the 256-bit comparison (rules
R150, R151): internal functions of INIT and MINE that read and write no state. -/

namespace Sys2Proof.Machine

/-- `pad(M)` of rule R141. -/
def shaPad (m : List Byte) : List Byte :=
  m ++ (0x80 :: fill ((55 - (m.length : Int)) % 64).toNat 0) ++ toBE64 (8 * m.length)

/-- `ROTR(x, n)` of rule R11, for 0 < n < 32. -/
def rotr (x : Word) (n : Nat) : Word := (x >>> n) ||| (x <<< (32 - n))

/-- `Ch` of rule R143. -/
def shaCh (x y z : Word) : Word := (x &&& y) ^^^ (~~~x &&& z)

/-- `Maj` of rule R143. -/
def shaMaj (x y z : Word) : Word := (x &&& y) ^^^ (x &&& z) ^^^ (y &&& z)

/-- `Σ0` of rule R143. -/
def shaBigSigma0 (x : Word) : Word := rotr x 2 ^^^ rotr x 13 ^^^ rotr x 22

/-- `Σ1` of rule R143. -/
def shaBigSigma1 (x : Word) : Word := rotr x 6 ^^^ rotr x 11 ^^^ rotr x 25

/-- `σ0` of rule R143. -/
def shaSmallSigma0 (x : Word) : Word := rotr x 7 ^^^ rotr x 18 ^^^ (x >>> 3)

/-- `σ1` of rule R143. -/
def shaSmallSigma1 (x : Word) : Word := rotr x 17 ^^^ rotr x 19 ^^^ (x >>> 10)

/-- The constants `K_0 .. K_63` of rule R144, eight a row. -/
def shaK : List Word :=
  [0x428a2f98, 0x71374491, 0xb5c0fbcf, 0xe9b5dba5, 0x3956c25b, 0x59f111f1, 0x923f82a4, 0xab1c5ed5] ++
  [0xd807aa98, 0x12835b01, 0x243185be, 0x550c7dc3, 0x72be5d74, 0x80deb1fe, 0x9bdc06a7, 0xc19bf174] ++
  [0xe49b69c1, 0xefbe4786, 0x0fc19dc6, 0x240ca1cc, 0x2de92c6f, 0x4a7484aa, 0x5cb0a9dc, 0x76f988da] ++
  [0x983e5152, 0xa831c66d, 0xb00327c8, 0xbf597fc7, 0xc6e00bf3, 0xd5a79147, 0x06ca6351, 0x14292967] ++
  [0x27b70a85, 0x2e1b2138, 0x4d2c6dfc, 0x53380d13, 0x650a7354, 0x766a0abb, 0x81c2c92e, 0x92722c85] ++
  [0xa2bfe8a1, 0xa81a664b, 0xc24b8b70, 0xc76c51a3, 0xd192e819, 0xd6990624, 0xf40e3585, 0x106aa070] ++
  [0x19a4c116, 0x1e376c08, 0x2748774c, 0x34b0bcb5, 0x391c0cb3, 0x4ed8aa4a, 0x5b9cca4f, 0x682e6ff3] ++
  [0x748f82ee, 0x78a5636f, 0x84c87814, 0x8cc70208, 0x90befffa, 0xa4506ceb, 0xbef9a3f7, 0xc67178f2]

/-- The eight words `a .. h` of rule R146, and the eight words of a hash value. -/
structure ShaWords where
  a : Word
  b : Word
  c : Word
  d : Word
  e : Word
  f : Word
  g : Word
  h : Word
deriving DecidableEq, Repr

/-- `H(0)` of rule R145. -/
def shaInit : ShaWords :=
  ⟨0x6a09e667, 0xbb67ae85, 0x3c6ef372, 0xa54ff53a, 0x510e527f, 0x9b05688c, 0x1f83d9ab, 0x5be0cd19⟩

/-- `W_t` from the words before it (rule R146). -/
def shaNextWord (ws : List Word) : Word :=
  let t := ws.length
  shaSmallSigma1 (ws.getD (t - 2) 0) + ws.getD (t - 7) 0 + shaSmallSigma0 (ws.getD (t - 15) 0) + ws.getD (t - 16) 0

/-- `k` more words of the message schedule (rule R146). -/
def shaExtend : Nat → List Word → List Word
  | 0, ws => ws
  | k + 1, ws => shaExtend k (ws ++ [shaNextWord ws])

/-- `W_0 .. W_63` of a block's 16 words (rule R146). -/
def shaSchedule (block : List Word) : List Word := shaExtend 48 block

/-- One pass of the inner loop of rule R146, with `K_t` and `W_t`. -/
def shaRound (v : ShaWords) (k w : Word) : ShaWords :=
  let t1 := v.h + shaBigSigma1 v.e + shaCh v.e v.f v.g + k + w
  let t2 := shaBigSigma0 v.a + shaMaj v.a v.b v.c
  ⟨t1 + t2, v.a, v.b, v.c, v.d + t1, v.e, v.f, v.g⟩

/-- The inner loop over the remaining pairs of `K_t` and `W_t`. -/
def shaRounds : List (Word × Word) → ShaWords → ShaWords
  | [], v => v
  | (k, w) :: rest, v => shaRounds rest (shaRound v k w)

/-- The hash value after one more block of 16 words (rule R146). -/
def shaBlock (hv : ShaWords) (block : List Word) : ShaWords :=
  let v := shaRounds (shaK.zip (shaSchedule block)) hv
  ⟨hv.a + v.a, hv.b + v.b, hv.c + v.c, hv.d + v.d, hv.e + v.e, hv.f + v.f, hv.g + v.g, hv.h + v.h⟩

/-- The outer loop over `n` blocks (rules R142, R146). -/
def shaBlocks : Nat → ShaWords → List Word → ShaWords
  | 0, hv, _ => hv
  | n + 1, hv, ws => shaBlocks n (shaBlock hv (ws.take 16)) (ws.drop 16)

/-- The digest: the eight words, each big-endian (rule R146). -/
def shaDigest (v : ShaWords) : List Byte :=
  toBE32 v.a ++ toBE32 v.b ++ toBE32 v.c ++ toBE32 v.d ++ toBE32 v.e ++ toBE32 v.f ++ toBE32 v.g ++ toBE32 v.h

/-- `SHA256(M)` of rule R146, a function of its input bytes alone (rule R147). -/
def sha256 (m : List Byte) : List Byte :=
  let p := shaPad m
  shaDigest (shaBlocks (p.length / 64) shaInit (bytesToWordsBE p))

/-- `DoubleHash(x)`: only the final digest is reversed, into display order (rules R148, R149). -/
def doubleHash (x : List Byte) : List Byte := (sha256 (sha256 x)).reverse

/-- `Le256(a, b)`: unsigned, byte 0 most significant, equality included (rule R150). -/
def le256 (a b : List Byte) : Bool := decide (be256 a ≤ be256 b)

end Sys2Proof.Machine
end

