-- ==== Sys2Proof/Machine/Mine.lean ====
section
/-! DEFINITION. MINE, the nonce-search loop (rules R220 to R231). One loop over one header (rule R231); the whole
search position is session state (rule R221). -/

namespace Sys2Proof.Machine

/-- After an unsuccessful pass at nonce `nc`: exhaustion, rollover or the next nonce (rules R224, R225). -/
def advanceNonce (nc : Word) (s : State) : State :=
  if nc = Config.nonceMax then
    if s.xpol = false ∨ s.nonce2 = Config.nonce2Max then s.setStatus .fail
    else (s.setNonce2 (s.nonce2 + 1)).setNonce 0
  else s.setNonce (nc + 1)

/-- Best-hash tracking of an unsuccessful pass: equality counts as an improvement (rules R151, R220). -/
def trackBest (h : List Byte) (nc : Word) (s : State) : State :=
  if le256 h (s.buffer .bestHash) then s.recordBest h nc else s

/-- One pass of the loop in MINING: the 80 header bytes as they stand are hashed, and the target test comes before
the exhaustion test (rules R222, R223, R283). -/
def minePass (s : State) : State :=
  let h := doubleHash (s.buffer .header)
  let nc := s.nonce
  if le256 h (s.buffer .target) then (s.recordBest h nc).setStatus .done
  else advanceNonce nc (trackBest h nc s)

/-- At most `c` passes; the loop ends when `STATE` leaves MINING (rules R220, R221). -/
def minePasses : Nat → State → State
  | 0, s => s
  | c + 1, s => if s.status = .mining then minePasses c (minePass s) else s

/-- `HASHTIME <- sat32(HASHTIME + Δt)` (rule R226). -/
def addHashTime (dt : Nat) (s : State) : State := { s with hashTime := sat32 (s.hashTime.toNat + dt) }

/-- MINE with the draw `Δt` as an argument: it does work only in MINING (rules R220, R228). -/
def mineEffect (dt : Nat) (s : State) : State :=
  if s.status = .mining then ((addHashTime dt (minePasses s.opCycles s)).countDraw).setResult .ok
  else s.setResult .ok

/-- MINE (rule R220). -/
def execMine (s : State) : Host.Outcome State Fault Refusal := .next (mineEffect (Config.drawElapsed s.draws) s)

end Sys2Proof.Machine
end

