-- ==== Sys2Proof/Machine/HashRate.lean ====
section
/-! DEFINITION. The hash-rate estimator (rules R240 to R243), internal to REPORT. -/

namespace Sys2Proof.Machine

/-- `total` of rule R240: a mathematical integer, no wrap. -/
def noncesTried (n2 nc s : Word) : Int := n2.toNat * 2 ^ 32 + nc.toNat - s.toNat

/-- `HashRate(n2, nc, s, ms)`: exact, rounded down, saturating, and 0 without time or progress (rule R240). -/
def hashRate (n2 nc s ms : Word) : Word :=
  let total := noncesTried n2 nc s
  if ms = 0 ∨ total ≤ 0 then 0 else sat32 (total.toNat * 1000 / ms.toNat)

end Sys2Proof.Machine
end

