-- ==== Sys2Proof/Machine/Merkle.lean ====
section
/-! DEFINITION. The Merkle-path tree-fold accumulator (rules R180 to R185), internal to INIT. -/

namespace Sys2Proof.Machine

/-- One step of the fold: the running value first, the sibling as supplied (rule R181). -/
def merkleStep (h sibling : List Byte) : List Byte := doubleHash (h ++ sibling)

/-- `MerkleFold(cb, path)` of rule R180, in path order. -/
def merkleFold (cb : List Byte) (path : List (List Byte)) : List Byte := path.foldl merkleStep (doubleHash cb)

/-- The first `n` stored path entries, entry `k` at `PATH[32k..32k+32)` (rule R50). -/
def State.pathEntries (s : State) (n : Nat) : List (List Byte) :=
  (List.range n).map (fun k => s.readBytes (bufBase .path + 32 * k) 32)

end Sys2Proof.Machine
end

