-- ==== Sys2Proof/Machine/Target.lean ====
section
/-! DEFINITION. The compact-bits target decoder (rules R170 to R174), internal to INIT. -/

namespace Sys2Proof.Machine

/-- The exponent of a compact value, `bits[31:24]` (rule R170). -/
def compactExponent (bits : Word) : Nat := (bits.extractLsb' 24 8).toNat

/-- The three mantissa bytes, high byte first and taken as they are: bit 23 is no sign (rules R170, R173). -/
def compactMantissa (bits : Word) : List Byte :=
  [bits.extractLsb' 16 8, bits.extractLsb' 8 8, bits.extractLsb' 0 8]

/-- `DecodeTarget(bits)`; `none` is `FAIL`, for an exponent of at most 3 or above 32 (rules R170 to R172). -/
def decodeTarget (bits : Word) : Option (List Byte) :=
  let e := compactExponent bits
  if e ≤ 3 ∨ 32 < e then none
  else some (fill (32 - e) 0 ++ compactMantissa bits ++ fill (e - 3) 0)

end Sys2Proof.Machine
end

