-- ==== Sys2Proof/Machine/Session.lean ====
section
/-! DEFINITION. The session commands BEGIN, INIT, END and REPORT (rules R190 to R206). -/

namespace Sys2Proof.Machine

/-- The session scalars and `STATE` after a successful BEGIN (rules R190, R192). -/
def beginScalars (s : State) : State :=
  { s with
    height := 0, nonce2 := 0, startNonce := 0, bestNonce := 0, hashTime := 0, pathLen := 0
    cbLen := s.argCbLen, status := .ready, result := .ok }

/-- The session buffers after a successful BEGIN, with the fragment of `s` in `COINBASE` (rules R190, R192). -/
def beginBuffers (s : State) : State :=
  (((((s.writeBuf .bestHash 0 (fill 32 0xFF)).writeBuf .target 0 (fill 32 0)).writeBuf .header 0 (fill 80 0)).writeBuf
    .path 0 (fill 512 0)).writeBuf .coinbase 0 (fill 132 0)).writeBuf .coinbase 4 s.opFragment

/-- BEGIN with the coinbase cap as an argument (rules R190, R191). -/
def beginEffect (cap : Nat) (s : State) : State :=
  if cap < s.opCbLen then s.failWith .einval else beginScalars (beginBuffers s)

/-- BEGIN (rule R190). -/
def execBegin (s : State) : Host.Outcome State Fault Refusal := .next (beginEffect Config.cbCap s)

/-- INIT is accepted in READY and INVALID (rules R194, R200). -/
def initAccepted (x : Status) : Bool := x = .ready || x = .invalid

/-- What INIT validates: the height, the path length and the bits; the target if all three pass (rule R195). -/
def initTarget (s : State) : Option (List Byte) :=
  if Config.heightMax < s.opHeight ∨ Config.maxPath < s.opPathLen then none else decodeTarget s.opBits

/-- `FAIL_INIT`: every location INIT writes is left UNSPECIFIED, as one draw (rule R198). -/
def failInit (s : State) : State :=
  let d := s.draws
  { ((((s.writeBuf .coinbase 0 (drawnBytes d (bufBase .coinbase) 4)).writeBuf
      .path 0 (drawnBytes d (bufBase .path) 512)).writeBuf
      .header 0 (drawnBytes d (bufBase .header) 80)).writeBuf
      .target 0 (drawnBytes d (bufBase .target) 32)).countDraw with
    height := (Config.drawHeight d).setWidth 32
    pathLen := BitVec.ofNat 32 (Config.drawPathLen d).val
    status := .invalid, result := .einval }

/-- The coinbase prefix: `CB_LEAD`, then the height's three low bytes, least significant first (rule R196). -/
def coinbasePrefix (lead : Byte) (h : Word) : List Byte := lead :: (toLE32 h).take 3

/-- `COINBASE[0..4)` and `PATH` as a successful INIT stores them (rules R196, R197). -/
def initStore (lead : Byte) (s : State) : State :=
  (s.writeBuf .coinbase 0 (coinbasePrefix lead s.argHeight)).writeBuf .path 0
    (s.opPathBytes s.opPathLen ++ fill (512 - 32 * s.opPathLen) 0)

/-- The stored coinbase `COINBASE[0..4+CB_LEN)` (rule R44). -/
def State.storedCoinbase (s : State) : List Byte := s.readBytes (bufBase .coinbase) (4 + s.cbLen.toNat)

/-- The header as INIT stores it: the argument, its Merkle-root field replaced by the fold over what `s` stores
unless `CTRL.MROOT` is 1 (rules R34, R185, R197). -/
def initHeader (s : State) : List Byte :=
  if s.mroot then s.opHeader
  else s.opHeader.take 36 ++ merkleFold s.storedCoinbase (s.pathEntries s.opPathLen) ++ s.opHeader.drop 68

/-- A successful INIT whose bits decode to `t` (rules R194, R196, R197, R199). -/
def initSession (lead : Byte) (t : List Byte) (s : State) : State :=
  let s1 := initStore lead s
  let s2 := (s1.writeBuf .header 0 (initHeader s1)).writeBuf .target 0 t
  { s2 with
    height := s.argHeight, pathLen := s.argPathLen, startNonce := s2.nonce, status := .mining, result := .ok }

/-- INIT: the state is checked before the arguments (rules R194, R283). -/
def initEffect (lead : Byte) (s : State) : State :=
  if initAccepted s.status then
    match initTarget s with
    | some t => initSession lead t s
    | none => failInit s
  else s.failWith .estate

/-- INIT (rule R194). -/
def execInit (s : State) : Host.Outcome State Fault Refusal := .next (initEffect Config.cbLead s)

/-- END clears no session data (rules R202, R203). -/
def endEffect (s : State) : State := (s.setStatus .idle).setResult .ok

/-- END (rule R202). -/
def execEndSession (s : State) : Host.Outcome State Fault Refusal := .next (endEffect s)

/-- The 60 bytes of a report (rules R51, R204). -/
def reportBytes (s : State) : List Byte :=
  toLE32 s.ctrl ++ toLE32 (statusWord s.status) ++ toLE32 s.height ++ s.readBytes nonceOffset 4 ++ toLE32 s.nonce2 ++
    s.buffer .bestHash ++ toLE32 s.hashTime ++ toLE32 (hashRate s.nonce2 s.nonce s.startNonce s.hashTime)

/-- REPORT (rules R204, R205). -/
def reportEffect (s : State) : State := (s.writeBuf .report 0 (reportBytes s)).setResult .ok

/-- REPORT (rule R204). -/
def execReport (s : State) : Host.Outcome State Fault Refusal := .next (reportEffect s)

end Sys2Proof.Machine
end

