-- ==== Sys2Proof/Machine/Dispatch.lean ====
section
/-! DEFINITION. One arm for each command (rule R112). -/

namespace Sys2Proof.Machine

-- The effect of one command, as one engine step applies it (rules R91, R112).
def exec (i : Instr) (s : State) : Host.Outcome State Fault Refusal :=
  match i with
  | .begin => Sys2Proof.Machine.execBegin s
  | .init => Sys2Proof.Machine.execInit s
  | .mine => Sys2Proof.Machine.execMine s
  | .endSession => Sys2Proof.Machine.execEndSession s
  | .report => Sys2Proof.Machine.execReport s
  | .encrypt => Sys2Proof.Machine.execEncrypt s
  | .decrypt => Sys2Proof.Machine.execDecrypt s

end Sys2Proof.Machine
end

