-- ==== Sys2Proof/Machine/Engine.lean ====
section
/-! DEFINITION. The engine (rules R15, R91, R112, R113): one step executes the whole pending command. -/

namespace Sys2Proof.Machine

/-- `UNDEF()`: the result code is all that an undefined command word changes (rule R113). -/
def undefEffect (s : State) : State := s.failWith .eopc

/-- The command is finished: `pending` is cleared, so `BUSY` falls (rule R91). -/
def finishCommand (s : State) : State := { s with pending := none }

/-- A command's outcome, with the command finished where there is a next state (rule R91). -/
def finishOutcome (r : Host.Outcome State Fault Refusal) : Host.Outcome State Fault Refusal :=
  match r with
  | .next t => .next (finishCommand t)
  | .fault f => .fault f
  | .refused f => .refused f

/-- The engine step on the pending word `w` (rules R91, R112). -/
def engineStep (w : Word) (s : State) : Host.Outcome State Fault Refusal :=
  match decode w with
  | .ok i => finishOutcome (exec i s)
  | .error _ => finishOutcome (.next (undefEffect s))

/-- The engine's turn: with nothing pending, or with reset asserted, it does nothing (rules R292, R300). -/
def engineTurn (s : State) : Host.Outcome State Fault Refusal :=
  if s.resetLine then .next s
  else
    match s.pending with
    | some w => engineStep w s
    | none => .next s

/-- What an event does. -/
def handleEvent (e : Event) (s : State) : Host.Outcome State Fault Refusal :=
  match e with
  | .access a => hostAccess a s
  | .engine => engineTurn s
  | .resetAssert => .next (assertReset s)
  | .resetRelease => .next (releaseReset s)

end Sys2Proof.Machine
end

