-- ==== Sys2Proof/Machine/Step.lean ====
section
/-! DEFINITION. One step of the whole: the next event of the schedule happens; where the schedule is empty, the engine
has its turn. -/

namespace Sys2Proof.Machine

/-- One step. The order of host accesses and engine turns is the schedule's (rules R91, R96); with no event left the
engine runs what is pending, so that every accepted command completes (rule R91). -/
def step (s : State) : Host.Outcome State Fault Refusal :=
  match s.schedule with
  | e :: rest => handleEvent e { s with schedule := rest }
  | [] => engineTurn s

/-- `s` with the command word `w` accepted, as a host's write of `CMD` leaves it (rule R90), and the engine's turn next:
`step` takes its instruction from `pending`. -/
def State.withFetchWord (s : State) (nbits w : Nat) : State :=
  { acceptCommand (BitVec.ofNat 32 (w % 2 ^ nbits)) s with
    schedule := .engine :: s.schedule, resetLine := false }

end Sys2Proof.Machine
end

