-- ==== Sys2Proof/Machine/HostProgram.lean ====
section
/-! DEFINITION. The notation of host programs (rules R115, R116) as what each line makes the host do,
and which orders of events are a run of a host program. -/

namespace Sys2Proof.Machine

/-- `MemWrite(BASE + o, 4, v)` (rule R86). -/
def memWrite (o : Nat) (v : Word) : Access := ⟨Config.base + o, 4, .write v⟩

/-- `MemRead(BASE + o, 4)` (rule R86). -/
def memRead (o : Nat) : Access := ⟨Config.base + o, 4, .read⟩

/-- A byte string padded with 0x00 to a multiple of 4 (rule R115). -/
def padToWords (bs : List Byte) : List Byte := bs ++ fill ((4 - bs.length % 4) % 4) 0

/-- One write for each word, from offset `o` on. -/
def writesFrom (o : Nat) : List Word → List Access
  | [] => []
  | w :: ws => memWrite o w :: writesFrom (o + 4) ws

/-- `wr NAME, v` on a register (rule R115). -/
def writeReg32 (r : Reg) (v : Word) : HostAction := .access (memWrite (regOffset r) v)

/-- `wr CMD, w` ; `poll`, the expansion of every `cmd` line (rule R116). -/
def commandActions (w : Word) : List HostAction := [writeReg32 .cmd w, .poll]

/-- What a line of host notation stands for (rules R115, R116). -/
def hostLineActions : HostLine → List HostAction
  | .wr r v => [writeReg32 r v]
  | .wrBuf b k v => [.access (memWrite (bufBase b + k) v)]
  | .wrBytes b k bs => (writesFrom (bufBase b + k) (bytesToWords (padToWords bs))).map .access
  | .rd r => [.access (memRead (regOffset r))]
  | .rdBytes b n => (List.range ((n + 3) / 4)).map (fun j => .access (memRead (bufBase b + 4 * j)))
  | .poll => [.poll]
  | .cmd i => commandActions (encode i)
  | .cmdRaw w => commandActions w
  | .mine cycles => writeReg32 .argCycles cycles :: commandActions (encode .mine)
  | .clrOvr => [writeReg32 .estat 0x00000002]

/-- What a host program, line by line, stands for. -/
def programActions (lines : List HostLine) : List HostAction := lines.flatMap hostLineActions

/-- The access an action performs; `poll` performs it again and again (rule R115). -/
def actionAccess : HostAction → Access
  | .access a => a
  | .poll => memRead (regOffset .estat)

/-- The word just read has bit 0 = 0: what `poll` waits for in `ESTAT`, `BUSY` = 0 (rules R35, R115). -/
def readIdle (s : State) : Bool :=
  match s.busData with
  | some w => !w.getLsbD 0
  | none => false

/-- After its access has led to `s` an action is over: one access at once, `poll` only when it has read `BUSY` = 0. -/
def actionOver (x : HostAction) (s : State) : Bool :=
  match x with
  | .access _ => true
  | .poll => readIdle s

/-- What is left to do after the event `e` has led to `s`; `none` where `e` is an access the program does not make now.
The engine's turns and the reset input are not the host's. -/
def actionsAfter (e : Event) (s : State) (todo : List HostAction) : Option (List HostAction) :=
  match e, todo with
  | .access a, x :: rest =>
    if a = actionAccess x then (if actionOver x s then some rest else some (x :: rest)) else none
  | .access _, [] => none
  | .engine, _ => some todo
  | .resetAssert, _ => some todo
  | .resetRelease, _ => some todo

/-- `events` from `s` on are a whole run of a host that does `todo` and nothing else: its accesses come in order, each
`poll` reads `ESTAT` until bit 0 reads 0, nothing is left to do, and no step stops. How many reads a `poll` makes, and
where the engine has its turn, are the run's (rules R91, R96, R115). -/
def isRun : List Event → List HostAction → State → Bool
  | [], todo, _ => todo.isEmpty
  | e :: rest, todo, s =>
    match step { s with schedule := e :: rest } with
    | .next t =>
      match actionsAfter e t todo with
      | some todo' => isRun rest todo' t
      | none => false
    | .fault _ => false
    | .refused _ => false

end Sys2Proof.Machine
end

