-- ==== Sys2Proof/Safety.lean ====
section
/-! DEFINITION. What a sound state of the MWE is, in the terms the statements use: the canonical form of memory, the
invariants of rule R66, and the promises other rules make about every state the machine reaches. -/

namespace Sys2Proof.Machine

/-- The offsets at which memory holds a byte: those of the ten buffers (rule R87). -/
def isBufferByte (a : Nat) : Bool :=
  decide ((0x040 ≤ a ∧ a < 0x10C) ∨ (0x120 ≤ a ∧ a < 0x170) ∨ (0x180 ≤ a ∧ a < 0x484) ∨ (0x500 ≤ a ∧ a < 0x700) ∨
    (0x800 ≤ a ∧ a < 0x1000))

/-- An entry stands at a byte of a buffer and differs from what the offset reads as unlisted. -/
def cellCanonical (c : Host.Cell) : Bool := isBufferByte c.1 && !(decide (unlistedByte c.1 = some c.2))

/-- The canonical form of memory: offsets strictly rising, every entry canonical. -/
def Memory.wf (m : Memory) : Bool :=
  decide (m.Pairwise (fun c d => c.1 < d.1)) && m.all cellCanonical

/-- The statuses a session has before its first successful INIT since BEGIN. -/
def Status.unmined (x : Status) : Bool := x = .ready || x = .invalid

/-- The statuses a session has after a successful INIT and before END (rule R66). -/
def Status.initialised (x : Status) : Bool := x = .mining || x = .done || x = .fail

/-- The value of `BEST_HASH` before any hash (rules R47, R190). -/
def noBest : List Byte := fill 32 0xFF

/-- The header with another nonce. -/
def headerAt (s : State) (nc : Word) : List Byte := (s.buffer .header).take 76 ++ toLE32 nc

/-- The invariants of the MWE. -/
structure State.Inv (s : State) : Prop where
  /-- Memory keeps its canonical form. -/
  memory : s.mem.wf = true
  /-- The reserved bits of `CTRL` read 0 (rules R34, R88). -/
  ctrl : s.ctrl &&& ~~~ctrlMask = 0
  /-- While a command is pending, `CMD` reads its word (rules R33, R93). -/
  cmd : ∀ w, s.pending = some w → s.cmd = w
  /-- `CB_LEN ≤ CB_CAP` (rule R66). -/
  cbLen : s.cbLen.toNat ≤ Config.cbCap
  /-- `PATH_LEN ≤ 16` (rule R66). -/
  pathLen : s.pathLen.toNat ≤ Config.maxPath
  /-- `HEIGHT ≤ 0xFFFFFF` (rule R66). -/
  height : s.height.toNat ≤ Config.heightMax
  /-- In MINING, DONE and FAIL, `TARGET` is the decoded bits field of `HEADER` (rule R66). -/
  target : s.status.initialised = true → decodeTarget (s.readWord bitsOffset) = some (s.buffer .target)
  /-- Before a session's first successful INIT nothing has been searched (rules R190, R198, R227). -/
  fresh : s.status.unmined = true →
    s.buffer .bestHash = noBest ∧ s.nonce2 = 0 ∧ s.startNonce = 0 ∧ s.bestNonce = 0 ∧ s.hashTime = 0
  /-- In MINING every hash so far is above the target (rules R223, R227). -/
  best : s.status = .mining → be256 (s.buffer .target) < be256 (s.buffer .bestHash)
  /-- `BEST_HASH` is the hash at `BEST_NONCE`, once there is one (rules R42, R47). -/
  bestNonce : s.buffer .bestHash = noBest ∨ s.buffer .bestHash = doubleHash (headerAt s s.bestNonce)
  /-- In DONE the nonce is the winning one and its hash meets the target (rule R223). -/
  solved : s.status = .done →
    s.nonce = s.bestNonce ∧ s.buffer .bestHash = doubleHash (s.buffer .header) ∧
      le256 (s.buffer .bestHash) (s.buffer .target) = true
  /-- In FAIL the nonce is the last one (rule R224). -/
  exhausted : s.status = .fail → s.nonce = Config.nonceMax
  /-- The nonces tried since INIT are never negative (rule R242). -/
  tried : 0 ≤ noncesTried s.nonce2 s.nonce s.startNonce
  /-- The bytes of `COINBASE` after the stored coinbase are 0 (rule R49). -/
  coinbase : ∀ k, 4 + s.cbLen.toNat ≤ k → k < 132 → s.readByte (bufBase .coinbase + k) = 0
  /-- After a successful INIT the entries of `PATH` from `PATH_LEN` on are 0 (rule R50). -/
  path : s.status.initialised = true →
    ∀ k, 32 * s.pathLen.toNat ≤ k → k < 512 → s.readByte (bufBase .path + k) = 0

end Sys2Proof.Machine
end

