-- ==== Sys2Proof/Certificates/Slice0/Obligations.lean ====
section
/-! DEFINITION. The statements about this model, for the provers. Each formalises the rules of the spec its docstring
names. A statement about `exec` writes an unchanged field as itself (`t = { s with changed fields }`) and an unchanged
byte through `State.readByte`. Draws (`Config.draw…`) are constants without a body: a statement that names one holds
for every value of it. -/

open Sys2Proof Sys2Proof.Machine

/-! ## Command words -/

/-- Rule R111: the seven words of the opcode map, written out. -/
def Obligations.CommandWordsDecode : Prop :=
  decode 0x00000001 = .ok .begin ∧ decode 0x00000002 = .ok .init ∧ decode 0x00000003 = .ok .mine ∧
    decode 0x00000004 = .ok .endSession ∧ decode 0x00000005 = .ok .report ∧ decode 0x00000010 = .ok .encrypt ∧
    decode 0x00000011 = .ok .decrypt

/-- Rules R111 to R113: a word decodes to a command exactly when it is that command's word; every other word, with
`RSVD` ≠ 0 or with an opcode not in the table, is rejected. -/
def Obligations.DecodeAcceptsExactlyTheTable : Prop :=
  ∀ (w : Word) (i : Instr), decode w = .ok i ↔ w = encode i

/-- Rule R117: a defined word prints as its mnemonic and reads back, every other word prints as `.undef` and its
digits. -/
def Obligations.DisassemblyIsInverse : Prop :=
  (∀ i : Instr, disassemble (encode i) = mnemonic i ∧ assemble (disassemble (encode i)) = some (encode i)) ∧
    ∀ w : Word, (∀ i : Instr, w ≠ encode i) → disassemble w = ".undef 0x" ++ hexWord w

/-- Rule R113: an undefined command word is accepted as any other, and its step writes `RESULT` = EOPC and nothing
else; `BUSY` rises and falls. -/
def Obligations.UndefinedWordSetsOnlyEopc : Prop :=
  ∀ (s : State) (w : Word) (rest : List Event), s.resetLine = false → s.pending = none →
    s.schedule = .access (memWrite 0x000 w) :: .engine :: rest → (∀ i : Instr, w ≠ encode i) →
    core.run 1 s = .next { s with cmd := w, pending := some w, schedule := .engine :: rest, busData := none } ∧
      core.run 2 s =
        .next { s with cmd := w, pending := none, result := .eopc, schedule := rest, busData := none }

/-! ## Steps -/

/-- Rules R91, R112: on the engine's turn `step` is the effect of the decoded pending command, after which `pending` is
cleared. That it is so too when no event is left is the model's choice (DESIGN CHOICE, the log's entry 3): rule R91
leaves the time of the engine step open. -/
def Obligations.StepRunsDecodedCommand : Prop :=
  ∀ (s : State) (w : Word) (i : Instr), s.resetLine = false → s.pending = some w → decode w = .ok i →
    (∀ rest, s.schedule = .engine :: rest →
      ∃ t, exec i { s with schedule := rest } = .next t ∧ step s = .next { t with pending := none }) ∧
    (s.schedule = [] → ∃ t, exec i s = .next t ∧ step s = .next { t with pending := none })

/-- Rule R292: with nothing pending the engine does nothing. That a step with no event left is the engine's turn is the
model's choice (DESIGN CHOICE, the log's entry 3). -/
def Obligations.IdleEngineDoesNothing : Prop :=
  ∀ s : State, s.pending = none →
    (∀ rest, s.schedule = .engine :: rest → step s = .next { s with schedule := rest }) ∧
      (s.schedule = [] → step s = .next s)

/-- Rule R91: every accepted command completes. In the model the engine's turn comes at the latest when the host's
accesses are exhausted (the log's entry 3), so a pending command is finished within as many steps as there are events
left, and one more, if no reset and no ill-formed access is among them. -/
def Obligations.AcceptedCommandCompletes : Prop :=
  ∀ s : State, s.resetLine = false →
    (∀ e ∈ s.schedule, e = .engine ∨ ∃ a, e = .access a ∧ a.wellFormed = true) →
    ∃ k t, k ≤ s.schedule.length + 1 ∧ core.run k s = .next t ∧ t.busy = false

/-- Rules R91, R92 (both orders of a `CMD` write of MINE and a later write of `ARG_CYCLES`): the engine step may come
first, and then the MINE used the old value and the write is performed; or the write may come first, and then it is
dropped and `OVR` is set. -/
def Obligations.WriteRacesEngineBothWays : Prop :=
  ∀ (s : State) (v : Word), s.resetLine = false → s.pending = none →
    (s.schedule = [.access (memWrite 0x000 (encode .mine)), .engine, .access (memWrite 0x11C v)] →
      ∃ m t, exec .mine { s with cmd := encode .mine, pending := some (encode .mine), busData := none,
                                 schedule := [.access (memWrite 0x11C v)] } = .next m ∧
        core.run 3 s = .next t ∧ t.argCycles = v ∧ t.ovr = s.ovr ∧ t.status = m.status ∧ t.mem = m.mem) ∧
    (s.schedule = [.access (memWrite 0x000 (encode .mine)), .access (memWrite 0x11C v), .engine] →
      ∃ t, core.run 3 s = .next t ∧ t.argCycles = s.argCycles ∧ t.ovr = true ∧ t.pending = none)

/-- Rules R280, R283: a step is never refused, and the one thing that stops it is the bus error of an ill-formed access.
That no bus error comes while reset is asserted is the model's reading of rule R300 (DEDUCED, the log's entry 8). -/
def Obligations.StepStopsOnlyOnBusError : Prop :=
  ∀ s : State, (∀ r, step s ≠ .refused r) ∧
    ∀ f, step s = .fault f → ∃ a rest, s.schedule = .access a :: rest ∧ f = .busError a.addr ∧
      a.wellFormed = false ∧ s.resetLine = false

/-! ## Session commands -/

/-- Rule R191: a fragment over the cap changes nothing but `RESULT`. -/
def Obligations.BeginOverCapKeepsEverything : Prop :=
  ∀ s : State, Config.cbCap < s.argCbLen.toNat → exec .begin s = .next { s with result := .einval }

/-- Rule R190: what a BEGIN within the cap leaves in every session register and buffer. -/
def Obligations.BeginStartsSession : Prop :=
  ∀ s : State, s.argCbLen.toNat ≤ Config.cbCap → ∃ t, exec .begin s = .next t ∧
    t.height = 0 ∧ t.nonce2 = 0 ∧ t.startNonce = 0 ∧ t.bestNonce = 0 ∧ t.hashTime = 0 ∧ t.pathLen = 0 ∧
    t.buffer .bestHash = fill 32 0xFF ∧ t.buffer .target = fill 32 0 ∧ t.buffer .header = fill 80 0 ∧ t.nonce = 0 ∧
    t.buffer .path = fill 512 0 ∧
    t.buffer .coinbase =
      fill 4 0 ++ (s.buffer .argCb).take s.argCbLen.toNat ++ fill (128 - s.argCbLen.toNat) 0 ∧
    t.cbLen = s.argCbLen ∧ t.status = .ready ∧ t.result = .ok

/-- Rule R192: what BEGIN does not touch. -/
def Obligations.BeginFrame : Prop :=
  ∀ s t : State, exec .begin s = .next t →
    t = { s with
          height := t.height, nonce2 := t.nonce2, startNonce := t.startNonce, bestNonce := t.bestNonce
          hashTime := t.hashTime, pathLen := t.pathLen, cbLen := t.cbLen, status := t.status, result := t.result
          mem := t.mem } ∧
      ∀ a, (∀ b ∈ [Buf.bestHash, .target, .header, .path, .coinbase], a < bufBase b ∨ bufBase b + bufSize b ≤ a) →
        t.readByte a = s.readByte a

/-- Rule R200: INIT outside READY and INVALID writes ESTATE and nothing else. -/
def Obligations.InitRejectedOutsideReadyInvalid : Prop :=
  ∀ s : State, s.status ≠ .ready → s.status ≠ .invalid → exec .init s = .next { s with result := .estate }

/-- Rules R195, R198: each failed validation of an accepted INIT gives EINVAL and INVALID; the fields it may have
written keep their ranges, and everything else keeps its value. -/
def Obligations.InitFailsValidation : Prop :=
  ∀ s : State, s.status = .ready ∨ s.status = .invalid →
    (0xFFFFFF < s.argHeight.toNat ∨ 16 < s.argPathLen.toNat ∨
      compactExponent (s.readWord (0x120 + 72)) ≤ 3 ∨ 32 < compactExponent (s.readWord (0x120 + 72))) →
    ∃ t, exec .init s = .next t ∧ t.status = .invalid ∧ t.result = .einval ∧
      t.height.toNat ≤ 0xFFFFFF ∧ t.pathLen.toNat ≤ 16 ∧
      t = { s with height := t.height, pathLen := t.pathLen, mem := t.mem, draws := t.draws
                   status := .invalid, result := .einval } ∧
      ∀ a, (a < 0x400 ∨ 0x404 ≤ a) → (a < 0x500 ∨ 0x700 ≤ a) → (a < 0x060 ∨ 0x0D0 ≤ a) →
        t.readByte a = s.readByte a

/-- Rules R194, R196, R197, R199: what an accepted INIT with valid arguments leaves. The Merkle root is the fold over
the stored coinbase and the first `ARG_PATHLEN` entries, or the supplied field under `CTRL.MROOT` = 1. Nothing else
changes. -/
def Obligations.InitConfiguresSession : Prop :=
  ∀ s : State, s.status = .ready ∨ s.status = .invalid → s.argHeight.toNat ≤ 0xFFFFFF → s.argPathLen.toNat ≤ 16 →
    4 ≤ compactExponent (s.readWord (0x120 + 72)) → compactExponent (s.readWord (0x120 + 72)) ≤ 32 →
    ∃ t, exec .init s = .next t ∧ t.status = .mining ∧ t.result = .ok ∧
      t.height = s.argHeight ∧ t.pathLen = s.argPathLen ∧
      t.readBytes 0x400 4 =
        [0x03, s.argHeight.extractLsb' 0 8, s.argHeight.extractLsb' 8 8, s.argHeight.extractLsb' 16 8] ∧
      t.buffer .path = (s.buffer .argPath).take (32 * s.argPathLen.toNat) ++ fill (512 - 32 * s.argPathLen.toNat) 0 ∧
      t.readBytes 0x080 36 = s.readBytes 0x120 36 ∧ t.readBytes (0x080 + 68) 12 = s.readBytes (0x120 + 68) 12 ∧
      t.readBytes (0x080 + 36) 32 =
        (if s.mroot then s.readBytes (0x120 + 36) 32
         else merkleFold (t.readBytes 0x400 (4 + s.cbLen.toNat))
           ((List.range s.argPathLen.toNat).map (fun k => s.readBytes (0x200 + 32 * k) 32))) ∧
      decodeTarget (s.readWord (0x120 + 72)) = some (t.buffer .target) ∧
      t.startNonce = s.readWord (0x120 + 76) ∧ t.nonce = s.readWord (0x120 + 76) ∧
      t = { s with height := t.height, pathLen := t.pathLen, startNonce := t.startNonce, status := .mining
                   result := .ok, mem := t.mem } ∧
      ∀ a, (a < 0x400 ∨ 0x404 ≤ a) → (a < 0x500 ∨ 0x700 ≤ a) → (a < 0x060 ∨ 0x0D0 ≤ a) →
        t.readByte a = s.readByte a

/-- Rule R202: END returns to IDLE from every state and clears no session data. -/
def Obligations.EndReturnsToIdle : Prop :=
  ∀ s : State, exec .endSession s = .next { s with status := .idle, result := .ok }

/-- Rule R204: the report, field by field at its offsets, and what REPORT leaves unchanged. -/
def Obligations.ReportCopiesSession : Prop :=
  ∀ s : State, ∃ t, exec .report s = .next t ∧ t = { s with result := .ok, mem := t.mem } ∧
    t.readWord 0x0D0 = s.ctrl ∧ t.readWord 0x0D4 = statusWord s.status ∧ t.readWord 0x0D8 = s.height ∧
    t.readWord 0x0DC = s.nonce ∧ t.readWord 0x0E0 = s.nonce2 ∧ t.readBytes 0x0E4 32 = s.buffer .bestHash ∧
    t.readWord 0x104 = s.hashTime ∧
    t.readWord 0x108 = hashRate s.nonce2 s.nonce s.startNonce s.hashTime ∧
    ∀ a, (a < 0x0D0 ∨ 0x10C ≤ a) → t.readByte a = s.readByte a

/-! ## The nonce search -/

/-- Rule R228: MINE outside MINING is a no-op that writes OK. -/
def Obligations.MineOutsideMiningIsNoOp : Prop :=
  ∀ s : State, s.status ≠ .mining → exec .mine s = .next { s with result := .ok }

/-- Rule R223: a header that meets the target ends the search at once, however many passes are allowed; the nonce is
not advanced, and only `BEST_HASH` changes in memory. -/
def Obligations.MineStopsOnSuccess : Prop :=
  ∀ s : State, s.status = .mining → s.argCycles ≠ 0 →
    le256 (doubleHash (s.buffer .header)) (s.buffer .target) = true →
    ∃ t, exec .mine s = .next t ∧ t.status = .done ∧ t.result = .ok ∧
      t.buffer .bestHash = doubleHash (s.buffer .header) ∧ t.bestNonce = s.nonce ∧ t.nonce = s.nonce ∧
      t = { s with status := .done, result := .ok, bestNonce := s.nonce, hashTime := t.hashTime, draws := t.draws
                   mem := t.mem } ∧
      ∀ a, (a < 0x040 ∨ 0x060 ≤ a) → t.readByte a = s.readByte a

/-- Rules R220, R224, R283, R151: an unsuccessful pass at nonce 0xFFFFFFFF under the FAIL policy, or with `NONCE2` at its
maximum, ends the search in FAIL; the nonce and `NONCE2` stay. The best hash and its nonce are replaced exactly when the
new hash is not larger, as on every unsuccessful pass. -/
def Obligations.MineFailsWhenExhausted : Prop :=
  ∀ s : State, s.status = .mining → s.argCycles ≠ 0 → s.nonce = 0xFFFFFFFF →
    (s.xpol = false ∨ s.nonce2 = 0xFFFFFFFF) →
    le256 (doubleHash (s.buffer .header)) (s.buffer .target) = false →
    ∃ t, exec .mine s = .next t ∧ t.status = .fail ∧ t.result = .ok ∧ t.nonce = 0xFFFFFFFF ∧ t.nonce2 = s.nonce2 ∧
      t.buffer .header = s.buffer .header ∧
      (if le256 (doubleHash (s.buffer .header)) (s.buffer .bestHash) then
          t.buffer .bestHash = doubleHash (s.buffer .header) ∧ t.bestNonce = 0xFFFFFFFF
        else t.buffer .bestHash = s.buffer .bestHash ∧ t.bestNonce = s.bestNonce)

/-- Rules R224, R225, R151: one unsuccessful pass. The best hash is replaced exactly when the new hash is not larger;
the nonce advances, or at its maximum restarts at 0 with `NONCE2` incremented under the ROLLOVER policy. -/
def Obligations.MineAdvancesOnePass : Prop :=
  ∀ s : State, s.status = .mining → s.argCycles = 1 →
    (s.nonce = 0xFFFFFFFF → s.xpol = true ∧ s.nonce2 ≠ 0xFFFFFFFF) →
    le256 (doubleHash (s.buffer .header)) (s.buffer .target) = false →
    ∃ t, exec .mine s = .next t ∧ t.status = .mining ∧ t.result = .ok ∧
      (if le256 (doubleHash (s.buffer .header)) (s.buffer .bestHash) then
          t.buffer .bestHash = doubleHash (s.buffer .header) ∧ t.bestNonce = s.nonce
        else t.buffer .bestHash = s.buffer .bestHash ∧ t.bestNonce = s.bestNonce) ∧
      (if s.nonce = 0xFFFFFFFF then t.nonce = 0 ∧ t.nonce2.toNat = s.nonce2.toNat + 1
        else t.nonce.toNat = s.nonce.toNat + 1 ∧ t.nonce2 = s.nonce2) ∧
      t.buffer .header = (s.buffer .header).take 76 ++ toLE32 t.nonce

/-- Rules R220, R221: a MINE in MINING completes. It advances at most `ARG_CYCLES` nonces, exactly that many if the
session is still MINING, and never goes back. -/
def Obligations.MineIsBounded : Prop :=
  ∀ s : State, s.status = .mining → ∃ t, exec .mine s = .next t ∧ t.result = .ok ∧
    (t.status = .mining ∨ t.status = .done ∨ t.status = .fail) ∧
    0 ≤ noncesTried t.nonce2 t.nonce 0 - noncesTried s.nonce2 s.nonce 0 ∧
    noncesTried t.nonce2 t.nonce 0 - noncesTried s.nonce2 s.nonce 0 ≤ (s.argCycles.toNat : Int) ∧
    (t.status = .mining →
      noncesTried t.nonce2 t.nonce 0 - noncesTried s.nonce2 s.nonce 0 = (s.argCycles.toNat : Int))

/-- Rule R221: splitting the passes of one MINE over two gives the same session state, but for `HASHTIME` (and the
model's count of draws). -/
def Obligations.MineMayBeSplit : Prop :=
  ∀ (s t u v : State) (a b c : Word), c.toNat = a.toNat + b.toNat →
    exec .mine { s with argCycles := a } = .next t → exec .mine { t with argCycles := b } = .next u →
    exec .mine { s with argCycles := c } = .next v →
    { u with argCycles := 0, hashTime := 0, draws := 0 } = { v with argCycles := 0, hashTime := 0, draws := 0 }

/-- Rule R222: MINE changes no header byte but the nonce's, and no other register or buffer than its own. -/
def Obligations.MineFrame : Prop :=
  ∀ s t : State, exec .mine s = .next t →
    t = { s with status := t.status, result := t.result, nonce2 := t.nonce2, bestNonce := t.bestNonce
                 hashTime := t.hashTime, draws := t.draws, mem := t.mem } ∧
      ∀ a, (a < 0x040 ∨ 0x060 ≤ a) → (a < 0x0CC ∨ 0x0D0 ≤ a) → t.readByte a = s.readByte a

/-- Rule R226: a MINE that starts in MINING adds one draw, saturating; any other adds nothing. The draw is a constant
without a body. -/
def Obligations.MineAddsElapsedTime : Prop :=
  ∀ s t : State, exec .mine s = .next t →
    (s.status = .mining →
      t.hashTime.toNat = min (s.hashTime.toNat + Config.drawElapsed s.draws) 0xFFFFFFFF ∧ t.draws = s.draws + 1) ∧
    (s.status ≠ .mining → t.hashTime = s.hashTime ∧ t.draws = s.draws)

/-- Rule R231: under the FAIL policy a search that ends in DONE ends at the lowest nonce, from where it resumed, whose
header meets the target. -/
def Obligations.MineStopsAtLowestSuccess : Prop :=
  ∀ s t : State, s.status = .mining → s.xpol = false → exec .mine s = .next t → t.status = .done →
    s.nonce.toNat ≤ t.nonce.toNat ∧
      le256 (doubleHash (headerAt s t.nonce)) (s.buffer .target) = true ∧
      ∀ n : Word, s.nonce.toNat ≤ n.toNat → n.toNat < t.nonce.toNat →
        le256 (doubleHash (headerAt s n)) (s.buffer .target) = false

/-- Rule R227: within a session the best hash never increases. Only BEGIN and a reset set it back. -/
def Obligations.BestHashNeverIncreases : Prop :=
  ∀ s t : State, s.Inv → step s = .next t → s.pending ≠ some (encode .begin) →
    s.schedule.head? ≠ some .resetRelease → be256 (t.buffer .bestHash) ≤ be256 (s.buffer .bestHash)

/-! ## Internal functions -/

/-- Rule R141: the padded message is the message, 0x80, zeros and the bit length big-endian, in the fewest whole
64-byte blocks. -/
def Obligations.ShaPaddingFillsBlocks : Prop :=
  ∀ m : List Byte, m.length < 2 ^ 60 →
    (shaPad m).length % 64 = 0 ∧ (shaPad m).length < m.length + 9 + 64 ∧
    (shaPad m).take m.length = m ∧ (shaPad m).getD m.length 0 = 0x80 ∧
    (∀ i, m.length < i → i + 8 < (shaPad m).length → (shaPad m).getD i 0 = 0) ∧
    be256 ((shaPad m).drop ((shaPad m).length - 8)) = 8 * m.length

/-- Rules R146, R148: a digest and a double hash have 32 bytes, and the double hash is the reversed digest of the
digest. -/
def Obligations.DoubleHashIsReversedDigest : Prop :=
  ∀ x : List Byte, (sha256 x).length = 32 ∧ (doubleHash x).length = 32 ∧
    ∀ i, i < 32 → (doubleHash x).getD i 0 = (sha256 (sha256 x)).getD (31 - i) 0

/-- Rule R150: the unsigned 256-bit comparison, and the same byte by byte: the first differing byte decides, and equal
values compare true. -/
def Obligations.Le256ComparesBytewise : Prop :=
  ∀ a b : List Byte, a.length = 32 → b.length = 32 →
    (le256 a b = true ↔ be256 a ≤ be256 b) ∧ (a = b → le256 a b = true) ∧
      ∀ i, i < 32 → (∀ j, j < i → a.getD j 0 = b.getD j 0) → a.getD i 0 ≠ b.getD i 0 →
        (le256 a b = true ↔ (a.getD i 0).toNat < (b.getD i 0).toNat)

/-- Rules R171, R172, R174 and the value of R170: decoding fails exactly for an exponent of at most 3 or above 32;
otherwise the target is m · 256^(e-3), its byte 31 is 0 and it is below 2^256 - 1. -/
def Obligations.DecodeTargetValue : Prop :=
  ∀ bits : Word,
    (decodeTarget bits = none ↔ bits.toNat / 2 ^ 24 ≤ 3 ∨ 32 < bits.toNat / 2 ^ 24) ∧
      ∀ t, decodeTarget bits = some t →
        t.length = 32 ∧ be256 t = bits.toNat % 2 ^ 24 * 256 ^ (bits.toNat / 2 ^ 24 - 3) ∧ t.getD 31 0 = 0 ∧
          be256 t < 2 ^ 256 - 1

/-- Rules R180, R181, R182: an empty path gives the coinbase's double hash, and each further sibling is hashed on the
right of the running value. -/
def Obligations.MerkleFoldBySibling : Prop :=
  ∀ cb : List Byte, merkleFold cb [] = doubleHash cb ∧
    ∀ (path : List (List Byte)) (sibling : List Byte),
      merkleFold cb (path ++ [sibling]) = doubleHash (merkleFold cb path ++ sibling)

/-- Rule R240: 0 without time or progress, else the quotient rounded down, saturating. -/
def Obligations.HashRateIsFlooredQuotient : Prop :=
  ∀ n2 nc s ms : Word, ∀ total : Int, total = (n2.toNat : Int) * 2 ^ 32 + nc.toNat - s.toNat →
    (ms = 0 ∨ total ≤ 0 → hashRate n2 nc s ms = 0) ∧
      (ms ≠ 0 → 0 < total →
        (if 0xFFFFFFFF * (ms.toNat : Int) ≤ total * 1000 then hashRate n2 nc s ms = 0xFFFFFFFF
         else ((hashRate n2 nc s ms).toNat : Int) * ms.toNat ≤ total * 1000 ∧
           total * 1000 < ((hashRate n2 nc s ms).toNat + 1 : Int) * ms.toNat))

/-! ## The payload cipher -/

/-- Rules R251, R260: XTEA's decipherment undoes its encipherment under every key. -/
def Obligations.XteaDecipherUndoesEncipher : Prop :=
  ∀ (k : Key) (b : Block), xteaDecipher k (xteaEncipher k b) = b

/-- Rule R263: length 0 writes no byte of `CBUF`. -/
def Obligations.EncryptLengthZeroIsNoOp : Prop :=
  ∀ s : State, s.clen = 0 → exec .encrypt s = .next { s with cres := 0, result := .ok }

/-- Rule R264, and a negative length (rule R256): the sentinel, EINVAL and an unchanged buffer. -/
def Obligations.EncryptRefusesOverCapacity : Prop :=
  ∀ s : State,
    (s.clen.toInt < 0 ∨
      (0 < s.clen.toInt ∧
        ((s.ccap.toNat : Int) < s.clen.toInt + (4 - s.clen.toInt % 4) ∨
          2048 < s.clen.toInt + (4 - s.clen.toInt % 4)))) →
    exec .encrypt s = .next { s with cres := 0xFFFFFFFF, result := .einval }

/-- Rules R252, R253, R255, R262: what a successful ENCRYPT leaves. With `n` the payload's length and `p` the padding
count, word pairs of the padded payload are enciphered from word 0, and an odd last word stays in plaintext. -/
def Obligations.EncryptEnciphersPaddedPayload : Prop :=
  ∀ (s : State) (n p : Nat), 0 < n → s.clen.toNat = n → p = 4 - n % 4 → n + p ≤ s.ccap.toNat →
    n + p ≤ 2048 →
    ∃ t, exec .encrypt s = .next t ∧ t.result = .ok ∧ t.cres.toNat = n + p ∧
      t = { s with cres := t.cres, result := .ok, mem := t.mem } ∧
      (∀ j, j % 2 = 0 → 4 * j + 8 ≤ n + p →
        (t.readWord (0x800 + 4 * j), t.readWord (0x800 + 4 * j + 4)) =
          xteaEncipher s.key
            (le32At (s.readBytes 0x800 n ++ fill p (BitVec.ofNat 8 p)) (4 * j),
             le32At (s.readBytes 0x800 n ++ fill p (BitVec.ofNat 8 p)) (4 * j + 4))) ∧
      ((n + p) / 4 % 2 = 1 →
        t.readWord (0x800 + (n + p - 4)) =
          le32At (s.readBytes 0x800 n ++ fill p (BitVec.ofNat 8 p)) (n + p - 4)) ∧
      ∀ a, (a < 0x800 ∨ 0x800 + (n + p) ≤ a) → t.readByte a = s.readByte a

/-- Rule R258: a malformed length is returned unchanged with EINVAL, and `CBUF` is not touched. -/
def Obligations.DecryptReturnsMalformedLength : Prop :=
  ∀ s : State, (s.clen.toInt ≤ 0 ∨ s.clen.toInt % 4 ≠ 0 ∨ 2048 < s.clen.toInt) →
    exec .decrypt s = .next { s with cres := s.clen, result := .einval }

/-- Rules R254, R257, R265: what a DECRYPT of a well-formed length leaves. The last decrypted byte is subtracted as the
padding count, unchecked. -/
def Obligations.DecryptDeciphersRegion : Prop :=
  ∀ (s : State) (n : Nat), 0 < n → n % 4 = 0 → n ≤ 2048 → s.clen.toNat = n →
    ∃ t, exec .decrypt s = .next t ∧ t.result = .ok ∧
      t.cres.toInt = (n : Int) - ((t.readByte (0x800 + (n - 1))).toNat : Int) ∧
      t = { s with cres := t.cres, result := .ok, mem := t.mem } ∧
      (∀ j, j % 2 = 0 → 4 * j + 8 ≤ n →
        (t.readWord (0x800 + 4 * j), t.readWord (0x800 + 4 * j + 4)) =
          xteaDecipher s.key (s.readWord (0x800 + 4 * j), s.readWord (0x800 + 4 * j + 4))) ∧
      (n / 4 % 2 = 1 → t.readWord (0x800 + (n - 4)) = s.readWord (0x800 + (n - 4))) ∧
      ∀ a, (a < 0x800 ∨ 0x800 + n ≤ a) → t.readByte a = s.readByte a

/-- Rule R261: for every block cipher that meets the inverse law, DECRYPT of what ENCRYPT returned restores the padded
plaintext and returns the payload's length. -/
def Obligations.CipherRoundTripsForEveryCipher : Prop :=
  ∀ e d : Key → Block → Block, (∀ k b, d k (e k b) = b) →
    ∀ (s : State) (n p : Nat), 0 < n → s.clen.toNat = n → p = 4 - n % 4 → n + p ≤ s.ccap.toNat →
      n + p ≤ 2048 →
      ∀ t u : State, encryptEffect e s = t → decryptEffect d { t with clen := t.cres } = u →
        t.cres.toNat = n + p ∧ u.cres = s.clen ∧ u.result = .ok ∧
          u.readBytes 0x800 (n + p) = s.readBytes 0x800 n ++ fill p (BitVec.ofNat 8 p)

/-- Rule R261 on this hardware's cipher, over the two commands. -/
def Obligations.CipherCommandsRoundTrip : Prop :=
  ∀ (s t u : State), 0 < s.clen.toInt → s.clen.toInt + (4 - s.clen.toInt % 4) ≤ s.ccap.toNat →
    s.clen.toInt + (4 - s.clen.toInt % 4) ≤ 2048 →
    exec .encrypt s = .next t → exec .decrypt { t with clen := t.cres } = .next u →
    u.cres = s.clen ∧ u.result = .ok ∧ u.readBytes 0x800 s.clen.toNat = s.readBytes 0x800 s.clen.toNat

/-- The cipher reads no session register (file 46, its opening): what ENCRYPT and DECRYPT leave in `CBUF`, `CRES` and
`RESULT` depends on the key, the length, the capacity and `CBUF` alone. -/
def Obligations.CipherReadsNoSession : Prop :=
  ∀ (i : Instr) (s t s' t' : State), i = .encrypt ∨ i = .decrypt → s.key = t.key → s.clen = t.clen →
    s.ccap = t.ccap → s.buffer .cbuf = t.buffer .cbuf → exec i s = .next s' → exec i t = .next t' →
    s'.cres = t'.cres ∧ s'.result = t'.result ∧ s'.buffer .cbuf = t'.buffer .cbuf

/-! ## The window and the bus -/

/-- Rule R83: an access to the window that is not 32 bits wide or not aligned gets a bus error, and nothing else
happens. -/
def Obligations.IllFormedAccessFaults : Prop :=
  ∀ (s : State) (a : Access) (rest : List Event), s.schedule = .access a :: rest → s.resetLine = false →
    Config.base ≤ a.addr → a.addr < Config.base + 4096 → (a.width ≠ 4 ∨ (a.addr - Config.base) % 4 ≠ 0) →
    step s = .fault (.busError a.addr)

/-- Rule R90: a write of `CMD` while `BUSY` = 0 is accepted. -/
def Obligations.CommandWriteIsAccepted : Prop :=
  ∀ (s : State) (w : Word) (rest : List Event), s.schedule = .access (memWrite 0x000 w) :: rest →
    s.resetLine = false → s.pending = none →
    step s = .next { s with cmd := w, pending := some w, schedule := rest, busData := none }

/-- Rule R92: while `BUSY` = 1 every write but one to `ESTAT` is dropped and sets `OVR`; a write to `ESTAT` can clear
`OVR` and does nothing else. -/
def Obligations.WriteWhileBusyIsDropped : Prop :=
  ∀ (s : State) (o : Nat) (v : Word) (rest : List Event), s.schedule = .access (memWrite o v) :: rest →
    s.resetLine = false → s.busy = true → o % 4 = 0 → o < 4096 →
    step s = .next { s with schedule := rest, busData := none
                            ovr := if o = 0x008 then (if v.getLsbD 1 then false else s.ovr) else true }

/-- Rules R35, R86 to R89: an aligned 32-bit write while `BUSY` = 0 is performed by `step`, and what it leaves at its own
offset: an RW location reads back the word (`CTRL` its two bits), a write of `ESTAT` clears `OVR` when bit 1 is set and
changes nothing else, an RO location keeps its word, a reserved offset reads 0. `CMD` has its own statement,
`CommandWriteIsAccepted`. -/
def Obligations.WriteReadsBackByAccess : Prop :=
  ∀ (s : State) (o : Nat) (v : Word), s.pending = none → o % 4 = 0 → o < 4096 →
    (∀ rest, s.schedule = .access (memWrite o v) :: rest → s.resetLine = false →
      step s = .next (hostWrite o v { s with schedule := rest, busData := none })) ∧
    (o = 0x008 → hostWrite o v s = { s with ovr := if v.getLsbD 1 then false else s.ovr }) ∧
    (o = 0x004 → windowWord (hostWrite o v s) o = v &&& 3) ∧
    ((0x110 ≤ o ∧ o < 0x170) ∨ (0x180 ≤ o ∧ o < 0x400) ∨ (0x700 ≤ o ∧ o < 0x718) ∨ 0x800 ≤ o →
      windowWord (hostWrite o v s) o = v) ∧
    ((0x00C ≤ o ∧ o < 0x034) ∨ (0x040 ≤ o ∧ o < 0x10C) ∨ (0x400 ≤ o ∧ o < 0x484) ∨ (0x500 ≤ o ∧ o < 0x700) ∨
        o = 0x718 →
      hostWrite o v s = s) ∧
    ((0x034 ≤ o ∧ o < 0x040) ∨ o = 0x10C ∨ (0x170 ≤ o ∧ o < 0x180) ∨ (0x484 ≤ o ∧ o < 0x500) ∨
        (0x71C ≤ o ∧ o < 0x800) →
      hostWrite o v s = s ∧ windowWord s o = 0)

/-- Rules R86, R94: a write while `BUSY` = 0 changes no location but its own, but that a write of `CMD` also raises `BUSY`
in `ESTAT`. -/
def Obligations.WriteChangesOneLocation : Prop :=
  ∀ (s : State) (o x : Nat) (v : Word), s.pending = none → o % 4 = 0 → x % 4 = 0 → o < 4096 → x < 4096 → x ≠ o →
    (o = 0x000 → x ≠ 0x008) → windowWord (hostWrite o v s) x = windowWord s x

/-- Rules R86, R93, R94: a read returns the word there, but for a location in the pending command's write set, where it
returns a fresh draw. A read changes no location. That the draw is of all 32 bits also where the location has reserved
bits (`RESULT`, `STATE`, `HEIGHT`) is the model's reading of rule R93 beside R88 (DEDUCED, the log's entry 6). -/
def Obligations.ReadReturnsWordOrDraw : Prop :=
  ∀ (s : State) (o : Nat) (rest : List Event), s.schedule = .access (memRead o) :: rest →
    s.resetLine = false → o % 4 = 0 → o < 4096 →
    ((∃ w, s.pending = some w ∧ locate o ∈ writeSet (commandOf w)) →
      step s = .next { s with schedule := rest, busData := some (Config.drawWord s.draws), draws := s.draws + 1 }) ∧
    ((∀ w, s.pending = some w → locate o ∉ writeSet (commandOf w)) →
      step s = .next { s with schedule := rest, busData := some (windowWord s o) })

/-- Rule R93, the write sets: a command changes no location outside its write set. -/
def Obligations.CommandStaysInWriteSet : Prop :=
  ∀ (i : Instr) (s t : State) (o : Nat), exec i s = .next t → o % 4 = 0 → o < 4096 →
    locate o ∉ writeSet (some i) → windowWord t o = windowWord s o

/-- Rule R84: the byte lanes are little-endian: the byte at offset `o + i` is bits [8i+7:8i] of the word at offset `o`,
and this word is `LE32` of the buffer there. The word at offset 0x0CC is the nonce, and `NONCE` reads the same (R39). -/
def Obligations.LanesAreLittleEndian : Prop :=
  ∀ s : State,
    (∀ (b : Buf) (k : Nat), k % 4 = 0 → k + 4 ≤ bufSize b →
      (∀ i, i < 4 → (windowWord s (bufBase b + k)).extractLsb' (8 * i) 8 = s.readByte (bufBase b + k + i)) ∧
        windowWord s (bufBase b + k) = le32At (s.buffer b) k) ∧
    windowWord s 0x0CC = s.nonce ∧ windowWord s 0x018 = s.nonce

/-- Rules R35, R36, R37, R88: what the status registers read: bit 0 of `ESTAT` is `BUSY`, bit 1 `OVR`, the others 0;
`RESULT` and `STATE` read the code of their table, code by code. -/
def Obligations.StatusRegistersRead : Prop :=
  ∀ s : State,
    (windowWord s 0x008).toNat = (if s.busy then 1 else 0) + (if s.ovr then 2 else 0) ∧
      (s.result = .ok → windowWord s 0x00C = 0) ∧ (s.result = .einval → windowWord s 0x00C = 1) ∧
      (s.result = .estate → windowWord s 0x00C = 2) ∧ (s.result = .eopc → windowWord s 0x00C = 3) ∧
      (s.status = .idle → windowWord s 0x010 = 0) ∧ (s.status = .ready → windowWord s 0x010 = 1) ∧
      (s.status = .mining → windowWord s 0x010 = 2) ∧ (s.status = .done → windowWord s 0x010 = 3) ∧
      (s.status = .fail → windowWord s 0x010 = 4) ∧ (s.status = .invalid → windowWord s 0x010 = 5)

/-- Rule R82 and the model's reading of it (the log's entry 7): an access elsewhere on the bus does nothing to the
MWE. -/
def Obligations.AccessElsewhereDoesNothing : Prop :=
  ∀ (s : State) (a : Access) (rest : List Event), s.schedule = .access a :: rest →
    (a.addr < Config.base ∨ Config.base + 4096 ≤ a.addr) →
    step s = .next { s with schedule := rest, busData := none }

/-- Rules R115, R116: every access a well-formed line of host notation makes is 32 bits wide and aligned, so no such
line gets a bus error; and every access of a line into or from a buffer lies in the buffer the line names. -/
def Obligations.HostLinesAreAligned : Prop :=
  ∀ l : HostLine, l.wellFormed = true →
    (∀ x ∈ hostLineActions l, (actionAccess x).wellFormed = true) ∧
    ∀ b : Buf, ((∃ k v, l = .wrBuf b k v) ∨ (∃ k bs, l = .wrBytes b k bs) ∨ ∃ n, l = .rdBytes b n) →
      ∀ x ∈ hostLineActions l, ∃ o, (actionAccess x).addr = Config.base + o ∧ locate o = .buf b

/-! ## Reset -/

/-- Rules R300, R301: the word at every offset when reset is released, whatever went before. The model's readings: the
values are taken at the release, an event of its own (DEDUCED, the log's entry 8); the UNSPECIFIED buffers hold a draw
fixed then (DEDUCED, entry 5), whose number and the count of draws are the model's own fields (DESIGN CHOICE, entry 4).
The state is `State.reset` but for these fields and the schedule. -/
def Obligations.ResetValues : Prop :=
  ∀ (s : State) (rest : List Event), s.schedule = .resetRelease :: rest → s.resetLine = true →
    ∃ t, step s = .next t ∧ t.pending = none ∧ t.ovr = false ∧ t.resetLine = false ∧ t.schedule = rest ∧
      t = { State.reset with schedule := rest, draws := t.draws, resetDraw := s.draws } ∧
      (∀ o, o % 4 = 0 → o < 4096 →
        locate o ∉ [.buf .argHeader, .buf .argCb, .buf .argPath, .buf .cbuf] →
        windowWord t o = if locate o = .buf .bestHash then 0xFFFFFFFF else 0) ∧
      ∀ b ∈ [Buf.argHeader, .argCb, .argPath, .cbuf], ∀ k, k < bufSize b →
        t.readByte (bufBase b + k) = Config.drawByte s.draws (bufBase b + k)

/-- Rule R303: a BEGIN of an empty fragment leaves every session location at its reset value, but for `STATE`, which is
READY and not IDLE. -/
def Obligations.ResetEqualsEmptyBegin : Prop :=
  ∀ s : State, s.argCbLen = 0 → ∃ t, exec .begin s = .next t ∧ t.status = .ready ∧ State.reset.status = .idle ∧
    ∀ o, o % 4 = 0 →
      ((0x014 ≤ o ∧ o < 0x034) ∨ (0x040 ≤ o ∧ o < 0x0D0) ∨ (0x400 ≤ o ∧ o < 0x484) ∨ (0x500 ≤ o ∧ o < 0x700)) →
      windowWord t o = windowWord State.reset o

/-- Rule R300: while reset is asserted no access is performed. That this holds of an ill-formed one too, which then gets
no bus error, and that the engine does nothing, is the model's reading (DEDUCED, the log's entry 8). -/
def Obligations.NothingHappensInReset : Prop :=
  ∀ (s : State) (e : Event) (rest : List Event), s.schedule = e :: rest → s.resetLine = true →
    e = .engine ∨ (∃ a, e = .access a) →
    ∃ d, step s = .next { s with schedule := rest, busData := d }

/-! ## Invariants -/

/-- The reset state meets the invariants. -/
def Obligations.ResetMeetsInvariant : Prop := State.reset.Inv

/-- Every step keeps the invariants: rule R66's bounds and decoded target, the canonical memory, `CTRL`'s reserved bits
(R34), `CMD`'s read-back (R33), the best hash and its nonce (R42, R223, R227), the exhausted nonce (R224), the sign of
the nonces tried (R242) and the zero tails of `COINBASE` and `PATH` (R49, R50). -/
def Obligations.StepKeepsInvariant : Prop :=
  ∀ s t : State, s.Inv → step s = .next t → t.Inv

/-- Rule R67: how `STATE` changes, command by command; an undefined word and a host access leave it. -/
def Obligations.StateTransitions : Prop :=
  (∀ s t : State, exec .begin s = .next t →
    t.status = if s.argCbLen.toNat ≤ Config.cbCap then .ready else s.status) ∧
  (∀ s t : State, exec .init s = .next t →
    t.status =
      if s.status = .ready ∨ s.status = .invalid then
        (if s.argHeight.toNat ≤ 0xFFFFFF ∧ s.argPathLen.toNat ≤ 16 ∧
            4 ≤ compactExponent (s.readWord (0x120 + 72)) ∧ compactExponent (s.readWord (0x120 + 72)) ≤ 32
          then .mining else .invalid)
      else s.status) ∧
  (∀ s t : State, exec .mine s = .next t →
    (s.status = .mining → t.status = .mining ∨ t.status = .done ∨ t.status = .fail) ∧
      (s.status ≠ .mining → t.status = s.status)) ∧
  (∀ s t : State, exec .endSession s = .next t → t.status = .idle) ∧
  (∀ (i : Instr) (s t : State), i = .report ∨ i = .encrypt ∨ i = .decrypt → exec i s = .next t →
    t.status = s.status) ∧
  (∀ (s t : State) (w : Word), (∀ i : Instr, w ≠ encode i) → engineStep w s = .next t → t.status = s.status) ∧
  ∀ (s t : State) (a : Access), hostAccess a s = .next t → t.status = s.status

/-! ## Host notation -/

/-- Rules R35, R97, R115, R116, R307. The line `clrovr` is one write of `ESTAT`, which clears `OVR` and changes nothing
else, whether or not a command is pending. A whole run of `cmd X`, `cmd.raw w` or `mine n` that starts with `BUSY` = 0
ends with `BUSY` read as 0 and with the complete effect of the command (`engineStep` on the word, after the line's
writes), wherever the engine has its turn and however many reads the `poll` makes; and every number of busy reads is
such a run. No reset comes in between. What a run is, an order of events with no other master's access in it, is the
model's form (`isRun`, DESIGN CHOICE, the log's entry 14). -/
def Obligations.PseudoLinesTakeEffect : Prop :=
  (∀ (s : State) (rest : List Event),
    s.schedule = (hostLineActions .clrOvr).map (fun x => .access (actionAccess x)) ++ rest → s.resetLine = false →
    step s = .next { s with schedule := rest, busData := none, ovr := false }) ∧
  ∀ (s : State) (l : HostLine) (w c : Word), s.resetLine = false → s.pending = none →
    (((l = .cmdRaw w ∨ ∃ i, l = .cmd i ∧ w = encode i) ∧ c = s.argCycles) ∨ (l = .mine c ∧ w = encode .mine)) →
    (∀ events : List Event, (∀ e ∈ events, e = .engine ∨ ∃ a, e = .access a) →
      isRun events (hostLineActions l) s = true →
      ∃ t u v : State, core.run events.length { s with schedule := events } = .next t ∧
        u = { s with argCycles := c, cmd := w, pending := some w, busData := u.busData, schedule := u.schedule } ∧
        engineStep w u = .next v ∧ t = { v with busData := t.busData, schedule := [] } ∧ t.busy = false ∧
        ∃ x, t.busData = some x ∧ x.getLsbD 0 = false) ∧
    ∀ k : Nat, isRun ((hostLineActions l).dropLast.map (fun x => .access (actionAccess x)) ++
      List.replicate k (.access (memRead 0x008)) ++ [.engine, .access (memRead 0x008)]) (hostLineActions l) s = true
end

