-- ==== Sys2Proof/Laws/Bytes.lean ====
section
/-! SUPPORT. The integer views of byte sequences: lengths, round trips and bounds. -/

namespace Sys2Proof.Machine

@[simp] theorem toLE32_length (v : Word) : (toLE32 v).length = 4 := rfl

@[simp] theorem toBE32_length (v : Word) : (toBE32 v).length = 4 := rfl

@[simp] theorem toBE64_length (n : Nat) : (toBE64 n).length = 8 := by simp [toBE64]

@[simp] theorem fill_length (k : Nat) (b : Byte) : (fill k b).length = k := by simp [fill]

theorem fill_getD (k : Nat) (b : Byte) (i : Nat) (h : i < k) : (fill k b).getD i 0 = b := by
  simp [fill, List.getD_eq_getElem?_getD, h]

theorem fill_zero_getD (k i : Nat) : (fill k 0).getD i 0 = 0 := by
  simp only [fill, List.getD_eq_getElem?_getD, List.getElem?_replicate]
  split <;> rfl

/-- Reading back the four bytes of a word gives the word. -/
theorem le32_toLE32 (v : Word) :
    le32 (v.extractLsb' 0 8) (v.extractLsb' 8 8) (v.extractLsb' 16 8) (v.extractLsb' 24 8) = v := by
  apply BitVec.eq_of_toNat_eq
  simp only [le32, BitVec.extractLsb'_toNat, BitVec.toNat_ofNat, Nat.shiftRight_eq_div_pow]
  have := v.isLt
  omega

/-- The four bytes of the word made of four bytes. -/
theorem toLE32_le32 (b0 b1 b2 b3 : Byte) : toLE32 (le32 b0 b1 b2 b3) = [b0, b1, b2, b3] := by
  have h0 := b0.isLt
  have h1 := b1.isLt
  have h2 := b2.isLt
  have h3 := b3.isLt
  simp only [toLE32, le32, List.cons.injEq, and_true]
  refine ⟨?_, ?_, ?_, ?_⟩ <;>
  · apply BitVec.eq_of_toNat_eq
    simp only [BitVec.extractLsb'_toNat, BitVec.toNat_ofNat, Nat.shiftRight_eq_div_pow]
    omega

theorem le32At_toLE32 (v : Word) : le32At (toLE32 v) 0 = v := by
  simpa [le32At, toLE32] using le32_toLE32 v

/-- `toLE32` loses nothing. -/
theorem toLE32_injective {v w : Word} (h : toLE32 v = toLE32 w) : v = w := by
  rw [← le32At_toLE32 v, h, le32At_toLE32]

@[simp] theorem wordsToBytes_length (ws : List Word) : (wordsToBytes ws).length = 4 * ws.length := by
  induction ws with
  | nil => rfl
  | cons w ws ih =>
    simp only [wordsToBytes, List.flatMap_cons, List.length_append, toLE32_length, List.length_cons] at ih ⊢
    omega

/-- Words written as bytes read back as the words (rule R252). -/
@[simp] theorem bytesToWords_wordsToBytes (ws : List Word) : bytesToWords (wordsToBytes ws) = ws := by
  induction ws with
  | nil => rfl
  | cons w ws ih =>
    simp only [wordsToBytes, List.flatMap_cons] at ih ⊢
    simp only [toLE32, List.cons_append, List.nil_append, bytesToWords, le32_toLE32]
    exact congrArg _ ih

theorem bytesToWords_length (bs : List Byte) : (bytesToWords bs).length = bs.length / 4 := by
  induction bs using bytesToWords.induct with
  | case1 b0 b1 b2 b3 rest ih => simp only [bytesToWords, List.length_cons, ih]; omega
  | case2 bs h =>
    rw [bytesToWords]
    · match bs, h with
      | [], _ => simp
      | [_], _ => simp
      | [_, _], _ => simp
      | [_, _, _], _ => simp
      | a :: b :: c :: d :: r, h => exact absurd rfl (h a b c d r)
    · exact h

/-- Bytes in whole words read as words and written back are the bytes (rule R252). -/
theorem wordsToBytes_bytesToWords (bs : List Byte) (h : bs.length % 4 = 0) :
    wordsToBytes (bytesToWords bs) = bs := by
  induction bs using bytesToWords.induct with
  | case1 b0 b1 b2 b3 rest ih =>
    have hr : rest.length % 4 = 0 := by simp only [List.length_cons] at h; omega
    have := ih hr
    simp only [wordsToBytes] at this ⊢
    simp [bytesToWords, toLE32_le32, this]
  | case2 bs hb =>
    match bs, hb, h with
    | [], _, _ => rfl
    | [_], _, h => simp at h
    | [_, _], _, h => simp at h
    | [_, _, _], _, h => simp at h
    | a :: b :: c :: d :: r, hb, _ => exact absurd rfl (hb a b c d r)

/-- `BE256` with one more leading byte, as positional weights (rule R10). -/
theorem be256_foldl (bs : List Byte) (acc : Nat) :
    bs.foldl (fun acc b => 256 * acc + b.toNat) acc = acc * 256 ^ bs.length + be256 bs := by
  induction bs generalizing acc with
  | nil => simp [be256]
  | cons b bs ih =>
    simp only [be256, List.foldl_cons, List.length_cons] at ih ⊢
    rw [ih, ih (256 * 0 + b.toNat)]
    ring

theorem be256_cons (b : Byte) (bs : List Byte) : be256 (b :: bs) = b.toNat * 256 ^ bs.length + be256 bs := by
  have := be256_foldl bs (256 * 0 + b.toNat)
  simpa [be256] using this

theorem be256_append (xs ys : List Byte) : be256 (xs ++ ys) = be256 xs * 256 ^ ys.length + be256 ys := by
  have := be256_foldl ys (be256 xs)
  simpa [be256, List.foldl_append] using this

theorem be256_lt (bs : List Byte) : be256 bs < 256 ^ bs.length := by
  induction bs with
  | nil => simp [be256]
  | cons b bs ih =>
    rw [be256_cons, List.length_cons, Nat.pow_succ]
    have hb : b.toNat + 1 ≤ 256 := b.isLt
    calc b.toNat * 256 ^ bs.length + be256 bs < (b.toNat + 1) * 256 ^ bs.length := by
          rw [Nat.add_mul, Nat.one_mul]; omega
      _ ≤ 256 * 256 ^ bs.length := Nat.mul_le_mul_right _ hb
      _ = 256 ^ bs.length * 256 := Nat.mul_comm _ _

theorem be256_fill_zero (k : Nat) : be256 (fill k 0) = 0 := by
  induction k with
  | zero => rfl
  | succ k ih =>
    have : fill (k + 1) 0 = (0 : Byte) :: fill k 0 := List.replicate_succ
    rw [this, be256_cons, ih]; simp

theorem be256_fill_ones (k : Nat) : be256 (fill k 0xFF) = 256 ^ k - 1 := by
  induction k with
  | zero => rfl
  | succ k ih =>
    have : fill (k + 1) 0xFF = (0xFF : Byte) :: fill k 0xFF := List.replicate_succ
    have hp : 0 < 256 ^ k := Nat.pow_pos (by decide)
    rw [this, be256_cons, ih, fill_length, Nat.pow_succ]
    have : (0xFF : Byte).toNat = 255 := rfl
    rw [this]; omega

theorem sat32_toNat (n : Nat) : (sat32 n).toNat = min n 0xFFFFFFFF := by
  simp only [sat32, BitVec.toNat_ofNat]; omega

end Sys2Proof.Machine
end

