-- ==== Sys2Proof/Laws/Memory.lean ====
section
/-! SUPPORT. Memory: read after write, and that every store keeps the canonical form, in which equal contents are
equal data. -/

namespace Sys2Proof.Machine

theorem cellsOf_addr {a : Nat} {bs : List Byte} {c : Host.Cell} (h : c ∈ cellsOf a bs) :
    a ≤ c.1 ∧ c.1 < a + bs.length := by
  induction bs generalizing a with
  | nil => simp [cellsOf] at h
  | cons b bs ih =>
    rw [cellsOf] at h
    split at h
    · have := ih h; simp only [List.length_cons]; omega
    · rcases List.mem_cons.mp h with rfl | h
      · simp
      · have := ih h; simp only [List.length_cons]; omega

theorem cellsOf_unlisted {a : Nat} {bs : List Byte} {c : Host.Cell} (h : c ∈ cellsOf a bs) :
    unlistedByte c.1 ≠ some c.2 := by
  induction bs generalizing a with
  | nil => simp [cellsOf] at h
  | cons b bs ih =>
    rw [cellsOf] at h
    split at h
    · exact ih h
    · rename_i hb
      rcases List.mem_cons.mp h with rfl | h
      · exact hb
      · exact ih h

theorem cellsOf_pairwise (a : Nat) (bs : List Byte) : (cellsOf a bs).Pairwise (fun c d => c.1 < d.1) := by
  induction bs generalizing a with
  | nil => exact List.Pairwise.nil
  | cons b bs ih =>
    rw [cellsOf]
    split
    · exact ih _
    · exact List.Pairwise.cons (fun d hd => by have := cellsOf_addr hd; omega) (ih _)

theorem cellsOf_find?_none {a : Nat} {bs : List Byte} {x : Nat} (h : x < a ∨ a + bs.length ≤ x) :
    (cellsOf a bs).find? (fun c => c.1 == x) = none := by
  rw [List.find?_eq_none]
  intro c hc hcx
  have := cellsOf_addr hc
  simp at hcx
  omega

theorem cellsOf_get (a : Nat) (bs : List Byte) (x : Nat) (h1 : a ≤ x) (h2 : x < a + bs.length) :
    Memory.get (cellsOf a bs) x = some (bs.getD (x - a) 0) := by
  induction bs generalizing a with
  | nil => simp at h2; omega
  | cons b bs ih =>
    rcases Nat.eq_or_lt_of_le h1 with rfl | hlt
    · have hn := cellsOf_find?_none (a := a + 1) (bs := bs) (x := a) (by omega)
      by_cases hb : unlistedByte a = some b <;> simp [cellsOf, hb, Memory.get, hn]
    · have e : x - a = (x - (a + 1)) + 1 := by omega
      simp only [List.length_cons] at h2
      have h := ih (a + 1) hlt (by omega)
      have hax : (a == x) = false := by simp; omega
      rw [e, List.getD_cons_succ, ← h]
      by_cases hb : unlistedByte a = some b
      · simp [cellsOf, hb]
      · simp [cellsOf, hb, Memory.get, hax]

theorem find?_filter_none {m : Memory} {p : Host.Cell → Bool} {x : Nat} (h : ∀ c : Host.Cell, p c = true → c.1 ≠ x) :
    (m.filter p).find? (fun c => c.1 == x) = none := by
  rw [List.find?_eq_none]
  intro c hc hcx
  exact h c (List.mem_filter.mp hc).2 (by simpa using hcx)

theorem find?_filter_of_imp {m : Memory} {p : Host.Cell → Bool} {x : Nat} (h : ∀ c : Host.Cell, c.1 = x → p c = true) :
    (m.filter p).find? (fun c => c.1 == x) = m.find? (fun c => c.1 == x) := by
  induction m with
  | nil => rfl
  | cons c m ih =>
    by_cases hc : c.1 = x
    · simp [h c hc, hc]
    · by_cases hp : p c = true
      · simp [hp, hc, ih]
      · simp [hp, hc, ih]

/-- Read after write, at the stored bytes and at every other offset. -/
theorem Memory.get_store (m : Memory) (a : Nat) (bs : List Byte) (x : Nat) :
    (m.store a bs).get x = if a ≤ x ∧ x < a + bs.length then some (bs.getD (x - a) 0) else m.get x := by
  have hlow (h : a ≤ x) := find?_filter_none (m := m) (p := fun c => decide (c.1 < a)) (x := x)
    (by intro c hc; simp at hc; omega)
  have hhigh (h : x < a + bs.length) := find?_filter_none (m := m)
    (p := fun c => decide (a + bs.length ≤ c.1)) (x := x) (by intro c hc; simp at hc; omega)
  by_cases h1 : a ≤ x
  · by_cases h2 : x < a + bs.length
    · have h := cellsOf_get a bs x h1 h2
      unfold Memory.get at h
      unfold Memory.get Memory.store
      rw [List.find?_append, List.find?_append, hlow h1, hhigh h2]
      rw [if_pos ⟨h1, h2⟩, Option.none_or, Option.or_none]
      exact h
    · unfold Memory.get Memory.store
      rw [List.find?_append, List.find?_append, hlow h1, cellsOf_find?_none (by omega),
        find?_filter_of_imp (p := fun c => decide (a + bs.length ≤ c.1)) (by intro c hc; simp; omega),
        if_neg (by omega), Option.none_or, Option.none_or]
  · unfold Memory.get Memory.store
    rw [List.find?_append, List.find?_append, hhigh (by omega), cellsOf_find?_none (by omega),
      find?_filter_of_imp (m := m) (p := fun c => decide (c.1 < a)) (by intro c hc; simp; omega),
      if_neg (by omega), Option.or_none, Option.or_none]

theorem Memory.wf_iff (m : Memory) :
    m.wf = true ↔ m.Pairwise (fun c d => c.1 < d.1) ∧ ∀ c ∈ m, isBufferByte c.1 = true ∧ unlistedByte c.1 ≠ some c.2 := by
  simp [Memory.wf, cellCanonical, List.all_eq_true]

/-- A store into a buffer keeps the canonical form. -/
theorem Memory.wf_store {m : Memory} (hm : m.wf = true) (a : Nat) (bs : List Byte)
    (hb : ∀ x, a ≤ x → x < a + bs.length → isBufferByte x = true) : (m.store a bs).wf = true := by
  rw [Memory.wf_iff] at hm ⊢
  obtain ⟨hp, hc⟩ := hm
  constructor
  · unfold Memory.store
    rw [List.append_assoc, List.pairwise_append, List.pairwise_append]
    refine ⟨hp.filter _, ⟨cellsOf_pairwise a bs, hp.filter _, ?_⟩, ?_⟩
    · intro c hcc d hd
      have := cellsOf_addr hcc
      have := (List.mem_filter.mp hd).2
      simp at this
      omega
    · intro c hcc d hd
      have h1 := (List.mem_filter.mp hcc).2
      simp at h1
      rcases List.mem_append.mp hd with hd | hd
      · have := cellsOf_addr hd; omega
      · have := (List.mem_filter.mp hd).2
        simp at this
        omega
  · intro c hcm
    unfold Memory.store at hcm
    rcases List.mem_append.mp hcm with h | h
    · rcases List.mem_append.mp h with h | h
      · exact hc c (List.mem_filter.mp h).1
      · have := cellsOf_addr h
        exact ⟨hb _ this.1 this.2, cellsOf_unlisted h⟩
    · exact hc c (List.mem_filter.mp h).1

/-- In the canonical form equal contents are equal data. -/
theorem Memory.ext_of_wf {m n : Memory} (hm : m.wf = true) (hn : n.wf = true) (h : ∀ a, m.get a = n.get a) :
    m = n := by
  rw [Memory.wf_iff] at hm hn
  obtain ⟨hmp, hmc⟩ := hm
  obtain ⟨hnp, hnc⟩ := hn
  have key : ∀ {m n : Memory}, (∀ c ∈ m, unlistedByte c.1 ≠ some c.2) → m.Pairwise (fun c d => c.1 < d.1) →
      (∀ a, m.get a = n.get a) → ∀ c ∈ m, c ∈ n := by
    intro m n hmc hmp h c hc
    have hf : m.get c.1 = some c.2 := by
      have : m.find? (fun d => d.1 == c.1) = some c := by
        rw [List.find?_eq_some_iff_append]
        obtain ⟨as, bs, rfl⟩ := List.append_of_mem hc
        refine ⟨by simp, as, bs, rfl, ?_⟩
        intro d hd
        have := (List.pairwise_append.mp hmp).2.2 d hd c (by simp)
        simp; omega
      simp [Memory.get, this]
    rw [h] at hf
    unfold Memory.get at hf
    split at hf
    · rename_i d hd
      have h1 := List.mem_of_find?_eq_some hd
      have h2 := List.find?_some hd
      have : d = c := Prod.ext (by simpa using h2) (by simpa using hf)
      exact this ▸ h1
    · exact absurd hf (hmc c hc)
  have h1 := key (fun c hc => (hmc c hc).2) hmp h
  have h2 := key (fun c hc => (hnc c hc).2) hnp (fun a => (h a).symm)
  refine List.Perm.eq_of_pairwise (le := fun c d : Host.Cell => c.1 < d.1) ?_ hmp hnp ?_
  · intro c d _ _ hcd hdc; omega
  · refine (List.perm_ext_iff_of_nodup ?_ ?_).mpr (fun c => ⟨h1 c, h2 c⟩)
    · exact hmp.imp (fun {c d} hcd e => by subst e; omega)
    · exact hnp.imp (fun {c d} hcd e => by subst e; omega)

theorem Memory.wf_nil : Memory.wf [] = true := rfl

theorem isBufferByte_of_buf (b : Buf) (x : Nat) (h1 : bufBase b ≤ x) (h2 : x < bufBase b + bufSize b) :
    isBufferByte x = true := by
  cases b <;> simp only [bufBase, bufSize] at h1 h2 <;> simp [isBufferByte] <;> omega

/-- A write inside a buffer keeps the canonical form. -/
theorem Memory.wf_store_buf {m : Memory} (hm : m.wf = true) (b : Buf) (k : Nat) (bs : List Byte)
    (h : k + bs.length ≤ bufSize b) : (m.store (bufBase b + k) bs).wf = true :=
  Memory.wf_store hm _ _ (fun x h1 h2 => isBufferByte_of_buf b x (by omega) (by omega))

/-- Two buffers share no offset (rule R87). -/
theorem buf_disjoint {b c : Buf} (h : b ≠ c) :
    bufBase b + bufSize b ≤ bufBase c ∨ bufBase c + bufSize c ≤ bufBase b := by
  cases b <;> cases c <;> first | (exact absurd rfl h) | (simp [bufBase, bufSize])

/-- What each buffer holds at reset (rule R301). -/
theorem unlistedByte_bestHash (k : Nat) (h : k < 32) : unlistedByte (bufBase .bestHash + k) = some 0xFF := by
  have hb : bufBase .bestHash = 0x040 := rfl
  rw [hb, unlistedByte, if_pos (by omega)]

theorem unlistedByte_unspecified {b : Buf} (hb : b ∈ [Buf.argHeader, .argCb, .argPath, .cbuf]) (k : Nat)
    (h : k < bufSize b) : unlistedByte (bufBase b + k) = none := by
  have h1 : ∀ a, ¬(0x040 ≤ a ∧ a < 0x060) →
      (0x120 ≤ a ∧ a < 0x170) ∨ (0x180 ≤ a ∧ a < 0x400) ∨ (0x800 ≤ a ∧ a < 0x1000) → unlistedByte a = none :=
    fun a h1 h2 => by rw [unlistedByte, if_neg h1, if_pos h2]
  cases b <;> simp at hb <;> simp only [bufSize] at h <;> exact h1 _ (by simp only [bufBase]; omega)
    (by simp only [bufBase]; omega)

theorem unlistedByte_zero {b : Buf} (hb : b ∈ [Buf.target, .header, .report, .coinbase, .path]) (k : Nat)
    (h : k < bufSize b) : unlistedByte (bufBase b + k) = some 0 := by
  have h1 : ∀ a, ¬(0x040 ≤ a ∧ a < 0x060) →
      ¬((0x120 ≤ a ∧ a < 0x170) ∨ (0x180 ≤ a ∧ a < 0x400) ∨ (0x800 ≤ a ∧ a < 0x1000)) → unlistedByte a = some 0 :=
    fun a h1 h2 => by rw [unlistedByte, if_neg h1, if_neg h2]
  cases b <;> simp at hb <;> simp only [bufSize] at h <;> exact h1 _ (by simp only [bufBase]; omega)
    (by simp only [bufBase]; omega)

end Sys2Proof.Machine
end

