-- ==== Sys2Proof/Laws/State.lean ====
section
/-! SUPPORT. One lemma per field per named update of State, true by rfl, and one per view of the state for each update
that leaves memory alone; then what the one memory update does to each view. The proofs are written `(rfl)`: simp then
cites the lemma and does not ask the kernel to compare whole states, which can start to compute a hash. -/

namespace Sys2Proof.Machine

/-! `writeBuf` -/

@[simp] theorem writeBuf_cmd (s : State) (b : Buf) (k : Nat) (bs : List Byte) : (s.writeBuf b k bs).cmd = s.cmd := (rfl)
@[simp] theorem writeBuf_ctrl (s : State) (b : Buf) (k : Nat) (bs : List Byte) : (s.writeBuf b k bs).ctrl = s.ctrl := (rfl)
@[simp] theorem writeBuf_pending (s : State) (b : Buf) (k : Nat) (bs : List Byte) : (s.writeBuf b k bs).pending = s.pending := (rfl)
@[simp] theorem writeBuf_ovr (s : State) (b : Buf) (k : Nat) (bs : List Byte) : (s.writeBuf b k bs).ovr = s.ovr := (rfl)
@[simp] theorem writeBuf_result (s : State) (b : Buf) (k : Nat) (bs : List Byte) : (s.writeBuf b k bs).result = s.result := (rfl)
@[simp] theorem writeBuf_status (s : State) (b : Buf) (k : Nat) (bs : List Byte) : (s.writeBuf b k bs).status = s.status := (rfl)
@[simp] theorem writeBuf_height (s : State) (b : Buf) (k : Nat) (bs : List Byte) : (s.writeBuf b k bs).height = s.height := (rfl)
@[simp] theorem writeBuf_nonce2 (s : State) (b : Buf) (k : Nat) (bs : List Byte) : (s.writeBuf b k bs).nonce2 = s.nonce2 := (rfl)
@[simp] theorem writeBuf_startNonce (s : State) (b : Buf) (k : Nat) (bs : List Byte) : (s.writeBuf b k bs).startNonce = s.startNonce := (rfl)
@[simp] theorem writeBuf_bestNonce (s : State) (b : Buf) (k : Nat) (bs : List Byte) : (s.writeBuf b k bs).bestNonce = s.bestNonce := (rfl)
@[simp] theorem writeBuf_hashTime (s : State) (b : Buf) (k : Nat) (bs : List Byte) : (s.writeBuf b k bs).hashTime = s.hashTime := (rfl)
@[simp] theorem writeBuf_cbLen (s : State) (b : Buf) (k : Nat) (bs : List Byte) : (s.writeBuf b k bs).cbLen = s.cbLen := (rfl)
@[simp] theorem writeBuf_pathLen (s : State) (b : Buf) (k : Nat) (bs : List Byte) : (s.writeBuf b k bs).pathLen = s.pathLen := (rfl)
@[simp] theorem writeBuf_argCbLen (s : State) (b : Buf) (k : Nat) (bs : List Byte) : (s.writeBuf b k bs).argCbLen = s.argCbLen := (rfl)
@[simp] theorem writeBuf_argHeight (s : State) (b : Buf) (k : Nat) (bs : List Byte) : (s.writeBuf b k bs).argHeight = s.argHeight := (rfl)
@[simp] theorem writeBuf_argPathLen (s : State) (b : Buf) (k : Nat) (bs : List Byte) : (s.writeBuf b k bs).argPathLen = s.argPathLen := (rfl)
@[simp] theorem writeBuf_argCycles (s : State) (b : Buf) (k : Nat) (bs : List Byte) : (s.writeBuf b k bs).argCycles = s.argCycles := (rfl)
@[simp] theorem writeBuf_key0 (s : State) (b : Buf) (k : Nat) (bs : List Byte) : (s.writeBuf b k bs).key0 = s.key0 := (rfl)
@[simp] theorem writeBuf_key1 (s : State) (b : Buf) (k : Nat) (bs : List Byte) : (s.writeBuf b k bs).key1 = s.key1 := (rfl)
@[simp] theorem writeBuf_key2 (s : State) (b : Buf) (k : Nat) (bs : List Byte) : (s.writeBuf b k bs).key2 = s.key2 := (rfl)
@[simp] theorem writeBuf_key3 (s : State) (b : Buf) (k : Nat) (bs : List Byte) : (s.writeBuf b k bs).key3 = s.key3 := (rfl)
@[simp] theorem writeBuf_clen (s : State) (b : Buf) (k : Nat) (bs : List Byte) : (s.writeBuf b k bs).clen = s.clen := (rfl)
@[simp] theorem writeBuf_ccap (s : State) (b : Buf) (k : Nat) (bs : List Byte) : (s.writeBuf b k bs).ccap = s.ccap := (rfl)
@[simp] theorem writeBuf_cres (s : State) (b : Buf) (k : Nat) (bs : List Byte) : (s.writeBuf b k bs).cres = s.cres := (rfl)
@[simp] theorem writeBuf_mem (s : State) (b : Buf) (k : Nat) (bs : List Byte) : (s.writeBuf b k bs).mem = s.mem.store (bufBase b + k) bs := (rfl)
@[simp] theorem writeBuf_resetLine (s : State) (b : Buf) (k : Nat) (bs : List Byte) : (s.writeBuf b k bs).resetLine = s.resetLine := (rfl)
@[simp] theorem writeBuf_schedule (s : State) (b : Buf) (k : Nat) (bs : List Byte) : (s.writeBuf b k bs).schedule = s.schedule := (rfl)
@[simp] theorem writeBuf_busData (s : State) (b : Buf) (k : Nat) (bs : List Byte) : (s.writeBuf b k bs).busData = s.busData := (rfl)
@[simp] theorem writeBuf_draws (s : State) (b : Buf) (k : Nat) (bs : List Byte) : (s.writeBuf b k bs).draws = s.draws := (rfl)
@[simp] theorem writeBuf_resetDraw (s : State) (b : Buf) (k : Nat) (bs : List Byte) : (s.writeBuf b k bs).resetDraw = s.resetDraw := (rfl)
@[simp] theorem writeBuf_key (s : State) (b : Buf) (k : Nat) (bs : List Byte) : (s.writeBuf b k bs).key = s.key := (rfl)
@[simp] theorem writeBuf_xpol (s : State) (b : Buf) (k : Nat) (bs : List Byte) : (s.writeBuf b k bs).xpol = s.xpol := (rfl)
@[simp] theorem writeBuf_mroot (s : State) (b : Buf) (k : Nat) (bs : List Byte) : (s.writeBuf b k bs).mroot = s.mroot := (rfl)

/-! `setNonce` -/

@[simp] theorem setNonce_cmd (s : State) (v : Word) : (s.setNonce v).cmd = s.cmd := (rfl)
@[simp] theorem setNonce_ctrl (s : State) (v : Word) : (s.setNonce v).ctrl = s.ctrl := (rfl)
@[simp] theorem setNonce_pending (s : State) (v : Word) : (s.setNonce v).pending = s.pending := (rfl)
@[simp] theorem setNonce_ovr (s : State) (v : Word) : (s.setNonce v).ovr = s.ovr := (rfl)
@[simp] theorem setNonce_result (s : State) (v : Word) : (s.setNonce v).result = s.result := (rfl)
@[simp] theorem setNonce_status (s : State) (v : Word) : (s.setNonce v).status = s.status := (rfl)
@[simp] theorem setNonce_height (s : State) (v : Word) : (s.setNonce v).height = s.height := (rfl)
@[simp] theorem setNonce_nonce2 (s : State) (v : Word) : (s.setNonce v).nonce2 = s.nonce2 := (rfl)
@[simp] theorem setNonce_startNonce (s : State) (v : Word) : (s.setNonce v).startNonce = s.startNonce := (rfl)
@[simp] theorem setNonce_bestNonce (s : State) (v : Word) : (s.setNonce v).bestNonce = s.bestNonce := (rfl)
@[simp] theorem setNonce_hashTime (s : State) (v : Word) : (s.setNonce v).hashTime = s.hashTime := (rfl)
@[simp] theorem setNonce_cbLen (s : State) (v : Word) : (s.setNonce v).cbLen = s.cbLen := (rfl)
@[simp] theorem setNonce_pathLen (s : State) (v : Word) : (s.setNonce v).pathLen = s.pathLen := (rfl)
@[simp] theorem setNonce_argCbLen (s : State) (v : Word) : (s.setNonce v).argCbLen = s.argCbLen := (rfl)
@[simp] theorem setNonce_argHeight (s : State) (v : Word) : (s.setNonce v).argHeight = s.argHeight := (rfl)
@[simp] theorem setNonce_argPathLen (s : State) (v : Word) : (s.setNonce v).argPathLen = s.argPathLen := (rfl)
@[simp] theorem setNonce_argCycles (s : State) (v : Word) : (s.setNonce v).argCycles = s.argCycles := (rfl)
@[simp] theorem setNonce_key0 (s : State) (v : Word) : (s.setNonce v).key0 = s.key0 := (rfl)
@[simp] theorem setNonce_key1 (s : State) (v : Word) : (s.setNonce v).key1 = s.key1 := (rfl)
@[simp] theorem setNonce_key2 (s : State) (v : Word) : (s.setNonce v).key2 = s.key2 := (rfl)
@[simp] theorem setNonce_key3 (s : State) (v : Word) : (s.setNonce v).key3 = s.key3 := (rfl)
@[simp] theorem setNonce_clen (s : State) (v : Word) : (s.setNonce v).clen = s.clen := (rfl)
@[simp] theorem setNonce_ccap (s : State) (v : Word) : (s.setNonce v).ccap = s.ccap := (rfl)
@[simp] theorem setNonce_cres (s : State) (v : Word) : (s.setNonce v).cres = s.cres := (rfl)
@[simp] theorem setNonce_mem (s : State) (v : Word) : (s.setNonce v).mem = s.mem.store nonceOffset (toLE32 v) := (rfl)
@[simp] theorem setNonce_resetLine (s : State) (v : Word) : (s.setNonce v).resetLine = s.resetLine := (rfl)
@[simp] theorem setNonce_schedule (s : State) (v : Word) : (s.setNonce v).schedule = s.schedule := (rfl)
@[simp] theorem setNonce_busData (s : State) (v : Word) : (s.setNonce v).busData = s.busData := (rfl)
@[simp] theorem setNonce_draws (s : State) (v : Word) : (s.setNonce v).draws = s.draws := (rfl)
@[simp] theorem setNonce_resetDraw (s : State) (v : Word) : (s.setNonce v).resetDraw = s.resetDraw := (rfl)
@[simp] theorem setNonce_key (s : State) (v : Word) : (s.setNonce v).key = s.key := (rfl)
@[simp] theorem setNonce_xpol (s : State) (v : Word) : (s.setNonce v).xpol = s.xpol := (rfl)
@[simp] theorem setNonce_mroot (s : State) (v : Word) : (s.setNonce v).mroot = s.mroot := (rfl)

/-! `setResult` -/

@[simp] theorem setResult_cmd (s : State) (r : ResultCode) : (s.setResult r).cmd = s.cmd := (rfl)
@[simp] theorem setResult_ctrl (s : State) (r : ResultCode) : (s.setResult r).ctrl = s.ctrl := (rfl)
@[simp] theorem setResult_pending (s : State) (r : ResultCode) : (s.setResult r).pending = s.pending := (rfl)
@[simp] theorem setResult_ovr (s : State) (r : ResultCode) : (s.setResult r).ovr = s.ovr := (rfl)
@[simp] theorem setResult_result (s : State) (r : ResultCode) : (s.setResult r).result = r := (rfl)
@[simp] theorem setResult_status (s : State) (r : ResultCode) : (s.setResult r).status = s.status := (rfl)
@[simp] theorem setResult_height (s : State) (r : ResultCode) : (s.setResult r).height = s.height := (rfl)
@[simp] theorem setResult_nonce2 (s : State) (r : ResultCode) : (s.setResult r).nonce2 = s.nonce2 := (rfl)
@[simp] theorem setResult_startNonce (s : State) (r : ResultCode) : (s.setResult r).startNonce = s.startNonce := (rfl)
@[simp] theorem setResult_bestNonce (s : State) (r : ResultCode) : (s.setResult r).bestNonce = s.bestNonce := (rfl)
@[simp] theorem setResult_hashTime (s : State) (r : ResultCode) : (s.setResult r).hashTime = s.hashTime := (rfl)
@[simp] theorem setResult_cbLen (s : State) (r : ResultCode) : (s.setResult r).cbLen = s.cbLen := (rfl)
@[simp] theorem setResult_pathLen (s : State) (r : ResultCode) : (s.setResult r).pathLen = s.pathLen := (rfl)
@[simp] theorem setResult_argCbLen (s : State) (r : ResultCode) : (s.setResult r).argCbLen = s.argCbLen := (rfl)
@[simp] theorem setResult_argHeight (s : State) (r : ResultCode) : (s.setResult r).argHeight = s.argHeight := (rfl)
@[simp] theorem setResult_argPathLen (s : State) (r : ResultCode) : (s.setResult r).argPathLen = s.argPathLen := (rfl)
@[simp] theorem setResult_argCycles (s : State) (r : ResultCode) : (s.setResult r).argCycles = s.argCycles := (rfl)
@[simp] theorem setResult_key0 (s : State) (r : ResultCode) : (s.setResult r).key0 = s.key0 := (rfl)
@[simp] theorem setResult_key1 (s : State) (r : ResultCode) : (s.setResult r).key1 = s.key1 := (rfl)
@[simp] theorem setResult_key2 (s : State) (r : ResultCode) : (s.setResult r).key2 = s.key2 := (rfl)
@[simp] theorem setResult_key3 (s : State) (r : ResultCode) : (s.setResult r).key3 = s.key3 := (rfl)
@[simp] theorem setResult_clen (s : State) (r : ResultCode) : (s.setResult r).clen = s.clen := (rfl)
@[simp] theorem setResult_ccap (s : State) (r : ResultCode) : (s.setResult r).ccap = s.ccap := (rfl)
@[simp] theorem setResult_cres (s : State) (r : ResultCode) : (s.setResult r).cres = s.cres := (rfl)
@[simp] theorem setResult_mem (s : State) (r : ResultCode) : (s.setResult r).mem = s.mem := (rfl)
@[simp] theorem setResult_resetLine (s : State) (r : ResultCode) : (s.setResult r).resetLine = s.resetLine := (rfl)
@[simp] theorem setResult_schedule (s : State) (r : ResultCode) : (s.setResult r).schedule = s.schedule := (rfl)
@[simp] theorem setResult_busData (s : State) (r : ResultCode) : (s.setResult r).busData = s.busData := (rfl)
@[simp] theorem setResult_draws (s : State) (r : ResultCode) : (s.setResult r).draws = s.draws := (rfl)
@[simp] theorem setResult_resetDraw (s : State) (r : ResultCode) : (s.setResult r).resetDraw = s.resetDraw := (rfl)
@[simp] theorem setResult_readByte (s : State) (r : ResultCode) (a : Nat) : (s.setResult r).readByte a = s.readByte a := (rfl)
@[simp] theorem setResult_readBytes (s : State) (r : ResultCode) (a n : Nat) : (s.setResult r).readBytes a n = s.readBytes a n := (rfl)
@[simp] theorem setResult_readWord (s : State) (r : ResultCode) (a : Nat) : (s.setResult r).readWord a = s.readWord a := (rfl)
@[simp] theorem setResult_buffer (s : State) (r : ResultCode) (c : Buf) : (s.setResult r).buffer c = s.buffer c := (rfl)
@[simp] theorem setResult_nonce (s : State) (r : ResultCode) : (s.setResult r).nonce = s.nonce := (rfl)
@[simp] theorem setResult_key (s : State) (r : ResultCode) : (s.setResult r).key = s.key := (rfl)
@[simp] theorem setResult_xpol (s : State) (r : ResultCode) : (s.setResult r).xpol = s.xpol := (rfl)
@[simp] theorem setResult_mroot (s : State) (r : ResultCode) : (s.setResult r).mroot = s.mroot := (rfl)

/-! `failWith` -/

@[simp] theorem failWith_cmd (s : State) (r : ResultCode) : (s.failWith r).cmd = s.cmd := (rfl)
@[simp] theorem failWith_ctrl (s : State) (r : ResultCode) : (s.failWith r).ctrl = s.ctrl := (rfl)
@[simp] theorem failWith_pending (s : State) (r : ResultCode) : (s.failWith r).pending = s.pending := (rfl)
@[simp] theorem failWith_ovr (s : State) (r : ResultCode) : (s.failWith r).ovr = s.ovr := (rfl)
@[simp] theorem failWith_result (s : State) (r : ResultCode) : (s.failWith r).result = r := (rfl)
@[simp] theorem failWith_status (s : State) (r : ResultCode) : (s.failWith r).status = s.status := (rfl)
@[simp] theorem failWith_height (s : State) (r : ResultCode) : (s.failWith r).height = s.height := (rfl)
@[simp] theorem failWith_nonce2 (s : State) (r : ResultCode) : (s.failWith r).nonce2 = s.nonce2 := (rfl)
@[simp] theorem failWith_startNonce (s : State) (r : ResultCode) : (s.failWith r).startNonce = s.startNonce := (rfl)
@[simp] theorem failWith_bestNonce (s : State) (r : ResultCode) : (s.failWith r).bestNonce = s.bestNonce := (rfl)
@[simp] theorem failWith_hashTime (s : State) (r : ResultCode) : (s.failWith r).hashTime = s.hashTime := (rfl)
@[simp] theorem failWith_cbLen (s : State) (r : ResultCode) : (s.failWith r).cbLen = s.cbLen := (rfl)
@[simp] theorem failWith_pathLen (s : State) (r : ResultCode) : (s.failWith r).pathLen = s.pathLen := (rfl)
@[simp] theorem failWith_argCbLen (s : State) (r : ResultCode) : (s.failWith r).argCbLen = s.argCbLen := (rfl)
@[simp] theorem failWith_argHeight (s : State) (r : ResultCode) : (s.failWith r).argHeight = s.argHeight := (rfl)
@[simp] theorem failWith_argPathLen (s : State) (r : ResultCode) : (s.failWith r).argPathLen = s.argPathLen := (rfl)
@[simp] theorem failWith_argCycles (s : State) (r : ResultCode) : (s.failWith r).argCycles = s.argCycles := (rfl)
@[simp] theorem failWith_key0 (s : State) (r : ResultCode) : (s.failWith r).key0 = s.key0 := (rfl)
@[simp] theorem failWith_key1 (s : State) (r : ResultCode) : (s.failWith r).key1 = s.key1 := (rfl)
@[simp] theorem failWith_key2 (s : State) (r : ResultCode) : (s.failWith r).key2 = s.key2 := (rfl)
@[simp] theorem failWith_key3 (s : State) (r : ResultCode) : (s.failWith r).key3 = s.key3 := (rfl)
@[simp] theorem failWith_clen (s : State) (r : ResultCode) : (s.failWith r).clen = s.clen := (rfl)
@[simp] theorem failWith_ccap (s : State) (r : ResultCode) : (s.failWith r).ccap = s.ccap := (rfl)
@[simp] theorem failWith_cres (s : State) (r : ResultCode) : (s.failWith r).cres = s.cres := (rfl)
@[simp] theorem failWith_mem (s : State) (r : ResultCode) : (s.failWith r).mem = s.mem := (rfl)
@[simp] theorem failWith_resetLine (s : State) (r : ResultCode) : (s.failWith r).resetLine = s.resetLine := (rfl)
@[simp] theorem failWith_schedule (s : State) (r : ResultCode) : (s.failWith r).schedule = s.schedule := (rfl)
@[simp] theorem failWith_busData (s : State) (r : ResultCode) : (s.failWith r).busData = s.busData := (rfl)
@[simp] theorem failWith_draws (s : State) (r : ResultCode) : (s.failWith r).draws = s.draws := (rfl)
@[simp] theorem failWith_resetDraw (s : State) (r : ResultCode) : (s.failWith r).resetDraw = s.resetDraw := (rfl)
@[simp] theorem failWith_readByte (s : State) (r : ResultCode) (a : Nat) : (s.failWith r).readByte a = s.readByte a := (rfl)
@[simp] theorem failWith_readBytes (s : State) (r : ResultCode) (a n : Nat) : (s.failWith r).readBytes a n = s.readBytes a n := (rfl)
@[simp] theorem failWith_readWord (s : State) (r : ResultCode) (a : Nat) : (s.failWith r).readWord a = s.readWord a := (rfl)
@[simp] theorem failWith_buffer (s : State) (r : ResultCode) (c : Buf) : (s.failWith r).buffer c = s.buffer c := (rfl)
@[simp] theorem failWith_nonce (s : State) (r : ResultCode) : (s.failWith r).nonce = s.nonce := (rfl)
@[simp] theorem failWith_key (s : State) (r : ResultCode) : (s.failWith r).key = s.key := (rfl)
@[simp] theorem failWith_xpol (s : State) (r : ResultCode) : (s.failWith r).xpol = s.xpol := (rfl)
@[simp] theorem failWith_mroot (s : State) (r : ResultCode) : (s.failWith r).mroot = s.mroot := (rfl)

/-! `setStatus` -/

@[simp] theorem setStatus_cmd (s : State) (x : Status) : (s.setStatus x).cmd = s.cmd := (rfl)
@[simp] theorem setStatus_ctrl (s : State) (x : Status) : (s.setStatus x).ctrl = s.ctrl := (rfl)
@[simp] theorem setStatus_pending (s : State) (x : Status) : (s.setStatus x).pending = s.pending := (rfl)
@[simp] theorem setStatus_ovr (s : State) (x : Status) : (s.setStatus x).ovr = s.ovr := (rfl)
@[simp] theorem setStatus_result (s : State) (x : Status) : (s.setStatus x).result = s.result := (rfl)
@[simp] theorem setStatus_status (s : State) (x : Status) : (s.setStatus x).status = x := (rfl)
@[simp] theorem setStatus_height (s : State) (x : Status) : (s.setStatus x).height = s.height := (rfl)
@[simp] theorem setStatus_nonce2 (s : State) (x : Status) : (s.setStatus x).nonce2 = s.nonce2 := (rfl)
@[simp] theorem setStatus_startNonce (s : State) (x : Status) : (s.setStatus x).startNonce = s.startNonce := (rfl)
@[simp] theorem setStatus_bestNonce (s : State) (x : Status) : (s.setStatus x).bestNonce = s.bestNonce := (rfl)
@[simp] theorem setStatus_hashTime (s : State) (x : Status) : (s.setStatus x).hashTime = s.hashTime := (rfl)
@[simp] theorem setStatus_cbLen (s : State) (x : Status) : (s.setStatus x).cbLen = s.cbLen := (rfl)
@[simp] theorem setStatus_pathLen (s : State) (x : Status) : (s.setStatus x).pathLen = s.pathLen := (rfl)
@[simp] theorem setStatus_argCbLen (s : State) (x : Status) : (s.setStatus x).argCbLen = s.argCbLen := (rfl)
@[simp] theorem setStatus_argHeight (s : State) (x : Status) : (s.setStatus x).argHeight = s.argHeight := (rfl)
@[simp] theorem setStatus_argPathLen (s : State) (x : Status) : (s.setStatus x).argPathLen = s.argPathLen := (rfl)
@[simp] theorem setStatus_argCycles (s : State) (x : Status) : (s.setStatus x).argCycles = s.argCycles := (rfl)
@[simp] theorem setStatus_key0 (s : State) (x : Status) : (s.setStatus x).key0 = s.key0 := (rfl)
@[simp] theorem setStatus_key1 (s : State) (x : Status) : (s.setStatus x).key1 = s.key1 := (rfl)
@[simp] theorem setStatus_key2 (s : State) (x : Status) : (s.setStatus x).key2 = s.key2 := (rfl)
@[simp] theorem setStatus_key3 (s : State) (x : Status) : (s.setStatus x).key3 = s.key3 := (rfl)
@[simp] theorem setStatus_clen (s : State) (x : Status) : (s.setStatus x).clen = s.clen := (rfl)
@[simp] theorem setStatus_ccap (s : State) (x : Status) : (s.setStatus x).ccap = s.ccap := (rfl)
@[simp] theorem setStatus_cres (s : State) (x : Status) : (s.setStatus x).cres = s.cres := (rfl)
@[simp] theorem setStatus_mem (s : State) (x : Status) : (s.setStatus x).mem = s.mem := (rfl)
@[simp] theorem setStatus_resetLine (s : State) (x : Status) : (s.setStatus x).resetLine = s.resetLine := (rfl)
@[simp] theorem setStatus_schedule (s : State) (x : Status) : (s.setStatus x).schedule = s.schedule := (rfl)
@[simp] theorem setStatus_busData (s : State) (x : Status) : (s.setStatus x).busData = s.busData := (rfl)
@[simp] theorem setStatus_draws (s : State) (x : Status) : (s.setStatus x).draws = s.draws := (rfl)
@[simp] theorem setStatus_resetDraw (s : State) (x : Status) : (s.setStatus x).resetDraw = s.resetDraw := (rfl)
@[simp] theorem setStatus_readByte (s : State) (x : Status) (a : Nat) : (s.setStatus x).readByte a = s.readByte a := (rfl)
@[simp] theorem setStatus_readBytes (s : State) (x : Status) (a n : Nat) : (s.setStatus x).readBytes a n = s.readBytes a n := (rfl)
@[simp] theorem setStatus_readWord (s : State) (x : Status) (a : Nat) : (s.setStatus x).readWord a = s.readWord a := (rfl)
@[simp] theorem setStatus_buffer (s : State) (x : Status) (c : Buf) : (s.setStatus x).buffer c = s.buffer c := (rfl)
@[simp] theorem setStatus_nonce (s : State) (x : Status) : (s.setStatus x).nonce = s.nonce := (rfl)
@[simp] theorem setStatus_key (s : State) (x : Status) : (s.setStatus x).key = s.key := (rfl)
@[simp] theorem setStatus_xpol (s : State) (x : Status) : (s.setStatus x).xpol = s.xpol := (rfl)
@[simp] theorem setStatus_mroot (s : State) (x : Status) : (s.setStatus x).mroot = s.mroot := (rfl)

/-! `setCres` -/

@[simp] theorem setCres_cmd (s : State) (v : Word) : (s.setCres v).cmd = s.cmd := (rfl)
@[simp] theorem setCres_ctrl (s : State) (v : Word) : (s.setCres v).ctrl = s.ctrl := (rfl)
@[simp] theorem setCres_pending (s : State) (v : Word) : (s.setCres v).pending = s.pending := (rfl)
@[simp] theorem setCres_ovr (s : State) (v : Word) : (s.setCres v).ovr = s.ovr := (rfl)
@[simp] theorem setCres_result (s : State) (v : Word) : (s.setCres v).result = s.result := (rfl)
@[simp] theorem setCres_status (s : State) (v : Word) : (s.setCres v).status = s.status := (rfl)
@[simp] theorem setCres_height (s : State) (v : Word) : (s.setCres v).height = s.height := (rfl)
@[simp] theorem setCres_nonce2 (s : State) (v : Word) : (s.setCres v).nonce2 = s.nonce2 := (rfl)
@[simp] theorem setCres_startNonce (s : State) (v : Word) : (s.setCres v).startNonce = s.startNonce := (rfl)
@[simp] theorem setCres_bestNonce (s : State) (v : Word) : (s.setCres v).bestNonce = s.bestNonce := (rfl)
@[simp] theorem setCres_hashTime (s : State) (v : Word) : (s.setCres v).hashTime = s.hashTime := (rfl)
@[simp] theorem setCres_cbLen (s : State) (v : Word) : (s.setCres v).cbLen = s.cbLen := (rfl)
@[simp] theorem setCres_pathLen (s : State) (v : Word) : (s.setCres v).pathLen = s.pathLen := (rfl)
@[simp] theorem setCres_argCbLen (s : State) (v : Word) : (s.setCres v).argCbLen = s.argCbLen := (rfl)
@[simp] theorem setCres_argHeight (s : State) (v : Word) : (s.setCres v).argHeight = s.argHeight := (rfl)
@[simp] theorem setCres_argPathLen (s : State) (v : Word) : (s.setCres v).argPathLen = s.argPathLen := (rfl)
@[simp] theorem setCres_argCycles (s : State) (v : Word) : (s.setCres v).argCycles = s.argCycles := (rfl)
@[simp] theorem setCres_key0 (s : State) (v : Word) : (s.setCres v).key0 = s.key0 := (rfl)
@[simp] theorem setCres_key1 (s : State) (v : Word) : (s.setCres v).key1 = s.key1 := (rfl)
@[simp] theorem setCres_key2 (s : State) (v : Word) : (s.setCres v).key2 = s.key2 := (rfl)
@[simp] theorem setCres_key3 (s : State) (v : Word) : (s.setCres v).key3 = s.key3 := (rfl)
@[simp] theorem setCres_clen (s : State) (v : Word) : (s.setCres v).clen = s.clen := (rfl)
@[simp] theorem setCres_ccap (s : State) (v : Word) : (s.setCres v).ccap = s.ccap := (rfl)
@[simp] theorem setCres_cres (s : State) (v : Word) : (s.setCres v).cres = v := (rfl)
@[simp] theorem setCres_mem (s : State) (v : Word) : (s.setCres v).mem = s.mem := (rfl)
@[simp] theorem setCres_resetLine (s : State) (v : Word) : (s.setCres v).resetLine = s.resetLine := (rfl)
@[simp] theorem setCres_schedule (s : State) (v : Word) : (s.setCres v).schedule = s.schedule := (rfl)
@[simp] theorem setCres_busData (s : State) (v : Word) : (s.setCres v).busData = s.busData := (rfl)
@[simp] theorem setCres_draws (s : State) (v : Word) : (s.setCres v).draws = s.draws := (rfl)
@[simp] theorem setCres_resetDraw (s : State) (v : Word) : (s.setCres v).resetDraw = s.resetDraw := (rfl)
@[simp] theorem setCres_readByte (s : State) (v : Word) (a : Nat) : (s.setCres v).readByte a = s.readByte a := (rfl)
@[simp] theorem setCres_readBytes (s : State) (v : Word) (a n : Nat) : (s.setCres v).readBytes a n = s.readBytes a n := (rfl)
@[simp] theorem setCres_readWord (s : State) (v : Word) (a : Nat) : (s.setCres v).readWord a = s.readWord a := (rfl)
@[simp] theorem setCres_buffer (s : State) (v : Word) (c : Buf) : (s.setCres v).buffer c = s.buffer c := (rfl)
@[simp] theorem setCres_nonce (s : State) (v : Word) : (s.setCres v).nonce = s.nonce := (rfl)
@[simp] theorem setCres_key (s : State) (v : Word) : (s.setCres v).key = s.key := (rfl)
@[simp] theorem setCres_xpol (s : State) (v : Word) : (s.setCres v).xpol = s.xpol := (rfl)
@[simp] theorem setCres_mroot (s : State) (v : Word) : (s.setCres v).mroot = s.mroot := (rfl)

/-! `setNonce2` -/

@[simp] theorem setNonce2_cmd (s : State) (v : Word) : (s.setNonce2 v).cmd = s.cmd := (rfl)
@[simp] theorem setNonce2_ctrl (s : State) (v : Word) : (s.setNonce2 v).ctrl = s.ctrl := (rfl)
@[simp] theorem setNonce2_pending (s : State) (v : Word) : (s.setNonce2 v).pending = s.pending := (rfl)
@[simp] theorem setNonce2_ovr (s : State) (v : Word) : (s.setNonce2 v).ovr = s.ovr := (rfl)
@[simp] theorem setNonce2_result (s : State) (v : Word) : (s.setNonce2 v).result = s.result := (rfl)
@[simp] theorem setNonce2_status (s : State) (v : Word) : (s.setNonce2 v).status = s.status := (rfl)
@[simp] theorem setNonce2_height (s : State) (v : Word) : (s.setNonce2 v).height = s.height := (rfl)
@[simp] theorem setNonce2_nonce2 (s : State) (v : Word) : (s.setNonce2 v).nonce2 = v := (rfl)
@[simp] theorem setNonce2_startNonce (s : State) (v : Word) : (s.setNonce2 v).startNonce = s.startNonce := (rfl)
@[simp] theorem setNonce2_bestNonce (s : State) (v : Word) : (s.setNonce2 v).bestNonce = s.bestNonce := (rfl)
@[simp] theorem setNonce2_hashTime (s : State) (v : Word) : (s.setNonce2 v).hashTime = s.hashTime := (rfl)
@[simp] theorem setNonce2_cbLen (s : State) (v : Word) : (s.setNonce2 v).cbLen = s.cbLen := (rfl)
@[simp] theorem setNonce2_pathLen (s : State) (v : Word) : (s.setNonce2 v).pathLen = s.pathLen := (rfl)
@[simp] theorem setNonce2_argCbLen (s : State) (v : Word) : (s.setNonce2 v).argCbLen = s.argCbLen := (rfl)
@[simp] theorem setNonce2_argHeight (s : State) (v : Word) : (s.setNonce2 v).argHeight = s.argHeight := (rfl)
@[simp] theorem setNonce2_argPathLen (s : State) (v : Word) : (s.setNonce2 v).argPathLen = s.argPathLen := (rfl)
@[simp] theorem setNonce2_argCycles (s : State) (v : Word) : (s.setNonce2 v).argCycles = s.argCycles := (rfl)
@[simp] theorem setNonce2_key0 (s : State) (v : Word) : (s.setNonce2 v).key0 = s.key0 := (rfl)
@[simp] theorem setNonce2_key1 (s : State) (v : Word) : (s.setNonce2 v).key1 = s.key1 := (rfl)
@[simp] theorem setNonce2_key2 (s : State) (v : Word) : (s.setNonce2 v).key2 = s.key2 := (rfl)
@[simp] theorem setNonce2_key3 (s : State) (v : Word) : (s.setNonce2 v).key3 = s.key3 := (rfl)
@[simp] theorem setNonce2_clen (s : State) (v : Word) : (s.setNonce2 v).clen = s.clen := (rfl)
@[simp] theorem setNonce2_ccap (s : State) (v : Word) : (s.setNonce2 v).ccap = s.ccap := (rfl)
@[simp] theorem setNonce2_cres (s : State) (v : Word) : (s.setNonce2 v).cres = s.cres := (rfl)
@[simp] theorem setNonce2_mem (s : State) (v : Word) : (s.setNonce2 v).mem = s.mem := (rfl)
@[simp] theorem setNonce2_resetLine (s : State) (v : Word) : (s.setNonce2 v).resetLine = s.resetLine := (rfl)
@[simp] theorem setNonce2_schedule (s : State) (v : Word) : (s.setNonce2 v).schedule = s.schedule := (rfl)
@[simp] theorem setNonce2_busData (s : State) (v : Word) : (s.setNonce2 v).busData = s.busData := (rfl)
@[simp] theorem setNonce2_draws (s : State) (v : Word) : (s.setNonce2 v).draws = s.draws := (rfl)
@[simp] theorem setNonce2_resetDraw (s : State) (v : Word) : (s.setNonce2 v).resetDraw = s.resetDraw := (rfl)
@[simp] theorem setNonce2_readByte (s : State) (v : Word) (a : Nat) : (s.setNonce2 v).readByte a = s.readByte a := (rfl)
@[simp] theorem setNonce2_readBytes (s : State) (v : Word) (a n : Nat) : (s.setNonce2 v).readBytes a n = s.readBytes a n := (rfl)
@[simp] theorem setNonce2_readWord (s : State) (v : Word) (a : Nat) : (s.setNonce2 v).readWord a = s.readWord a := (rfl)
@[simp] theorem setNonce2_buffer (s : State) (v : Word) (c : Buf) : (s.setNonce2 v).buffer c = s.buffer c := (rfl)
@[simp] theorem setNonce2_nonce (s : State) (v : Word) : (s.setNonce2 v).nonce = s.nonce := (rfl)
@[simp] theorem setNonce2_key (s : State) (v : Word) : (s.setNonce2 v).key = s.key := (rfl)
@[simp] theorem setNonce2_xpol (s : State) (v : Word) : (s.setNonce2 v).xpol = s.xpol := (rfl)
@[simp] theorem setNonce2_mroot (s : State) (v : Word) : (s.setNonce2 v).mroot = s.mroot := (rfl)

/-! `recordBest` -/

@[simp] theorem recordBest_cmd (s : State) (h : List Byte) (nc : Word) : (s.recordBest h nc).cmd = s.cmd := (rfl)
@[simp] theorem recordBest_ctrl (s : State) (h : List Byte) (nc : Word) : (s.recordBest h nc).ctrl = s.ctrl := (rfl)
@[simp] theorem recordBest_pending (s : State) (h : List Byte) (nc : Word) : (s.recordBest h nc).pending = s.pending := (rfl)
@[simp] theorem recordBest_ovr (s : State) (h : List Byte) (nc : Word) : (s.recordBest h nc).ovr = s.ovr := (rfl)
@[simp] theorem recordBest_result (s : State) (h : List Byte) (nc : Word) : (s.recordBest h nc).result = s.result := (rfl)
@[simp] theorem recordBest_status (s : State) (h : List Byte) (nc : Word) : (s.recordBest h nc).status = s.status := (rfl)
@[simp] theorem recordBest_height (s : State) (h : List Byte) (nc : Word) : (s.recordBest h nc).height = s.height := (rfl)
@[simp] theorem recordBest_nonce2 (s : State) (h : List Byte) (nc : Word) : (s.recordBest h nc).nonce2 = s.nonce2 := (rfl)
@[simp] theorem recordBest_startNonce (s : State) (h : List Byte) (nc : Word) : (s.recordBest h nc).startNonce = s.startNonce := (rfl)
@[simp] theorem recordBest_bestNonce (s : State) (h : List Byte) (nc : Word) : (s.recordBest h nc).bestNonce = nc := (rfl)
@[simp] theorem recordBest_hashTime (s : State) (h : List Byte) (nc : Word) : (s.recordBest h nc).hashTime = s.hashTime := (rfl)
@[simp] theorem recordBest_cbLen (s : State) (h : List Byte) (nc : Word) : (s.recordBest h nc).cbLen = s.cbLen := (rfl)
@[simp] theorem recordBest_pathLen (s : State) (h : List Byte) (nc : Word) : (s.recordBest h nc).pathLen = s.pathLen := (rfl)
@[simp] theorem recordBest_argCbLen (s : State) (h : List Byte) (nc : Word) : (s.recordBest h nc).argCbLen = s.argCbLen := (rfl)
@[simp] theorem recordBest_argHeight (s : State) (h : List Byte) (nc : Word) : (s.recordBest h nc).argHeight = s.argHeight := (rfl)
@[simp] theorem recordBest_argPathLen (s : State) (h : List Byte) (nc : Word) : (s.recordBest h nc).argPathLen = s.argPathLen := (rfl)
@[simp] theorem recordBest_argCycles (s : State) (h : List Byte) (nc : Word) : (s.recordBest h nc).argCycles = s.argCycles := (rfl)
@[simp] theorem recordBest_key0 (s : State) (h : List Byte) (nc : Word) : (s.recordBest h nc).key0 = s.key0 := (rfl)
@[simp] theorem recordBest_key1 (s : State) (h : List Byte) (nc : Word) : (s.recordBest h nc).key1 = s.key1 := (rfl)
@[simp] theorem recordBest_key2 (s : State) (h : List Byte) (nc : Word) : (s.recordBest h nc).key2 = s.key2 := (rfl)
@[simp] theorem recordBest_key3 (s : State) (h : List Byte) (nc : Word) : (s.recordBest h nc).key3 = s.key3 := (rfl)
@[simp] theorem recordBest_clen (s : State) (h : List Byte) (nc : Word) : (s.recordBest h nc).clen = s.clen := (rfl)
@[simp] theorem recordBest_ccap (s : State) (h : List Byte) (nc : Word) : (s.recordBest h nc).ccap = s.ccap := (rfl)
@[simp] theorem recordBest_cres (s : State) (h : List Byte) (nc : Word) : (s.recordBest h nc).cres = s.cres := (rfl)
@[simp] theorem recordBest_mem (s : State) (h : List Byte) (nc : Word) : (s.recordBest h nc).mem = s.mem.store (bufBase .bestHash) h := (rfl)
@[simp] theorem recordBest_resetLine (s : State) (h : List Byte) (nc : Word) : (s.recordBest h nc).resetLine = s.resetLine := (rfl)
@[simp] theorem recordBest_schedule (s : State) (h : List Byte) (nc : Word) : (s.recordBest h nc).schedule = s.schedule := (rfl)
@[simp] theorem recordBest_busData (s : State) (h : List Byte) (nc : Word) : (s.recordBest h nc).busData = s.busData := (rfl)
@[simp] theorem recordBest_draws (s : State) (h : List Byte) (nc : Word) : (s.recordBest h nc).draws = s.draws := (rfl)
@[simp] theorem recordBest_resetDraw (s : State) (h : List Byte) (nc : Word) : (s.recordBest h nc).resetDraw = s.resetDraw := (rfl)
@[simp] theorem recordBest_key (s : State) (h : List Byte) (nc : Word) : (s.recordBest h nc).key = s.key := (rfl)
@[simp] theorem recordBest_xpol (s : State) (h : List Byte) (nc : Word) : (s.recordBest h nc).xpol = s.xpol := (rfl)
@[simp] theorem recordBest_mroot (s : State) (h : List Byte) (nc : Word) : (s.recordBest h nc).mroot = s.mroot := (rfl)

/-! `countDraw` -/

@[simp] theorem countDraw_cmd (s : State) : (s.countDraw).cmd = s.cmd := (rfl)
@[simp] theorem countDraw_ctrl (s : State) : (s.countDraw).ctrl = s.ctrl := (rfl)
@[simp] theorem countDraw_pending (s : State) : (s.countDraw).pending = s.pending := (rfl)
@[simp] theorem countDraw_ovr (s : State) : (s.countDraw).ovr = s.ovr := (rfl)
@[simp] theorem countDraw_result (s : State) : (s.countDraw).result = s.result := (rfl)
@[simp] theorem countDraw_status (s : State) : (s.countDraw).status = s.status := (rfl)
@[simp] theorem countDraw_height (s : State) : (s.countDraw).height = s.height := (rfl)
@[simp] theorem countDraw_nonce2 (s : State) : (s.countDraw).nonce2 = s.nonce2 := (rfl)
@[simp] theorem countDraw_startNonce (s : State) : (s.countDraw).startNonce = s.startNonce := (rfl)
@[simp] theorem countDraw_bestNonce (s : State) : (s.countDraw).bestNonce = s.bestNonce := (rfl)
@[simp] theorem countDraw_hashTime (s : State) : (s.countDraw).hashTime = s.hashTime := (rfl)
@[simp] theorem countDraw_cbLen (s : State) : (s.countDraw).cbLen = s.cbLen := (rfl)
@[simp] theorem countDraw_pathLen (s : State) : (s.countDraw).pathLen = s.pathLen := (rfl)
@[simp] theorem countDraw_argCbLen (s : State) : (s.countDraw).argCbLen = s.argCbLen := (rfl)
@[simp] theorem countDraw_argHeight (s : State) : (s.countDraw).argHeight = s.argHeight := (rfl)
@[simp] theorem countDraw_argPathLen (s : State) : (s.countDraw).argPathLen = s.argPathLen := (rfl)
@[simp] theorem countDraw_argCycles (s : State) : (s.countDraw).argCycles = s.argCycles := (rfl)
@[simp] theorem countDraw_key0 (s : State) : (s.countDraw).key0 = s.key0 := (rfl)
@[simp] theorem countDraw_key1 (s : State) : (s.countDraw).key1 = s.key1 := (rfl)
@[simp] theorem countDraw_key2 (s : State) : (s.countDraw).key2 = s.key2 := (rfl)
@[simp] theorem countDraw_key3 (s : State) : (s.countDraw).key3 = s.key3 := (rfl)
@[simp] theorem countDraw_clen (s : State) : (s.countDraw).clen = s.clen := (rfl)
@[simp] theorem countDraw_ccap (s : State) : (s.countDraw).ccap = s.ccap := (rfl)
@[simp] theorem countDraw_cres (s : State) : (s.countDraw).cres = s.cres := (rfl)
@[simp] theorem countDraw_mem (s : State) : (s.countDraw).mem = s.mem := (rfl)
@[simp] theorem countDraw_resetLine (s : State) : (s.countDraw).resetLine = s.resetLine := (rfl)
@[simp] theorem countDraw_schedule (s : State) : (s.countDraw).schedule = s.schedule := (rfl)
@[simp] theorem countDraw_busData (s : State) : (s.countDraw).busData = s.busData := (rfl)
@[simp] theorem countDraw_draws (s : State) : (s.countDraw).draws = s.draws + 1 := (rfl)
@[simp] theorem countDraw_resetDraw (s : State) : (s.countDraw).resetDraw = s.resetDraw := (rfl)
@[simp] theorem countDraw_readByte (s : State) (a : Nat) : (s.countDraw).readByte a = s.readByte a := (rfl)
@[simp] theorem countDraw_readBytes (s : State) (a n : Nat) : (s.countDraw).readBytes a n = s.readBytes a n := (rfl)
@[simp] theorem countDraw_readWord (s : State) (a : Nat) : (s.countDraw).readWord a = s.readWord a := (rfl)
@[simp] theorem countDraw_buffer (s : State) (c : Buf) : (s.countDraw).buffer c = s.buffer c := (rfl)
@[simp] theorem countDraw_nonce (s : State) : (s.countDraw).nonce = s.nonce := (rfl)
@[simp] theorem countDraw_key (s : State) : (s.countDraw).key = s.key := (rfl)
@[simp] theorem countDraw_xpol (s : State) : (s.countDraw).xpol = s.xpol := (rfl)
@[simp] theorem countDraw_mroot (s : State) : (s.countDraw).mroot = s.mroot := (rfl)

/-! `addHashTime` -/

@[simp] theorem addHashTime_cmd (s : State) (dt : Nat) : (addHashTime dt s).cmd = s.cmd := (rfl)
@[simp] theorem addHashTime_ctrl (s : State) (dt : Nat) : (addHashTime dt s).ctrl = s.ctrl := (rfl)
@[simp] theorem addHashTime_pending (s : State) (dt : Nat) : (addHashTime dt s).pending = s.pending := (rfl)
@[simp] theorem addHashTime_ovr (s : State) (dt : Nat) : (addHashTime dt s).ovr = s.ovr := (rfl)
@[simp] theorem addHashTime_result (s : State) (dt : Nat) : (addHashTime dt s).result = s.result := (rfl)
@[simp] theorem addHashTime_status (s : State) (dt : Nat) : (addHashTime dt s).status = s.status := (rfl)
@[simp] theorem addHashTime_height (s : State) (dt : Nat) : (addHashTime dt s).height = s.height := (rfl)
@[simp] theorem addHashTime_nonce2 (s : State) (dt : Nat) : (addHashTime dt s).nonce2 = s.nonce2 := (rfl)
@[simp] theorem addHashTime_startNonce (s : State) (dt : Nat) : (addHashTime dt s).startNonce = s.startNonce := (rfl)
@[simp] theorem addHashTime_bestNonce (s : State) (dt : Nat) : (addHashTime dt s).bestNonce = s.bestNonce := (rfl)
@[simp] theorem addHashTime_hashTime (s : State) (dt : Nat) : (addHashTime dt s).hashTime = sat32 (s.hashTime.toNat + dt) := (rfl)
@[simp] theorem addHashTime_cbLen (s : State) (dt : Nat) : (addHashTime dt s).cbLen = s.cbLen := (rfl)
@[simp] theorem addHashTime_pathLen (s : State) (dt : Nat) : (addHashTime dt s).pathLen = s.pathLen := (rfl)
@[simp] theorem addHashTime_argCbLen (s : State) (dt : Nat) : (addHashTime dt s).argCbLen = s.argCbLen := (rfl)
@[simp] theorem addHashTime_argHeight (s : State) (dt : Nat) : (addHashTime dt s).argHeight = s.argHeight := (rfl)
@[simp] theorem addHashTime_argPathLen (s : State) (dt : Nat) : (addHashTime dt s).argPathLen = s.argPathLen := (rfl)
@[simp] theorem addHashTime_argCycles (s : State) (dt : Nat) : (addHashTime dt s).argCycles = s.argCycles := (rfl)
@[simp] theorem addHashTime_key0 (s : State) (dt : Nat) : (addHashTime dt s).key0 = s.key0 := (rfl)
@[simp] theorem addHashTime_key1 (s : State) (dt : Nat) : (addHashTime dt s).key1 = s.key1 := (rfl)
@[simp] theorem addHashTime_key2 (s : State) (dt : Nat) : (addHashTime dt s).key2 = s.key2 := (rfl)
@[simp] theorem addHashTime_key3 (s : State) (dt : Nat) : (addHashTime dt s).key3 = s.key3 := (rfl)
@[simp] theorem addHashTime_clen (s : State) (dt : Nat) : (addHashTime dt s).clen = s.clen := (rfl)
@[simp] theorem addHashTime_ccap (s : State) (dt : Nat) : (addHashTime dt s).ccap = s.ccap := (rfl)
@[simp] theorem addHashTime_cres (s : State) (dt : Nat) : (addHashTime dt s).cres = s.cres := (rfl)
@[simp] theorem addHashTime_mem (s : State) (dt : Nat) : (addHashTime dt s).mem = s.mem := (rfl)
@[simp] theorem addHashTime_resetLine (s : State) (dt : Nat) : (addHashTime dt s).resetLine = s.resetLine := (rfl)
@[simp] theorem addHashTime_schedule (s : State) (dt : Nat) : (addHashTime dt s).schedule = s.schedule := (rfl)
@[simp] theorem addHashTime_busData (s : State) (dt : Nat) : (addHashTime dt s).busData = s.busData := (rfl)
@[simp] theorem addHashTime_draws (s : State) (dt : Nat) : (addHashTime dt s).draws = s.draws := (rfl)
@[simp] theorem addHashTime_resetDraw (s : State) (dt : Nat) : (addHashTime dt s).resetDraw = s.resetDraw := (rfl)
@[simp] theorem addHashTime_readByte (s : State) (dt : Nat) (a : Nat) : (addHashTime dt s).readByte a = s.readByte a := (rfl)
@[simp] theorem addHashTime_readBytes (s : State) (dt : Nat) (a n : Nat) : (addHashTime dt s).readBytes a n = s.readBytes a n := (rfl)
@[simp] theorem addHashTime_readWord (s : State) (dt : Nat) (a : Nat) : (addHashTime dt s).readWord a = s.readWord a := (rfl)
@[simp] theorem addHashTime_buffer (s : State) (dt : Nat) (c : Buf) : (addHashTime dt s).buffer c = s.buffer c := (rfl)
@[simp] theorem addHashTime_nonce (s : State) (dt : Nat) : (addHashTime dt s).nonce = s.nonce := (rfl)
@[simp] theorem addHashTime_key (s : State) (dt : Nat) : (addHashTime dt s).key = s.key := (rfl)
@[simp] theorem addHashTime_xpol (s : State) (dt : Nat) : (addHashTime dt s).xpol = s.xpol := (rfl)
@[simp] theorem addHashTime_mroot (s : State) (dt : Nat) : (addHashTime dt s).mroot = s.mroot := (rfl)

/-! `finishCommand` -/

@[simp] theorem finishCommand_cmd (s : State) : (finishCommand s).cmd = s.cmd := (rfl)
@[simp] theorem finishCommand_ctrl (s : State) : (finishCommand s).ctrl = s.ctrl := (rfl)
@[simp] theorem finishCommand_pending (s : State) : (finishCommand s).pending = none := (rfl)
@[simp] theorem finishCommand_ovr (s : State) : (finishCommand s).ovr = s.ovr := (rfl)
@[simp] theorem finishCommand_result (s : State) : (finishCommand s).result = s.result := (rfl)
@[simp] theorem finishCommand_status (s : State) : (finishCommand s).status = s.status := (rfl)
@[simp] theorem finishCommand_height (s : State) : (finishCommand s).height = s.height := (rfl)
@[simp] theorem finishCommand_nonce2 (s : State) : (finishCommand s).nonce2 = s.nonce2 := (rfl)
@[simp] theorem finishCommand_startNonce (s : State) : (finishCommand s).startNonce = s.startNonce := (rfl)
@[simp] theorem finishCommand_bestNonce (s : State) : (finishCommand s).bestNonce = s.bestNonce := (rfl)
@[simp] theorem finishCommand_hashTime (s : State) : (finishCommand s).hashTime = s.hashTime := (rfl)
@[simp] theorem finishCommand_cbLen (s : State) : (finishCommand s).cbLen = s.cbLen := (rfl)
@[simp] theorem finishCommand_pathLen (s : State) : (finishCommand s).pathLen = s.pathLen := (rfl)
@[simp] theorem finishCommand_argCbLen (s : State) : (finishCommand s).argCbLen = s.argCbLen := (rfl)
@[simp] theorem finishCommand_argHeight (s : State) : (finishCommand s).argHeight = s.argHeight := (rfl)
@[simp] theorem finishCommand_argPathLen (s : State) : (finishCommand s).argPathLen = s.argPathLen := (rfl)
@[simp] theorem finishCommand_argCycles (s : State) : (finishCommand s).argCycles = s.argCycles := (rfl)
@[simp] theorem finishCommand_key0 (s : State) : (finishCommand s).key0 = s.key0 := (rfl)
@[simp] theorem finishCommand_key1 (s : State) : (finishCommand s).key1 = s.key1 := (rfl)
@[simp] theorem finishCommand_key2 (s : State) : (finishCommand s).key2 = s.key2 := (rfl)
@[simp] theorem finishCommand_key3 (s : State) : (finishCommand s).key3 = s.key3 := (rfl)
@[simp] theorem finishCommand_clen (s : State) : (finishCommand s).clen = s.clen := (rfl)
@[simp] theorem finishCommand_ccap (s : State) : (finishCommand s).ccap = s.ccap := (rfl)
@[simp] theorem finishCommand_cres (s : State) : (finishCommand s).cres = s.cres := (rfl)
@[simp] theorem finishCommand_mem (s : State) : (finishCommand s).mem = s.mem := (rfl)
@[simp] theorem finishCommand_resetLine (s : State) : (finishCommand s).resetLine = s.resetLine := (rfl)
@[simp] theorem finishCommand_schedule (s : State) : (finishCommand s).schedule = s.schedule := (rfl)
@[simp] theorem finishCommand_busData (s : State) : (finishCommand s).busData = s.busData := (rfl)
@[simp] theorem finishCommand_draws (s : State) : (finishCommand s).draws = s.draws := (rfl)
@[simp] theorem finishCommand_resetDraw (s : State) : (finishCommand s).resetDraw = s.resetDraw := (rfl)
@[simp] theorem finishCommand_readByte (s : State) (a : Nat) : (finishCommand s).readByte a = s.readByte a := (rfl)
@[simp] theorem finishCommand_readBytes (s : State) (a n : Nat) : (finishCommand s).readBytes a n = s.readBytes a n := (rfl)
@[simp] theorem finishCommand_readWord (s : State) (a : Nat) : (finishCommand s).readWord a = s.readWord a := (rfl)
@[simp] theorem finishCommand_buffer (s : State) (c : Buf) : (finishCommand s).buffer c = s.buffer c := (rfl)
@[simp] theorem finishCommand_nonce (s : State) : (finishCommand s).nonce = s.nonce := (rfl)
@[simp] theorem finishCommand_key (s : State) : (finishCommand s).key = s.key := (rfl)
@[simp] theorem finishCommand_xpol (s : State) : (finishCommand s).xpol = s.xpol := (rfl)
@[simp] theorem finishCommand_mroot (s : State) : (finishCommand s).mroot = s.mroot := (rfl)

/-! `acceptCommand` -/

@[simp] theorem acceptCommand_cmd (s : State) (w : Word) : (acceptCommand w s).cmd = w := (rfl)
@[simp] theorem acceptCommand_ctrl (s : State) (w : Word) : (acceptCommand w s).ctrl = s.ctrl := (rfl)
@[simp] theorem acceptCommand_pending (s : State) (w : Word) : (acceptCommand w s).pending = some w := (rfl)
@[simp] theorem acceptCommand_ovr (s : State) (w : Word) : (acceptCommand w s).ovr = s.ovr := (rfl)
@[simp] theorem acceptCommand_result (s : State) (w : Word) : (acceptCommand w s).result = s.result := (rfl)
@[simp] theorem acceptCommand_status (s : State) (w : Word) : (acceptCommand w s).status = s.status := (rfl)
@[simp] theorem acceptCommand_height (s : State) (w : Word) : (acceptCommand w s).height = s.height := (rfl)
@[simp] theorem acceptCommand_nonce2 (s : State) (w : Word) : (acceptCommand w s).nonce2 = s.nonce2 := (rfl)
@[simp] theorem acceptCommand_startNonce (s : State) (w : Word) : (acceptCommand w s).startNonce = s.startNonce := (rfl)
@[simp] theorem acceptCommand_bestNonce (s : State) (w : Word) : (acceptCommand w s).bestNonce = s.bestNonce := (rfl)
@[simp] theorem acceptCommand_hashTime (s : State) (w : Word) : (acceptCommand w s).hashTime = s.hashTime := (rfl)
@[simp] theorem acceptCommand_cbLen (s : State) (w : Word) : (acceptCommand w s).cbLen = s.cbLen := (rfl)
@[simp] theorem acceptCommand_pathLen (s : State) (w : Word) : (acceptCommand w s).pathLen = s.pathLen := (rfl)
@[simp] theorem acceptCommand_argCbLen (s : State) (w : Word) : (acceptCommand w s).argCbLen = s.argCbLen := (rfl)
@[simp] theorem acceptCommand_argHeight (s : State) (w : Word) : (acceptCommand w s).argHeight = s.argHeight := (rfl)
@[simp] theorem acceptCommand_argPathLen (s : State) (w : Word) : (acceptCommand w s).argPathLen = s.argPathLen := (rfl)
@[simp] theorem acceptCommand_argCycles (s : State) (w : Word) : (acceptCommand w s).argCycles = s.argCycles := (rfl)
@[simp] theorem acceptCommand_key0 (s : State) (w : Word) : (acceptCommand w s).key0 = s.key0 := (rfl)
@[simp] theorem acceptCommand_key1 (s : State) (w : Word) : (acceptCommand w s).key1 = s.key1 := (rfl)
@[simp] theorem acceptCommand_key2 (s : State) (w : Word) : (acceptCommand w s).key2 = s.key2 := (rfl)
@[simp] theorem acceptCommand_key3 (s : State) (w : Word) : (acceptCommand w s).key3 = s.key3 := (rfl)
@[simp] theorem acceptCommand_clen (s : State) (w : Word) : (acceptCommand w s).clen = s.clen := (rfl)
@[simp] theorem acceptCommand_ccap (s : State) (w : Word) : (acceptCommand w s).ccap = s.ccap := (rfl)
@[simp] theorem acceptCommand_cres (s : State) (w : Word) : (acceptCommand w s).cres = s.cres := (rfl)
@[simp] theorem acceptCommand_mem (s : State) (w : Word) : (acceptCommand w s).mem = s.mem := (rfl)
@[simp] theorem acceptCommand_resetLine (s : State) (w : Word) : (acceptCommand w s).resetLine = s.resetLine := (rfl)
@[simp] theorem acceptCommand_schedule (s : State) (w : Word) : (acceptCommand w s).schedule = s.schedule := (rfl)
@[simp] theorem acceptCommand_busData (s : State) (w : Word) : (acceptCommand w s).busData = s.busData := (rfl)
@[simp] theorem acceptCommand_draws (s : State) (w : Word) : (acceptCommand w s).draws = s.draws := (rfl)
@[simp] theorem acceptCommand_resetDraw (s : State) (w : Word) : (acceptCommand w s).resetDraw = s.resetDraw := (rfl)
@[simp] theorem acceptCommand_readByte (s : State) (w : Word) (a : Nat) : (acceptCommand w s).readByte a = s.readByte a := (rfl)
@[simp] theorem acceptCommand_readBytes (s : State) (w : Word) (a n : Nat) : (acceptCommand w s).readBytes a n = s.readBytes a n := (rfl)
@[simp] theorem acceptCommand_readWord (s : State) (w : Word) (a : Nat) : (acceptCommand w s).readWord a = s.readWord a := (rfl)
@[simp] theorem acceptCommand_buffer (s : State) (w : Word) (c : Buf) : (acceptCommand w s).buffer c = s.buffer c := (rfl)
@[simp] theorem acceptCommand_nonce (s : State) (w : Word) : (acceptCommand w s).nonce = s.nonce := (rfl)
@[simp] theorem acceptCommand_key (s : State) (w : Word) : (acceptCommand w s).key = s.key := (rfl)
@[simp] theorem acceptCommand_xpol (s : State) (w : Word) : (acceptCommand w s).xpol = s.xpol := (rfl)
@[simp] theorem acceptCommand_mroot (s : State) (w : Word) : (acceptCommand w s).mroot = s.mroot := (rfl)

/-! What a buffer write does to each view. -/

@[simp] theorem readBytes_length (s : State) (a n : Nat) : (s.readBytes a n).length = n := by
  simp [State.readBytes]

theorem readBytes_getD (s : State) (a n i : Nat) (h : i < n) : (s.readBytes a n).getD i 0 = s.readByte (a + i) := by
  simp [State.readBytes, List.getD_eq_getElem?_getD, h]

@[simp] theorem buffer_length (s : State) (b : Buf) : (s.buffer b).length = bufSize b := readBytes_length _ _ _

theorem buffer_getD (s : State) (b : Buf) (i : Nat) (h : i < bufSize b) :
    (s.buffer b).getD i 0 = s.readByte (bufBase b + i) := readBytes_getD _ _ _ _ h

/-- A list of bytes is what its indices read. -/
theorem eq_of_getD {xs ys : List Byte} (hl : xs.length = ys.length) (h : ∀ i, i < xs.length → xs.getD i 0 = ys.getD i 0) :
    xs = ys := by
  apply List.ext_getElem hl
  intro i h1 h2
  have := h i h1
  simpa [List.getD_eq_getElem?_getD, h1, h2] using this

theorem readBytes_congr {s t : State} {a n : Nat} (h : ∀ i, i < n → t.readByte (a + i) = s.readByte (a + i)) :
    t.readBytes a n = s.readBytes a n := by
  simp only [State.readBytes]
  exact List.map_congr_left (fun i hi => h i (List.mem_range.mp hi))

theorem readWord_congr {s t : State} {a : Nat} (h : ∀ i, i < 4 → t.readByte (a + i) = s.readByte (a + i)) :
    t.readWord a = s.readWord a := by
  have h0 := h 0 (by decide)
  have h1 := h 1 (by decide)
  have h2 := h 2 (by decide)
  have h3 := h 3 (by decide)
  simp only [Nat.add_zero] at h0
  simp only [State.readWord, h0, h1, h2, h3]

/-- The bytes of a range read one after another are the range (rule R9). -/
theorem readBytes_add (s : State) (a m n : Nat) :
    s.readBytes a (m + n) = s.readBytes a m ++ s.readBytes (a + m) n := by
  simp only [State.readBytes, List.range_add, List.map_append, List.map_map]
  congr 1
  apply List.map_congr_left
  intro i _
  simp [Nat.add_assoc]

theorem readBytes_four (s : State) (a : Nat) :
    s.readBytes a 4 = [s.readByte a, s.readByte (a + 1), s.readByte (a + 2), s.readByte (a + 3)] := rfl

/-- The little-endian bytes of the word at an offset are the bytes there (rule R84). -/
theorem toLE32_readWord (s : State) (a : Nat) : toLE32 (s.readWord a) = s.readBytes a 4 := by
  rw [State.readWord, toLE32_le32, readBytes_four]

/-- The word of a buffer's bytes is the word at their offset (rules R10, R84). -/
theorem le32At_readBytes (s : State) (a n i : Nat) (h : i + 4 ≤ n) :
    le32At (s.readBytes a n) i = s.readWord (a + i) := by
  rw [le32At, readBytes_getD _ _ _ _ (by omega), readBytes_getD _ _ _ _ (by omega),
    readBytes_getD _ _ _ _ (by omega), readBytes_getD _ _ _ _ (by omega)]
  rfl

theorem readByte_store (s : State) (a : Nat) (bs : List Byte) (x : Nat) :
    ({ s with mem := s.mem.store a bs } : State).readByte x =
      if a ≤ x ∧ x < a + bs.length then bs.getD (x - a) 0 else s.readByte x := by
  simp only [State.readByte, Memory.get_store]
  by_cases h : a ≤ x ∧ x < a + bs.length <;> simp [h]

/-- What a buffer write does to every byte: the spec lemma of `State.writeBuf`. -/
theorem readByte_writeBuf (s : State) (b : Buf) (k : Nat) (bs : List Byte) (x : Nat) :
    (s.writeBuf b k bs).readByte x =
      if bufBase b + k ≤ x ∧ x < bufBase b + k + bs.length then bs.getD (x - (bufBase b + k)) 0 else s.readByte x :=
  readByte_store s _ bs x

/-- A byte outside the written range reads as before. -/
theorem readByte_writeBuf_of_not (s : State) (b : Buf) (k : Nat) (bs : List Byte) (x : Nat)
    (h : x < bufBase b + k ∨ bufBase b + k + bs.length ≤ x) : (s.writeBuf b k bs).readByte x = s.readByte x := by
  rw [readByte_writeBuf, if_neg (by omega)]

/-- A byte inside the written range reads what was written. -/
theorem readByte_writeBuf_of_mem (s : State) (b : Buf) (k : Nat) (bs : List Byte) (i : Nat) (h : i < bs.length) :
    (s.writeBuf b k bs).readByte (bufBase b + k + i) = bs.getD i 0 := by
  rw [readByte_writeBuf, if_pos (by omega), Nat.add_sub_cancel_left]

theorem readBytes_writeBuf_self (s : State) (b : Buf) (k : Nat) (bs : List Byte) :
    (s.writeBuf b k bs).readBytes (bufBase b + k) bs.length = bs := by
  apply eq_of_getD (by simp)
  intro i hi
  rw [readBytes_length] at hi
  rw [readBytes_getD _ _ _ _ hi, readByte_writeBuf_of_mem _ _ _ _ _ hi]

theorem readBytes_writeBuf_of_not (s : State) (b : Buf) (k : Nat) (bs : List Byte) (a n : Nat)
    (h : a + n ≤ bufBase b + k ∨ bufBase b + k + bs.length ≤ a) :
    (s.writeBuf b k bs).readBytes a n = s.readBytes a n :=
  readBytes_congr (fun i hi => readByte_writeBuf_of_not _ _ _ _ _ (by omega))

theorem readWord_writeBuf_of_not (s : State) (b : Buf) (k : Nat) (bs : List Byte) (a : Nat)
    (h : a + 4 ≤ bufBase b + k ∨ bufBase b + k + bs.length ≤ a) :
    (s.writeBuf b k bs).readWord a = s.readWord a :=
  readWord_congr (fun i hi => readByte_writeBuf_of_not _ _ _ _ _ (by omega))

/-- Writing the whole of a buffer makes it what was written. -/
theorem buffer_writeBuf_self (s : State) (b : Buf) (bs : List Byte) (h : bs.length = bufSize b) :
    (s.writeBuf b 0 bs).buffer b = bs := by
  have := readBytes_writeBuf_self s b 0 bs
  rwa [Nat.add_zero, h] at this

/-- Writing inside one buffer leaves every other buffer. -/
theorem buffer_writeBuf_other (s : State) {b c : Buf} (k : Nat) (bs : List Byte) (h : b ≠ c)
    (hk : k + bs.length ≤ bufSize b) : (s.writeBuf b k bs).buffer c = s.buffer c := by
  apply readBytes_writeBuf_of_not
  have := buf_disjoint h
  omega

/-- Writing inside one buffer leaves every byte outside that buffer. -/
theorem readByte_writeBuf_outside (s : State) {b : Buf} (k : Nat) (bs : List Byte) (x : Nat)
    (hk : k + bs.length ≤ bufSize b) (hx : x < bufBase b ∨ bufBase b + bufSize b ≤ x) :
    (s.writeBuf b k bs).readByte x = s.readByte x :=
  readByte_writeBuf_of_not _ _ _ _ _ (by omega)

theorem readByte_setNonce (s : State) (v : Word) (x : Nat) (h : x < nonceOffset ∨ nonceOffset + 4 ≤ x) :
    (s.setNonce v).readByte x = s.readByte x :=
  readByte_writeBuf_of_not _ _ _ _ _ (by simpa [nonceOffset, bufBase] using h)

/-- The nonce written is the nonce read (rule R39). -/
@[simp] theorem nonce_setNonce (s : State) (v : Word) : (s.setNonce v).nonce = v := by
  have h := readBytes_writeBuf_self s .header 76 (toLE32 v)
  have h2 := toLE32_readWord (s.setNonce v) nonceOffset
  exact toLE32_injective (h2.trans h)

/-- A write of another buffer leaves the nonce. -/
theorem nonce_writeBuf_other (s : State) {b : Buf} (k : Nat) (bs : List Byte) (h : b ≠ .header)
    (hk : k + bs.length ≤ bufSize b) : (s.writeBuf b k bs).nonce = s.nonce := by
  apply readWord_writeBuf_of_not
  have h1 := buf_disjoint h
  have h2 : bufBase .header = 128 := rfl
  have h3 : bufSize .header = 80 := rfl
  have h4 : nonceOffset = 204 := rfl
  omega

theorem readByte_recordBest (s : State) (h : List Byte) (nc : Word) (x : Nat) (hl : h.length = 32)
    (hx : x < bufBase .bestHash ∨ bufBase .bestHash + 32 ≤ x) : (s.recordBest h nc).readByte x = s.readByte x :=
  readByte_writeBuf_of_not _ _ _ _ _ (by simp only [hl]; omega)

theorem buffer_recordBest_self (s : State) (h : List Byte) (nc : Word) (hl : h.length = 32) :
    (s.recordBest h nc).buffer .bestHash = h := buffer_writeBuf_self s .bestHash h hl

theorem buffer_recordBest_other (s : State) (h : List Byte) (nc : Word) (hl : h.length = 32) {c : Buf}
    (hc : .bestHash ≠ c) : (s.recordBest h nc).buffer c = s.buffer c :=
  buffer_writeBuf_other s 0 h hc (by simp [hl, bufSize])

theorem nonce_recordBest (s : State) (h : List Byte) (nc : Word) (hl : h.length = 32) :
    (s.recordBest h nc).nonce = s.nonce :=
  nonce_writeBuf_other s 0 h (by decide) (by simp [hl, bufSize])

theorem buffer_setNonce_other (s : State) (v : Word) {c : Buf} (hc : .header ≠ c) :
    (s.setNonce v).buffer c = s.buffer c :=
  buffer_writeBuf_other s 76 _ hc (by simp [bufSize])

/-- The header with the nonce written: its other 76 bytes stay (rules R222, R225). -/
theorem buffer_setNonce_header (s : State) (v : Word) : (s.setNonce v).buffer .header = headerAt s v := by
  have h1 : (s.setNonce v).buffer .header =
      (s.setNonce v).readBytes (bufBase .header) 76 ++ (s.setNonce v).readBytes nonceOffset 4 :=
    readBytes_add _ _ 76 4
  have h2 : s.buffer .header = s.readBytes (bufBase .header) 76 ++ s.readBytes nonceOffset 4 :=
    readBytes_add _ _ 76 4
  rw [h1, headerAt, h2, List.take_left' (by simp)]
  congr 1
  · exact readBytes_writeBuf_of_not _ _ _ _ _ _ (by simp)
  · exact readBytes_writeBuf_self s .header 76 (toLE32 v)

/-- The header is its own header at its own nonce. -/
theorem headerAt_nonce (s : State) : headerAt s s.nonce = s.buffer .header := by
  have h2 : s.buffer .header = s.readBytes (bufBase .header) 76 ++ s.readBytes nonceOffset 4 :=
    readBytes_add _ _ 76 4
  rw [headerAt, State.nonce, toLE32_readWord, h2, List.take_left' (by simp)]

@[simp] theorem drawnBytes_length (d a n : Nat) : (drawnBytes d a n).length = n := by simp [drawnBytes]

theorem drawnBytes_getD (d a n i : Nat) (h : i < n) : (drawnBytes d a n).getD i 0 = Config.drawByte d (a + i) := by
  simp [drawnBytes, List.getD_eq_getElem?_getD, h]

end Sys2Proof.Machine
end

