-- ==== Sys2Proof/Laws/Bus.lean ====
section
/-! SUPPORT. The address map and the bus: where each location stands, and what one access can do. -/

namespace Sys2Proof.Machine

theorem windowOffset_base (o : Nat) (h : o < 4096) : windowOffset (Config.base + o) = some o := by
  have e : Config.windowBytes = 4096 := rfl
  unfold windowOffset
  rw [e, if_pos (by omega), Nat.add_sub_cancel_left]

theorem windowOffset_eq_some {a o : Nat} (h : windowOffset a = some o) : a = Config.base + o ∧ o < 4096 := by
  have e : Config.windowBytes = 4096 := rfl
  unfold windowOffset at h
  rw [e] at h
  split at h
  · cases h; omega
  · cases h

theorem windowOffset_eq_none (a : Nat) :
    windowOffset a = none ↔ a < Config.base ∨ Config.base + 4096 ≤ a := by
  have e : Config.windowBytes = 4096 := rfl
  unfold windowOffset
  rw [e]
  split <;> simp <;> omega

/-- `BASE` is aligned (rule R82), so an address and its offset have the same alignment. -/
theorem base_add_mod (o : Nat) : (Config.base + o) % 4 = o % 4 := by
  unfold Config.base; omega

theorem regOffset_mod (r : Reg) : regOffset r % 4 = 0 := by cases r <;> rfl

theorem regOffset_lt (r : Reg) : regOffset r < 4096 := by cases r <;> decide

theorem bufBase_mod (b : Buf) : bufBase b % 4 = 0 ∧ bufSize b % 4 = 0 := by cases b <;> decide

theorem bufBase_bounds (b : Buf) : bufBase b + bufSize b ≤ 4096 := by cases b <;> decide

/-- No register overlaps a buffer (rule R87). -/
theorem reg_buf_disjoint (r : Reg) (b : Buf) : regOffset r + 4 ≤ bufBase b ∨ bufBase b + bufSize b ≤ regOffset r := by
  cases b <;> cases r <;> decide

theorem regOffset_injective {r q : Reg} (h : regOffset r = regOffset q) : r = q := by
  revert h; cases r <;> cases q <;> decide

theorem mem_allRegs (r : Reg) : r ∈ allRegs := by cases r <;> decide

theorem mem_allBufs (b : Buf) : b ∈ allBufs := by cases b <;> decide

/-- What `locate` says about an offset, case by case (rule R87). -/
theorem locate_cases (o : Nat) :
    (∃ r, locate o = .reg r ∧ regOffset r ≤ o ∧ o < regOffset r + 4) ∨
    (∃ b, locate o = .buf b ∧ bufBase b ≤ o ∧ o < bufBase b + bufSize b) ∨
    (locate o = .reserved ∧ (∀ r, ¬(regOffset r ≤ o ∧ o < regOffset r + 4)) ∧
      ∀ b, ¬(bufBase b ≤ o ∧ o < bufBase b + bufSize b)) := by
  unfold locate
  cases hr : allRegs.find? (fun r => decide (regOffset r ≤ o ∧ o < regOffset r + 4)) with
  | some r => exact .inl ⟨r, rfl, by simpa using List.find?_some hr⟩
  | none =>
    refine .inr ?_
    rw [List.find?_eq_none] at hr
    cases hb : allBufs.find? (fun b => decide (bufBase b ≤ o ∧ o < bufBase b + bufSize b)) with
    | some b => exact .inl ⟨b, rfl, by simpa using List.find?_some hb⟩
    | none =>
      rw [List.find?_eq_none] at hb
      exact .inr ⟨rfl, fun r h => hr r (mem_allRegs r) (by simpa using h),
        fun b h => hb b (mem_allBufs b) (by simpa using h)⟩

/-- An aligned offset is a register exactly when it is that register's offset. -/
theorem locate_eq_reg {o : Nat} (ho : o % 4 = 0) (r : Reg) : locate o = .reg r ↔ o = regOffset r := by
  have hq : ∀ q, regOffset q ≤ o ∧ o < regOffset q + 4 → o = regOffset q := fun q h => by
    have := regOffset_mod q; omega
  rcases locate_cases o with ⟨q, e, h⟩ | ⟨b, e, h⟩ | ⟨e, h, -⟩ <;> rw [e]
  · have h := hq q h
    constructor
    · intro e; cases e; exact h
    · intro e; rw [regOffset_injective (h.symm.trans e)]
  · have := reg_buf_disjoint r b
    constructor
    · intro e; cases e
    · intro e; omega
  · constructor
    · intro e; cases e
    · intro e; exact absurd ⟨by omega, by omega⟩ (h r)

/-- An offset is in a buffer exactly when it is in that buffer's range. -/
theorem locate_eq_buf (o : Nat) (b : Buf) : locate o = .buf b ↔ bufBase b ≤ o ∧ o < bufBase b + bufSize b := by
  rcases locate_cases o with ⟨q, e, h⟩ | ⟨c, e, h⟩ | ⟨e, -, h⟩ <;> rw [e]
  · have := reg_buf_disjoint q b
    constructor
    · intro e; cases e
    · intro hb
      exfalso
      have h4 := bufBase_mod b
      have h5 := regOffset_mod q
      omega
  · constructor
    · intro e; cases e; exact h
    · intro hb
      by_cases hc : c = b
      · rw [hc]
      · have := buf_disjoint hc; omega
  · constructor
    · intro e; cases e
    · intro hb; exact absurd hb (h b)

@[simp] theorem locate_regOffset (r : Reg) : locate (regOffset r) = .reg r := (locate_eq_reg (regOffset_mod r) r).mpr rfl

/-- The three things a read can be (rules R86, R93, R94). -/
theorem hostRead_cases (o : Nat) (s : State) :
    ((∃ w, s.pending = some w ∧ locate o ∈ writeSet (commandOf w)) ∧
      hostRead o s = { s with busData := some (Config.drawWord s.draws), draws := s.draws + 1 }) ∨
    ((∀ w, s.pending = some w → locate o ∉ writeSet (commandOf w)) ∧
      hostRead o s = { s with busData := some (windowWord s o) }) := by
  unfold hostRead unsettled
  cases hp : s.pending with
  | none => exact .inr ⟨fun w h => (by cases h), rfl⟩
  | some w =>
    by_cases h : locate o ∈ writeSet (commandOf w)
    · exact .inl ⟨⟨w, rfl, h⟩, by simp [h, State.countDraw]⟩
    · exact .inr ⟨fun v hv => (by cases hv; exact h), by simp [h]⟩

/-- What a write can do (rules R90, R92). -/
theorem hostWrite_cases (o : Nat) (v : Word) (s : State) :
    (s.busy = true ∧ locate o = .reg .estat ∧ hostWrite o v s = writeEstat v s) ∨
    (s.busy = true ∧ locate o ≠ .reg .estat ∧ hostWrite o v s = { s with ovr := true }) ∨
    (s.busy = false ∧ hostWrite o v s = writeWindow o v s) := by
  unfold hostWrite
  cases hb : s.busy with
  | false => exact .inr (.inr ⟨rfl, rfl⟩)
  | true =>
    by_cases h : locate o = .reg .estat
    · exact .inl ⟨rfl, h, by simp [h]⟩
    · exact .inr (.inl ⟨rfl, h, by simp [h]⟩)

theorem writeEstat_eq (v : Word) (s : State) :
    writeEstat v s = { s with ovr := if v.getLsbD 1 then false else s.ovr } := by
  unfold writeEstat; split <;> rfl

/-- The three kinds of host access outside reset: at an offset of the window, ill formed in the window, and elsewhere
(rules R82, R83). -/
theorem hostAccess_cases (a : Access) (s : State) (h : s.resetLine = false) :
    (∃ o, a.addr = Config.base + o ∧ o < 4096 ∧ a.wellFormed = true ∧
      ((a.kind = .read ∧ hostAccess a s = .next (hostRead o s)) ∨
        ∃ v, a.kind = .write v ∧ hostAccess a s = .next (hostWrite o v { s with busData := none }))) ∨
    (a.wellFormed = false ∧ windowOffset a.addr ≠ none ∧ hostAccess a s = .fault (.busError a.addr)) ∨
    (windowOffset a.addr = none ∧ hostAccess a s = .next { s with busData := none }) := by
  unfold hostAccess
  rw [if_neg (by rw [h]; decide)]
  cases hw : windowOffset a.addr with
  | none => exact .inr (.inr ⟨rfl, rfl⟩)
  | some o =>
    obtain ⟨ha, ho⟩ := windowOffset_eq_some hw
    have hm : a.addr % 4 = o % 4 := by rw [ha, base_add_mod]
    have hwf : a.wellFormed = true ↔ a.width = 4 ∧ o % 4 = 0 := by simp [Access.wellFormed, hm]
    dsimp only
    unfold windowAccess
    by_cases hc : a.width = 4 ∧ o % 4 = 0
    · refine .inl ⟨o, ha, ho, hwf.mpr hc, ?_⟩
      rw [if_pos hc]
      cases hk : a.kind with
      | read => exact .inl ⟨rfl, rfl⟩
      | write v => exact .inr ⟨v, rfl, rfl⟩
    · refine .inr (.inl ⟨?_, by simp, ?_⟩)
      · rw [Bool.eq_false_iff, Ne, hwf]; exact hc
      · rw [if_neg hc]; rfl

/-- What a write of a register can do: a control or argument register takes a value, `CMD` is accepted, or `OVR` is
cleared (rules R86, R88, R90). Nothing else of the state changes. -/
theorem writeReg_eq (r : Reg) (v : Word) (s : State) :
    writeReg r v s =
      { s with
        cmd := (writeReg r v s).cmd, ctrl := (writeReg r v s).ctrl, pending := (writeReg r v s).pending
        ovr := (writeReg r v s).ovr, argCbLen := (writeReg r v s).argCbLen, argHeight := (writeReg r v s).argHeight
        argPathLen := (writeReg r v s).argPathLen, argCycles := (writeReg r v s).argCycles
        key0 := (writeReg r v s).key0, key1 := (writeReg r v s).key1, key2 := (writeReg r v s).key2
        key3 := (writeReg r v s).key3, clen := (writeReg r v s).clen, ccap := (writeReg r v s).ccap } := by
  cases r
  case estat => simp only [writeReg, writeEstat_eq]
  all_goals rfl

/-- What a write changes no bit of: the session, the results and everything about the bus and the reset input (rules
R86, R88). -/
theorem hostWrite_keeps (o : Nat) (v : Word) (s : State) :
    (hostWrite o v s).result = s.result ∧ (hostWrite o v s).status = s.status ∧ (hostWrite o v s).height =
    s.height ∧ (hostWrite o v s).nonce2 = s.nonce2 ∧ (hostWrite o v s).startNonce = s.startNonce ∧ (hostWrite
    o v s).bestNonce = s.bestNonce ∧ (hostWrite o v s).hashTime = s.hashTime ∧ (hostWrite o v s).cbLen =
    s.cbLen ∧ (hostWrite o v s).pathLen = s.pathLen ∧ (hostWrite o v s).cres = s.cres ∧ (hostWrite o v
    s).resetLine = s.resetLine ∧ (hostWrite o v s).schedule = s.schedule ∧ (hostWrite o v s).busData =
    s.busData ∧ (hostWrite o v s).draws = s.draws ∧ (hostWrite o v s).resetDraw = s.resetDraw := by
  rcases hostWrite_cases o v s with ⟨-, -, e⟩ | ⟨-, -, e⟩ | ⟨-, e⟩
  · rw [e, writeEstat_eq]; simp
  · rw [e]; simp
  · rw [e]
    unfold writeWindow
    split
    · rw [writeReg_eq]; simp
    · split <;> simp
    · simp

/-- The word at an aligned offset of a buffer is that word of the buffer (rule R84). -/
theorem readWord_of_buffer (s : State) (b : Buf) (o : Nat) (ho : o % 4 = 0) (h1 : bufBase b ≤ o)
    (h2 : o < bufBase b + bufSize b) : s.readWord o = le32At (s.buffer b) (o - bufBase b) := by
  have hm := bufBase_mod b
  rw [State.buffer, le32At_readBytes _ _ _ _ (by omega), Nat.add_sub_cancel' h1]

/-- Where two states agree on a register, or on a buffer, a read of it agrees. -/
theorem windowWord_congr {s t : State} {o : Nat} (ho : o % 4 = 0)
    (hr : ∀ r, locate o = .reg r → readReg t r = readReg s r)
    (hb : ∀ b, locate o = .buf b → t.buffer b = s.buffer b) : windowWord t o = windowWord s o := by
  unfold windowWord
  cases hl : locate o with
  | reg r => exact hr r hl
  | buf b =>
    obtain ⟨h1, h2⟩ := (locate_eq_buf o b).mp hl
    dsimp only
    rw [readWord_of_buffer t b o ho h1 h2, readWord_of_buffer s b o ho h1 h2, hb b hl]
  | reserved => rfl

theorem windowWord_reg (s : State) (r : Reg) : windowWord s (regOffset r) = readReg s r := by
  unfold windowWord
  rw [locate_regOffset]

theorem windowWord_buf {s : State} {o : Nat} {b : Buf} (h : locate o = .buf b) : windowWord s o = s.readWord o := by
  unfold windowWord
  rw [h]

theorem windowWord_reserved {s : State} {o : Nat} (h : locate o = .reserved) : windowWord s o = 0 := by
  unfold windowWord
  rw [h]

/-- `ESTAT` reads the same where `BUSY` and `OVR` are the same (rule R35). -/
theorem estatWord_congr {s t : State} (hp : t.pending = s.pending) (ho : t.ovr = s.ovr) : t.estatWord = s.estatWord := by
  unfold State.estatWord State.busy
  rw [hp, ho]

end Sys2Proof.Machine
end

