-- ==== Sys2Proof/Laws/Cipher.lean ====
section
/-! SUPPORT. The payload cipher: XTEA's inverse law, the mode's inverse law, and the words of a region. -/

namespace Sys2Proof.Machine

/-- `sum` after `n` cycles. -/
def xteaSum (n : Nat) (sum : Word) : Word := sum + BitVec.ofNat 32 n * xteaDelta

theorem xteaSum_succ (n : Nat) (sum : Word) : xteaSum (n + 1) sum = xteaSum n (sum + xteaDelta) := by
  rw [xteaSum, xteaSum, BitVec.ofNat_add, show BitVec.ofNat 32 1 = (1 : Word) from rfl]
  ring

theorem xteaSum_succ' (n : Nat) (sum : Word) : xteaSum (n + 1) sum = xteaSum n sum + xteaDelta := by
  rw [xteaSum, xteaSum, BitVec.ofNat_add, show BitVec.ofNat 32 1 = (1 : Word) from rfl]
  ring

/-- The last cycle of an encipherment, made explicit. -/
theorem xteaEncCycles_succ (k : Key) (n : Nat) (sum : Word) (b : Block) :
    xteaEncCycles k (n + 1) sum b = xteaEncCycles k 1 (xteaSum n sum) (xteaEncCycles k n sum b) := by
  induction n generalizing sum b with
  | zero => simp [xteaEncCycles, xteaSum]
  | succ n ih =>
    obtain ⟨v0, v1⟩ := b
    rw [xteaEncCycles, ih, ← xteaSum_succ]
    rfl

/-- One cycle of the decipherment undoes one cycle of the encipherment (rules R259, R260). -/
theorem xteaDecCycles_one (k : Key) (sum : Word) (b : Block) :
    xteaDecCycles k 1 (sum + xteaDelta) (xteaEncCycles k 1 sum b) = b := by
  obtain ⟨v0, v1⟩ := b
  simp [xteaEncCycles, xteaDecCycles]

theorem xteaDecCycles_succ (k : Key) (n : Nat) (sum : Word) (b : Block) :
    xteaDecCycles k (n + 1) sum b = xteaDecCycles k n (sum - xteaDelta) (xteaDecCycles k 1 sum b) := by
  obtain ⟨v0, v1⟩ := b
  rfl

/-- The inverse law over any number of cycles (rules R251, R260). -/
theorem xteaDecCycles_xteaEncCycles (k : Key) (n : Nat) (sum : Word) (b : Block) :
    xteaDecCycles k n (xteaSum n sum) (xteaEncCycles k n sum b) = b := by
  induction n with
  | zero => rfl
  | succ n ih =>
    rw [xteaEncCycles_succ, xteaSum_succ', xteaDecCycles_succ, xteaDecCycles_one, BitVec.add_sub_cancel, ih]

@[simp] theorem ecb_length (f : Block → Block) (ws : List Word) : (ecb f ws).length = ws.length := by
  induction ws using ecb.induct with
  | case1 x y rest ih => simp [ecb, ih]
  | case2 ws h => rw [ecb]; exact h

/-- The mode undoes itself under the inverse law (rules R253, R254). -/
theorem ecb_inverse {e d : Block → Block} (h : ∀ b, d (e b) = b) (ws : List Word) : ecb d (ecb e ws) = ws := by
  induction ws using ecb.induct with
  | case1 x y rest ih => simp [ecb, ih, h]
  | case2 ws hw =>
    have h1 : ∀ f : Block → Block, ecb f ws = ws := fun f => by rw [ecb]; exact hw
    rw [h1, h1]

/-- Word pairs are taken from word 0 on (rule R253). -/
theorem ecb_pair (f : Block → Block) (ws : List Word) (j : Nat) (hj : j % 2 = 0) (hl : j + 1 < ws.length) :
    ((ecb f ws).getD j 0, (ecb f ws).getD (j + 1) 0) = f (ws.getD j 0, ws.getD (j + 1) 0) := by
  induction ws using ecb.induct generalizing j with
  | case1 x y rest ih =>
    match j, hj with
    | 0, _ => simp [ecb]
    | j + 2, hj =>
      have := ih j (by omega) (by simp at hl; omega)
      simpa [ecb] using this
  | case2 ws hw =>
    match ws, hw with
    | [], _ => simp at hl
    | [_], _ => simp at hl
    | a :: b :: r, hw => exact absurd rfl (hw a b r)

/-- A trailing unpaired word stays as it is (rules R253, R266). -/
theorem ecb_last (f : Block → Block) (ws : List Word) (h : ws.length % 2 = 1) :
    (ecb f ws).getD (ws.length - 1) 0 = ws.getD (ws.length - 1) 0 := by
  induction ws using ecb.induct with
  | case1 x y rest ih =>
    have hr : rest.length % 2 = 1 := by simp at h; omega
    have e : (x :: y :: rest).length - 1 = (rest.length - 1) + 1 + 1 := by simp; omega
    rw [e]
    simpa [ecb] using ih hr
  | case2 ws hw => rw [ecb]; exact hw

theorem cipherRegion_length (f : Block → Block) (bs : List Byte) (h : bs.length % 4 = 0) :
    (cipherRegion f bs).length = bs.length := by
  simp only [cipherRegion, wordsToBytes_length, ecb_length, bytesToWords_length]
  omega

theorem cipherRegion_inverse {e d : Block → Block} (h : ∀ b, d (e b) = b) (bs : List Byte) (hl : bs.length % 4 = 0) :
    cipherRegion d (cipherRegion e bs) = bs := by
  simp only [cipherRegion, bytesToWords_wordsToBytes, ecb_inverse h]
  exact wordsToBytes_bytesToWords bs hl

/-- Word `j` of a region is its bytes from `4j` on (rule R252). -/
theorem bytesToWords_getD (bs : List Byte) (j : Nat) (h : 4 * j + 4 ≤ bs.length) :
    (bytesToWords bs).getD j 0 = le32At bs (4 * j) := by
  induction bs using bytesToWords.induct generalizing j with
  | case1 b0 b1 b2 b3 rest ih =>
    match j with
    | 0 => simp [bytesToWords, le32At]
    | j + 1 =>
      have := ih j (by simp at h; omega)
      rw [bytesToWords, List.getD_cons_succ, this]
      have e : 4 * (j + 1) = 4 * j + 1 + 1 + 1 + 1 := by omega
      have e1 : ∀ i, (b0 :: b1 :: b2 :: b3 :: rest).getD (i + 1 + 1 + 1 + 1) 0 = rest.getD i 0 := by
        intro i; simp
      have e2 : ∀ i c, 4 * j + 1 + 1 + 1 + 1 + c = i + c → (4 * j + c) + 1 + 1 + 1 + 1 = i + c := by omega
      simp only [le32At, e]
      rw [show 4 * j + 1 + 1 + 1 + 1 + 1 = (4 * j + 1) + 1 + 1 + 1 + 1 by omega,
        show 4 * j + 1 + 1 + 1 + 1 + 2 = (4 * j + 2) + 1 + 1 + 1 + 1 by omega,
        show 4 * j + 1 + 1 + 1 + 1 + 3 = (4 * j + 3) + 1 + 1 + 1 + 1 by omega, e1, e1, e1, e1]
  | case2 bs hb =>
    match bs, hb with
    | [], _ => simp at h
    | [_], _ => simp at h
    | [_, _], _ => simp at h
    | [_, _, _], _ => simp at h
    | a :: b :: c :: d :: r, hb => exact absurd rfl (hb a b c d r)

/-- The words of a ciphered region, word by word. -/
theorem le32At_cipherRegion (f : Block → Block) (bs : List Byte) (j : Nat) (hm : bs.length % 4 = 0)
    (h : 4 * j + 4 ≤ bs.length) : le32At (cipherRegion f bs) (4 * j) = (ecb f (bytesToWords bs)).getD j 0 := by
  rw [← bytesToWords_getD (cipherRegion f bs) j (by rw [cipherRegion_length f bs hm]; exact h), cipherRegion,
    bytesToWords_wordsToBytes]

/-- A word pair of a ciphered region is the image of the pair before (rules R252, R253). -/
theorem cipherRegion_pair (f : Block → Block) (bs : List Byte) (j : Nat) (hm : bs.length % 4 = 0) (hj : j % 2 = 0)
    (h : 4 * j + 8 ≤ bs.length) :
    (le32At (cipherRegion f bs) (4 * j), le32At (cipherRegion f bs) (4 * j + 4)) =
      f (le32At bs (4 * j), le32At bs (4 * j + 4)) := by
  have h2 := le32At_cipherRegion f bs (j + 1) hm (by omega)
  rw [show 4 * (j + 1) = 4 * j + 4 by omega] at h2
  rw [le32At_cipherRegion f bs j hm (by omega), h2,
    ecb_pair f _ j hj (by rw [bytesToWords_length]; omega), bytesToWords_getD bs j (by omega),
    bytesToWords_getD bs (j + 1) (by omega), show 4 * (j + 1) = 4 * j + 4 by omega]

/-- The last word of a region of an odd number of words stays (rules R253, R266). -/
theorem cipherRegion_last (f : Block → Block) (bs : List Byte) (hm : bs.length % 4 = 0)
    (ho : bs.length / 4 % 2 = 1) :
    le32At (cipherRegion f bs) (bs.length - 4) = le32At bs (bs.length - 4) := by
  have hl : (bytesToWords bs).length = bs.length / 4 := bytesToWords_length bs
  have e : bs.length - 4 = 4 * (bs.length / 4 - 1) := by omega
  rw [e, le32At_cipherRegion f bs _ hm (by omega), ← bytesToWords_getD bs _ (by omega)]
  have := ecb_last f (bytesToWords bs) (by rw [hl]; exact ho)
  rwa [hl] at this

theorem padCount_bounds (n : Nat) : 1 ≤ padCount n ∧ padCount n ≤ 4 ∧ (n + padCount n) % 4 = 0 := by
  unfold padCount; omega

@[simp] theorem padded_length (bs : List Byte) : (padded bs).length = bs.length + padCount bs.length := by
  simp [padded]

/-- A length's two readings agree where it is not negative (rule R53). -/
theorem clen_toInt (s : State) (h : s.clen.toNat < 2 ^ 31) : s.clen.toInt = (s.clen.toNat : Int) :=
  BitVec.toInt_eq_toNat_of_lt (by omega)

theorem clen_toNat (s : State) (h : 0 ≤ s.clen.toInt) :
    (s.clen.toNat : Int) = s.clen.toInt ∧ s.clen.toNat < 2 ^ 31 := by
  have := s.clen.isLt
  rw [BitVec.toInt_eq_toNat_cond] at h ⊢
  split at h <;> split <;> omega

/-- The region ENCRYPT writes back (rule R255). -/
def encryptedRegion (e : Key → Block → Block) (n : Nat) (s : State) : List Byte :=
  cipherRegion (e s.key) (padded (s.readBytes (bufBase .cbuf) n))

theorem encryptedRegion_length (e : Key → Block → Block) (n : Nat) (s : State) :
    (encryptedRegion e n s).length = n + padCount n := by
  have := padCount_bounds n
  rw [encryptedRegion, cipherRegion_length] <;> simp [this]

/-- The three outcomes of ENCRYPT (rules R255, R256, R263, R264). -/
theorem encryptEffect_cases (e : Key → Block → Block) (s : State) :
    (s.clen.toInt = 0 ∧ encryptEffect e s = (s.setCres 0).setResult .ok) ∨
    ((s.clen.toInt < 0 ∨ (0 < s.clen.toInt ∧
        (s.ccap.toNat < s.clen.toNat + padCount s.clen.toNat ∨ 2048 < s.clen.toNat + padCount s.clen.toNat))) ∧
      encryptEffect e s = (s.setCres 0xFFFFFFFF).setResult .einval) ∨
    (0 < s.clen.toInt ∧ s.clen.toNat + padCount s.clen.toNat ≤ s.ccap.toNat ∧
      s.clen.toNat + padCount s.clen.toNat ≤ 2048 ∧
      encryptEffect e s = ((s.writeBuf .cbuf 0 (encryptedRegion e s.clen.toNat s)).setCres
        (BitVec.ofNat 32 (s.clen.toNat + padCount s.clen.toNat))).setResult .ok) := by
  have e1 : s.opLength = s.clen.toInt := rfl
  have e2 : s.opCapacity = s.ccap.toNat := rfl
  have e3 : Config.cbufBytes = 2048 := rfl
  unfold encryptEffect
  rw [e1]
  by_cases h0 : s.clen.toInt = 0
  · rw [if_pos h0]; exact .inl ⟨h0, rfl⟩
  rw [if_neg h0]
  by_cases hn : s.clen.toInt < 0
  · rw [if_pos hn]; exact .inr (.inl ⟨.inl hn, rfl⟩)
  rw [if_neg hn]
  have h := clen_toNat s (by omega)
  have e4 : s.clen.toInt.toNat = s.clen.toNat := by omega
  rw [e4]
  unfold encryptPayload
  rw [e2, e3]
  by_cases hc : s.ccap.toNat < s.clen.toNat + padCount s.clen.toNat ∨ 2048 < s.clen.toNat + padCount s.clen.toNat
  · exact .inr (.inl ⟨.inr ⟨by omega, hc⟩, if_pos hc⟩)
  · exact .inr (.inr ⟨by omega, by omega, by omega, if_neg hc⟩)

/-- The region DECRYPT writes back (rule R257). -/
def decryptedRegion (d : Key → Block → Block) (n : Nat) (s : State) : List Byte :=
  cipherRegion (d s.key) (s.readBytes (bufBase .cbuf) n)

theorem decryptedRegion_length (d : Key → Block → Block) (n : Nat) (s : State) (h : n % 4 = 0) :
    (decryptedRegion d n s).length = n := by
  rw [decryptedRegion, cipherRegion_length] <;> simp [h]

/-- The two outcomes of DECRYPT (rules R257, R258). -/
theorem decryptEffect_cases (d : Key → Block → Block) (s : State) :
    ((s.clen.toInt ≤ 0 ∨ s.clen.toInt % 4 ≠ 0 ∨ 2048 < s.clen.toInt) ∧
      decryptEffect d s = (s.setCres s.clen).setResult .einval) ∨
    (0 < s.clen.toNat ∧ s.clen.toNat % 4 = 0 ∧ s.clen.toNat ≤ 2048 ∧
      decryptEffect d s = ((s.writeBuf .cbuf 0 (decryptedRegion d s.clen.toNat s)).setCres
        (BitVec.ofInt 32 ((s.clen.toNat : Int) -
          (((decryptedRegion d s.clen.toNat s).getD (s.clen.toNat - 1) 0).toNat : Int)))).setResult .ok) := by
  have e1 : s.opLength = s.clen.toInt := rfl
  have e3 : (Config.cbufBytes : Int) = 2048 := rfl
  unfold decryptEffect
  rw [e1, e3]
  by_cases hc : s.clen.toInt ≤ 0 ∨ s.clen.toInt % 4 ≠ 0 ∨ 2048 < s.clen.toInt
  · exact .inl ⟨hc, if_pos hc⟩
  · have h := clen_toNat s (by omega)
    have e4 : s.clen.toInt.toNat = s.clen.toNat := by omega
    refine .inr ⟨by omega, by omega, by omega, ?_⟩
    rw [if_neg hc, e4]
    rfl

end Sys2Proof.Machine
end

