-- ==== Sys2Proof/Laws/Hash.lean ====
section
/-! SUPPORT. Lengths and bounds of what the internal functions return: digests, targets and Merkle roots. -/

namespace Sys2Proof.Machine

@[simp] theorem shaDigest_length (v : ShaWords) : (shaDigest v).length = 32 := by simp [shaDigest]

@[simp] theorem sha256_length (m : List Byte) : (sha256 m).length = 32 := by simp [sha256]

@[simp] theorem doubleHash_length (x : List Byte) : (doubleHash x).length = 32 := by simp [doubleHash]

@[simp] theorem merkleFold_length (cb : List Byte) (path : List (List Byte)) : (merkleFold cb path).length = 32 := by
  induction path using List.reverseRecOn with
  | nil => simp [merkleFold]
  | append_singleton path s _ => simp [merkleFold, merkleStep]

/-- The length of a padded message (rule R141). -/
theorem shaPad_length (m : List Byte) :
    (shaPad m).length = m.length + 9 + ((55 - (m.length : Int)) % 64).toNat := by
  simp only [shaPad, List.length_append, List.length_cons, fill_length, toBE64_length]
  omega

theorem compactExponent_eq (bits : Word) : compactExponent bits = bits.toNat / 2 ^ 24 := by
  have := bits.isLt
  simp only [compactExponent, BitVec.extractLsb'_toNat, Nat.shiftRight_eq_div_pow]
  omega

/-- Decoding fails exactly for an exponent of at most 3 or above 32 (rules R171, R172). -/
theorem decodeTarget_eq_none (bits : Word) :
    decodeTarget bits = none ↔ compactExponent bits ≤ 3 ∨ 32 < compactExponent bits := by
  unfold decodeTarget
  dsimp only
  split <;> simp_all

/-- What a successful decoding gives (rule R170). -/
theorem decodeTarget_eq_some {bits : Word} {t : List Byte} (h : decodeTarget bits = some t) :
    4 ≤ compactExponent bits ∧ compactExponent bits ≤ 32 ∧
      t = fill (32 - compactExponent bits) 0 ++ compactMantissa bits ++ fill (compactExponent bits - 3) 0 := by
  unfold decodeTarget at h
  dsimp only at h
  split at h
  · cases h
  · simp only [Option.some.injEq] at h
    exact ⟨by omega, by omega, h.symm⟩

theorem decodeTarget_length {bits : Word} {t : List Byte} (h : decodeTarget bits = some t) : t.length = 32 := by
  obtain ⟨h1, h2, rfl⟩ := decodeTarget_eq_some h
  simp [compactMantissa]
  omega

theorem be256_compactMantissa (bits : Word) : be256 (compactMantissa bits) = bits.toNat % 2 ^ 24 := by
  have := bits.isLt
  simp only [compactMantissa, be256, List.foldl_cons, List.foldl_nil, BitVec.extractLsb'_toNat,
    Nat.shiftRight_eq_div_pow]
  omega

/-- The value of a target is m · 256^(e-3) (rule R170). -/
theorem decodeTarget_value {bits : Word} {t : List Byte} (h : decodeTarget bits = some t) :
    be256 t = bits.toNat % 2 ^ 24 * 256 ^ (compactExponent bits - 3) := by
  obtain ⟨h1, h2, rfl⟩ := decodeTarget_eq_some h
  rw [be256_append, be256_append, be256_fill_zero, be256_fill_zero, be256_compactMantissa]
  simp

/-- Byte 31 of a target is 0 (rule R174). -/
theorem decodeTarget_last {bits : Word} {t : List Byte} (h : decodeTarget bits = some t) : t.getD 31 0 = 0 := by
  obtain ⟨h1, h2, rfl⟩ := decodeTarget_eq_some h
  rw [List.getD_append_right _ _ _ _ (by simp [compactMantissa]; omega)]
  exact fill_zero_getD _ _

/-- Every target is below the value BEGIN gives `BEST_HASH` (rule R174). -/
theorem decodeTarget_lt {bits : Word} {t : List Byte} (h : decodeTarget bits = some t) :
    be256 t < be256 (fill 32 0xFF) := by
  have hv := decodeTarget_value h
  obtain ⟨h1, h2, -⟩ := decodeTarget_eq_some h
  rw [be256_fill_ones, hv]
  have hm : bits.toNat % 2 ^ 24 ≤ 2 ^ 24 - 1 := by omega
  have hp : 256 ^ (compactExponent bits - 3) ≤ 256 ^ 29 := Nat.pow_le_pow_right (by decide) (by omega)
  calc bits.toNat % 2 ^ 24 * 256 ^ (compactExponent bits - 3) ≤ (2 ^ 24 - 1) * 256 ^ 29 := Nat.mul_le_mul hm hp
    _ < 256 ^ 32 - 1 := by norm_num

theorem le256_iff (a b : List Byte) : le256 a b = true ↔ be256 a ≤ be256 b := by simp [le256]

theorem le256_false_iff (a b : List Byte) : le256 a b = false ↔ be256 b < be256 a := by simp [le256]

end Sys2Proof.Machine
end

