-- ==== Sys2Proof/Laws/Mine.lean ====
section
/-! SUPPORT. The nonce search: what one pass can do, how passes add up, and what they leave unchanged. -/

namespace Sys2Proof.Machine

/-- The hash a pass computes (rule R222). -/
def headerHash (s : State) : List Byte := doubleHash (s.buffer .header)

@[simp] theorem headerHash_length (s : State) : (headerHash s).length = 32 := doubleHash_length _

/-- A state that agrees with another outside the fields the search writes, as an update of it. -/
theorem State.eq_of_search {s t : State}
    (h : t.cmd = s.cmd ∧ t.ctrl = s.ctrl ∧ t.pending = s.pending ∧ t.ovr = s.ovr ∧ t.result = s.result ∧
      t.height = s.height ∧ t.startNonce = s.startNonce ∧ t.hashTime = s.hashTime ∧ t.cbLen = s.cbLen ∧
      t.pathLen = s.pathLen ∧ t.argCbLen = s.argCbLen ∧ t.argHeight = s.argHeight ∧ t.argPathLen =
      s.argPathLen ∧ t.argCycles = s.argCycles ∧ t.key0 = s.key0 ∧ t.key1 = s.key1 ∧ t.key2 = s.key2 ∧
      t.key3 = s.key3 ∧ t.clen = s.clen ∧ t.ccap = s.ccap ∧ t.cres = s.cres ∧ t.resetLine = s.resetLine ∧
      t.schedule = s.schedule ∧ t.busData = s.busData ∧ t.draws = s.draws ∧ t.resetDraw = s.resetDraw) :
    t = { s with status := t.status, nonce2 := t.nonce2, bestNonce := t.bestNonce, mem := t.mem } := by
  cases s
  cases t
  simp_all

/-- The two outcomes of best-hash tracking (rules R151, R220). -/
theorem trackBest_cases (h : List Byte) (nc : Word) (s : State) :
    (le256 h (s.buffer .bestHash) = true ∧ trackBest h nc s = s.recordBest h nc) ∨
      (le256 h (s.buffer .bestHash) = false ∧ trackBest h nc s = s) := by
  unfold trackBest
  split
  · exact .inl ⟨‹_›, rfl⟩
  · exact .inr ⟨Bool.eq_false_iff.mpr ‹_›, rfl⟩

@[simp] theorem trackBest_cmd (h : List Byte) (nc : Word) (s : State) : (trackBest h nc s).cmd = s.cmd := by
  rcases trackBest_cases h nc s with ⟨-, e⟩ | ⟨-, e⟩ <;> simp [e]

@[simp] theorem trackBest_ctrl (h : List Byte) (nc : Word) (s : State) : (trackBest h nc s).ctrl = s.ctrl := by
  rcases trackBest_cases h nc s with ⟨-, e⟩ | ⟨-, e⟩ <;> simp [e]

@[simp] theorem trackBest_pending (h : List Byte) (nc : Word) (s : State) : (trackBest h nc s).pending = s.pending := by
  rcases trackBest_cases h nc s with ⟨-, e⟩ | ⟨-, e⟩ <;> simp [e]

@[simp] theorem trackBest_ovr (h : List Byte) (nc : Word) (s : State) : (trackBest h nc s).ovr = s.ovr := by
  rcases trackBest_cases h nc s with ⟨-, e⟩ | ⟨-, e⟩ <;> simp [e]

@[simp] theorem trackBest_result (h : List Byte) (nc : Word) (s : State) : (trackBest h nc s).result = s.result := by
  rcases trackBest_cases h nc s with ⟨-, e⟩ | ⟨-, e⟩ <;> simp [e]

@[simp] theorem trackBest_status (h : List Byte) (nc : Word) (s : State) : (trackBest h nc s).status = s.status := by
  rcases trackBest_cases h nc s with ⟨-, e⟩ | ⟨-, e⟩ <;> simp [e]

@[simp] theorem trackBest_height (h : List Byte) (nc : Word) (s : State) : (trackBest h nc s).height = s.height := by
  rcases trackBest_cases h nc s with ⟨-, e⟩ | ⟨-, e⟩ <;> simp [e]

@[simp] theorem trackBest_nonce2 (h : List Byte) (nc : Word) (s : State) : (trackBest h nc s).nonce2 = s.nonce2 := by
  rcases trackBest_cases h nc s with ⟨-, e⟩ | ⟨-, e⟩ <;> simp [e]

@[simp] theorem trackBest_startNonce (h : List Byte) (nc : Word) (s : State) : (trackBest h nc s).startNonce = s.startNonce := by
  rcases trackBest_cases h nc s with ⟨-, e⟩ | ⟨-, e⟩ <;> simp [e]

@[simp] theorem trackBest_hashTime (h : List Byte) (nc : Word) (s : State) : (trackBest h nc s).hashTime = s.hashTime := by
  rcases trackBest_cases h nc s with ⟨-, e⟩ | ⟨-, e⟩ <;> simp [e]

@[simp] theorem trackBest_cbLen (h : List Byte) (nc : Word) (s : State) : (trackBest h nc s).cbLen = s.cbLen := by
  rcases trackBest_cases h nc s with ⟨-, e⟩ | ⟨-, e⟩ <;> simp [e]

@[simp] theorem trackBest_pathLen (h : List Byte) (nc : Word) (s : State) : (trackBest h nc s).pathLen = s.pathLen := by
  rcases trackBest_cases h nc s with ⟨-, e⟩ | ⟨-, e⟩ <;> simp [e]

@[simp] theorem trackBest_argCbLen (h : List Byte) (nc : Word) (s : State) : (trackBest h nc s).argCbLen = s.argCbLen := by
  rcases trackBest_cases h nc s with ⟨-, e⟩ | ⟨-, e⟩ <;> simp [e]

@[simp] theorem trackBest_argHeight (h : List Byte) (nc : Word) (s : State) : (trackBest h nc s).argHeight = s.argHeight := by
  rcases trackBest_cases h nc s with ⟨-, e⟩ | ⟨-, e⟩ <;> simp [e]

@[simp] theorem trackBest_argPathLen (h : List Byte) (nc : Word) (s : State) : (trackBest h nc s).argPathLen = s.argPathLen := by
  rcases trackBest_cases h nc s with ⟨-, e⟩ | ⟨-, e⟩ <;> simp [e]

@[simp] theorem trackBest_argCycles (h : List Byte) (nc : Word) (s : State) : (trackBest h nc s).argCycles = s.argCycles := by
  rcases trackBest_cases h nc s with ⟨-, e⟩ | ⟨-, e⟩ <;> simp [e]

@[simp] theorem trackBest_key0 (h : List Byte) (nc : Word) (s : State) : (trackBest h nc s).key0 = s.key0 := by
  rcases trackBest_cases h nc s with ⟨-, e⟩ | ⟨-, e⟩ <;> simp [e]

@[simp] theorem trackBest_key1 (h : List Byte) (nc : Word) (s : State) : (trackBest h nc s).key1 = s.key1 := by
  rcases trackBest_cases h nc s with ⟨-, e⟩ | ⟨-, e⟩ <;> simp [e]

@[simp] theorem trackBest_key2 (h : List Byte) (nc : Word) (s : State) : (trackBest h nc s).key2 = s.key2 := by
  rcases trackBest_cases h nc s with ⟨-, e⟩ | ⟨-, e⟩ <;> simp [e]

@[simp] theorem trackBest_key3 (h : List Byte) (nc : Word) (s : State) : (trackBest h nc s).key3 = s.key3 := by
  rcases trackBest_cases h nc s with ⟨-, e⟩ | ⟨-, e⟩ <;> simp [e]

@[simp] theorem trackBest_clen (h : List Byte) (nc : Word) (s : State) : (trackBest h nc s).clen = s.clen := by
  rcases trackBest_cases h nc s with ⟨-, e⟩ | ⟨-, e⟩ <;> simp [e]

@[simp] theorem trackBest_ccap (h : List Byte) (nc : Word) (s : State) : (trackBest h nc s).ccap = s.ccap := by
  rcases trackBest_cases h nc s with ⟨-, e⟩ | ⟨-, e⟩ <;> simp [e]

@[simp] theorem trackBest_cres (h : List Byte) (nc : Word) (s : State) : (trackBest h nc s).cres = s.cres := by
  rcases trackBest_cases h nc s with ⟨-, e⟩ | ⟨-, e⟩ <;> simp [e]

@[simp] theorem trackBest_resetLine (h : List Byte) (nc : Word) (s : State) : (trackBest h nc s).resetLine = s.resetLine := by
  rcases trackBest_cases h nc s with ⟨-, e⟩ | ⟨-, e⟩ <;> simp [e]

@[simp] theorem trackBest_schedule (h : List Byte) (nc : Word) (s : State) : (trackBest h nc s).schedule = s.schedule := by
  rcases trackBest_cases h nc s with ⟨-, e⟩ | ⟨-, e⟩ <;> simp [e]

@[simp] theorem trackBest_busData (h : List Byte) (nc : Word) (s : State) : (trackBest h nc s).busData = s.busData := by
  rcases trackBest_cases h nc s with ⟨-, e⟩ | ⟨-, e⟩ <;> simp [e]

@[simp] theorem trackBest_draws (h : List Byte) (nc : Word) (s : State) : (trackBest h nc s).draws = s.draws := by
  rcases trackBest_cases h nc s with ⟨-, e⟩ | ⟨-, e⟩ <;> simp [e]

@[simp] theorem trackBest_resetDraw (h : List Byte) (nc : Word) (s : State) : (trackBest h nc s).resetDraw = s.resetDraw := by
  rcases trackBest_cases h nc s with ⟨-, e⟩ | ⟨-, e⟩ <;> simp [e]

@[simp] theorem trackBest_xpol (h : List Byte) (nc : Word) (s : State) : (trackBest h nc s).xpol = s.xpol := by
  rcases trackBest_cases h nc s with ⟨-, e⟩ | ⟨-, e⟩ <;> simp [e]

theorem trackBest_buffer_other (h : List Byte) (nc : Word) (s : State) (hl : h.length = 32) {c : Buf}
    (hc : .bestHash ≠ c) : (trackBest h nc s).buffer c = s.buffer c := by
  rcases trackBest_cases h nc s with ⟨-, e⟩ | ⟨-, e⟩
  · rw [e, buffer_recordBest_other _ _ _ hl hc]
  · rw [e]

theorem trackBest_readByte (h : List Byte) (nc : Word) (s : State) (hl : h.length = 32) (x : Nat)
    (hx : x < 0x040 ∨ 0x060 ≤ x) : (trackBest h nc s).readByte x = s.readByte x := by
  rcases trackBest_cases h nc s with ⟨-, e⟩ | ⟨-, e⟩
  · rw [e, readByte_recordBest _ _ _ _ hl (by simpa [bufBase] using hx)]
  · rw [e]

theorem trackBest_nonce (h : List Byte) (nc : Word) (s : State) (hl : h.length = 32) :
    (trackBest h nc s).nonce = s.nonce := by
  rcases trackBest_cases h nc s with ⟨-, e⟩ | ⟨-, e⟩
  · rw [e, nonce_recordBest _ _ _ hl]
  · rw [e]

/-- What one pass can do: success, exhaustion, rollover or the next nonce (rules R223, R224, R225). -/
theorem minePass_cases (s : State) :
    (le256 (headerHash s) (s.buffer .target) = true ∧
      minePass s = (s.recordBest (headerHash s) s.nonce).setStatus .done) ∨
    (le256 (headerHash s) (s.buffer .target) = false ∧ s.nonce = Config.nonceMax ∧
      (s.xpol = false ∨ s.nonce2 = Config.nonce2Max) ∧
      minePass s = (trackBest (headerHash s) s.nonce s).setStatus .fail) ∨
    (le256 (headerHash s) (s.buffer .target) = false ∧ s.nonce = Config.nonceMax ∧ s.xpol = true ∧
      s.nonce2 ≠ Config.nonce2Max ∧
      minePass s = ((trackBest (headerHash s) s.nonce s).setNonce2 (s.nonce2 + 1)).setNonce 0) ∨
    (le256 (headerHash s) (s.buffer .target) = false ∧ s.nonce ≠ Config.nonceMax ∧
      minePass s = (trackBest (headerHash s) s.nonce s).setNonce (s.nonce + 1)) := by
  by_cases h : le256 (headerHash s) (s.buffer .target) = true
  · refine .inl ⟨h, ?_⟩
    dsimp only [minePass]
    exact if_pos h
  have e : minePass s = advanceNonce s.nonce (trackBest (headerHash s) s.nonce s) := by
    dsimp only [minePass]
    exact if_neg h
  have h := Bool.eq_false_iff.mpr h
  unfold advanceNonce at e
  by_cases hm : s.nonce = Config.nonceMax
  · rw [if_pos hm, trackBest_xpol, trackBest_nonce2] at e
    by_cases hx : s.xpol = false ∨ s.nonce2 = Config.nonce2Max
    · rw [if_pos hx] at e
      exact .inr (.inl ⟨h, hm, hx, e⟩)
    · rw [if_neg hx] at e
      rw [not_or] at hx
      exact .inr (.inr (.inl ⟨h, hm, by simpa using hx.1, hx.2, e⟩))
  · rw [if_neg hm] at e
    exact .inr (.inr (.inr ⟨h, hm, e⟩))

@[simp] theorem minePass_cmd (s : State) : (minePass s).cmd = s.cmd := by
  rcases minePass_cases s with ⟨-, e⟩ | ⟨-, -, -, e⟩ | ⟨-, -, -, -, e⟩ | ⟨-, -, e⟩ <;> simp [e]

@[simp] theorem minePass_ctrl (s : State) : (minePass s).ctrl = s.ctrl := by
  rcases minePass_cases s with ⟨-, e⟩ | ⟨-, -, -, e⟩ | ⟨-, -, -, -, e⟩ | ⟨-, -, e⟩ <;> simp [e]

@[simp] theorem minePass_pending (s : State) : (minePass s).pending = s.pending := by
  rcases minePass_cases s with ⟨-, e⟩ | ⟨-, -, -, e⟩ | ⟨-, -, -, -, e⟩ | ⟨-, -, e⟩ <;> simp [e]

@[simp] theorem minePass_ovr (s : State) : (minePass s).ovr = s.ovr := by
  rcases minePass_cases s with ⟨-, e⟩ | ⟨-, -, -, e⟩ | ⟨-, -, -, -, e⟩ | ⟨-, -, e⟩ <;> simp [e]

@[simp] theorem minePass_result (s : State) : (minePass s).result = s.result := by
  rcases minePass_cases s with ⟨-, e⟩ | ⟨-, -, -, e⟩ | ⟨-, -, -, -, e⟩ | ⟨-, -, e⟩ <;> simp [e]

@[simp] theorem minePass_height (s : State) : (minePass s).height = s.height := by
  rcases minePass_cases s with ⟨-, e⟩ | ⟨-, -, -, e⟩ | ⟨-, -, -, -, e⟩ | ⟨-, -, e⟩ <;> simp [e]

@[simp] theorem minePass_startNonce (s : State) : (minePass s).startNonce = s.startNonce := by
  rcases minePass_cases s with ⟨-, e⟩ | ⟨-, -, -, e⟩ | ⟨-, -, -, -, e⟩ | ⟨-, -, e⟩ <;> simp [e]

@[simp] theorem minePass_hashTime (s : State) : (minePass s).hashTime = s.hashTime := by
  rcases minePass_cases s with ⟨-, e⟩ | ⟨-, -, -, e⟩ | ⟨-, -, -, -, e⟩ | ⟨-, -, e⟩ <;> simp [e]

@[simp] theorem minePass_cbLen (s : State) : (minePass s).cbLen = s.cbLen := by
  rcases minePass_cases s with ⟨-, e⟩ | ⟨-, -, -, e⟩ | ⟨-, -, -, -, e⟩ | ⟨-, -, e⟩ <;> simp [e]

@[simp] theorem minePass_pathLen (s : State) : (minePass s).pathLen = s.pathLen := by
  rcases minePass_cases s with ⟨-, e⟩ | ⟨-, -, -, e⟩ | ⟨-, -, -, -, e⟩ | ⟨-, -, e⟩ <;> simp [e]

@[simp] theorem minePass_argCbLen (s : State) : (minePass s).argCbLen = s.argCbLen := by
  rcases minePass_cases s with ⟨-, e⟩ | ⟨-, -, -, e⟩ | ⟨-, -, -, -, e⟩ | ⟨-, -, e⟩ <;> simp [e]

@[simp] theorem minePass_argHeight (s : State) : (minePass s).argHeight = s.argHeight := by
  rcases minePass_cases s with ⟨-, e⟩ | ⟨-, -, -, e⟩ | ⟨-, -, -, -, e⟩ | ⟨-, -, e⟩ <;> simp [e]

@[simp] theorem minePass_argPathLen (s : State) : (minePass s).argPathLen = s.argPathLen := by
  rcases minePass_cases s with ⟨-, e⟩ | ⟨-, -, -, e⟩ | ⟨-, -, -, -, e⟩ | ⟨-, -, e⟩ <;> simp [e]

@[simp] theorem minePass_argCycles (s : State) : (minePass s).argCycles = s.argCycles := by
  rcases minePass_cases s with ⟨-, e⟩ | ⟨-, -, -, e⟩ | ⟨-, -, -, -, e⟩ | ⟨-, -, e⟩ <;> simp [e]

@[simp] theorem minePass_key0 (s : State) : (minePass s).key0 = s.key0 := by
  rcases minePass_cases s with ⟨-, e⟩ | ⟨-, -, -, e⟩ | ⟨-, -, -, -, e⟩ | ⟨-, -, e⟩ <;> simp [e]

@[simp] theorem minePass_key1 (s : State) : (minePass s).key1 = s.key1 := by
  rcases minePass_cases s with ⟨-, e⟩ | ⟨-, -, -, e⟩ | ⟨-, -, -, -, e⟩ | ⟨-, -, e⟩ <;> simp [e]

@[simp] theorem minePass_key2 (s : State) : (minePass s).key2 = s.key2 := by
  rcases minePass_cases s with ⟨-, e⟩ | ⟨-, -, -, e⟩ | ⟨-, -, -, -, e⟩ | ⟨-, -, e⟩ <;> simp [e]

@[simp] theorem minePass_key3 (s : State) : (minePass s).key3 = s.key3 := by
  rcases minePass_cases s with ⟨-, e⟩ | ⟨-, -, -, e⟩ | ⟨-, -, -, -, e⟩ | ⟨-, -, e⟩ <;> simp [e]

@[simp] theorem minePass_clen (s : State) : (minePass s).clen = s.clen := by
  rcases minePass_cases s with ⟨-, e⟩ | ⟨-, -, -, e⟩ | ⟨-, -, -, -, e⟩ | ⟨-, -, e⟩ <;> simp [e]

@[simp] theorem minePass_ccap (s : State) : (minePass s).ccap = s.ccap := by
  rcases minePass_cases s with ⟨-, e⟩ | ⟨-, -, -, e⟩ | ⟨-, -, -, -, e⟩ | ⟨-, -, e⟩ <;> simp [e]

@[simp] theorem minePass_cres (s : State) : (minePass s).cres = s.cres := by
  rcases minePass_cases s with ⟨-, e⟩ | ⟨-, -, -, e⟩ | ⟨-, -, -, -, e⟩ | ⟨-, -, e⟩ <;> simp [e]

@[simp] theorem minePass_resetLine (s : State) : (minePass s).resetLine = s.resetLine := by
  rcases minePass_cases s with ⟨-, e⟩ | ⟨-, -, -, e⟩ | ⟨-, -, -, -, e⟩ | ⟨-, -, e⟩ <;> simp [e]

@[simp] theorem minePass_schedule (s : State) : (minePass s).schedule = s.schedule := by
  rcases minePass_cases s with ⟨-, e⟩ | ⟨-, -, -, e⟩ | ⟨-, -, -, -, e⟩ | ⟨-, -, e⟩ <;> simp [e]

@[simp] theorem minePass_busData (s : State) : (minePass s).busData = s.busData := by
  rcases minePass_cases s with ⟨-, e⟩ | ⟨-, -, -, e⟩ | ⟨-, -, -, -, e⟩ | ⟨-, -, e⟩ <;> simp [e]

@[simp] theorem minePass_draws (s : State) : (minePass s).draws = s.draws := by
  rcases minePass_cases s with ⟨-, e⟩ | ⟨-, -, -, e⟩ | ⟨-, -, -, -, e⟩ | ⟨-, -, e⟩ <;> simp [e]

@[simp] theorem minePass_resetDraw (s : State) : (minePass s).resetDraw = s.resetDraw := by
  rcases minePass_cases s with ⟨-, e⟩ | ⟨-, -, -, e⟩ | ⟨-, -, -, -, e⟩ | ⟨-, -, e⟩ <;> simp [e]

@[simp] theorem minePass_xpol (s : State) : (minePass s).xpol = s.xpol := by
  rcases minePass_cases s with ⟨-, e⟩ | ⟨-, -, -, e⟩ | ⟨-, -, -, -, e⟩ | ⟨-, -, e⟩ <;> simp [e, State.xpol]

/-- One pass writes `STATE`, `NONCE2`, `BEST_NONCE` and memory, and no other field. -/
theorem minePass_eq (s : State) :
    minePass s =
      { s with
        status := (minePass s).status, nonce2 := (minePass s).nonce2, bestNonce := (minePass s).bestNonce
        mem := (minePass s).mem } := by
  exact State.eq_of_search (by simp)

theorem minePass_buffer_other (s : State) {c : Buf} (h1 : .bestHash ≠ c) (h2 : .header ≠ c) :
    (minePass s).buffer c = s.buffer c := by
  have hb := trackBest_buffer_other (headerHash s) s.nonce s (headerHash_length s) h1
  rcases minePass_cases s with ⟨-, e⟩ | ⟨-, -, -, e⟩ | ⟨-, -, -, -, e⟩ | ⟨-, -, e⟩
  · rw [e, setStatus_buffer, buffer_recordBest_other _ _ _ (headerHash_length s) h1]
  · rw [e, setStatus_buffer, hb]
  · rw [e, buffer_setNonce_other _ _ h2, setNonce2_buffer, hb]
  · rw [e, buffer_setNonce_other _ _ h2, hb]

@[simp] theorem minePass_target (s : State) : (minePass s).buffer .target = s.buffer .target :=
  minePass_buffer_other s (by decide) (by decide)

/-- A pass changes no byte but those of `BEST_HASH` and of the nonce (rule R222). -/
theorem minePass_readByte (s : State) (x : Nat) (h1 : x < 0x040 ∨ 0x060 ≤ x) (h2 : x < 0x0CC ∨ 0x0D0 ≤ x) :
    (minePass s).readByte x = s.readByte x := by
  have hb := trackBest_readByte (headerHash s) s.nonce s (headerHash_length s) x h1
  have hn : x < nonceOffset ∨ nonceOffset + 4 ≤ x := by simp only [nonceOffset, bufBase]; omega
  rcases minePass_cases s with ⟨-, e⟩ | ⟨-, -, -, e⟩ | ⟨-, -, -, -, e⟩ | ⟨-, -, e⟩
  · rw [e, setStatus_readByte, readByte_recordBest _ _ _ _ (headerHash_length s) (by simpa [bufBase] using h1)]
  · rw [e, setStatus_readByte, hb]
  · rw [e, readByte_setNonce _ _ _ hn, setNonce2_readByte, hb]
  · rw [e, readByte_setNonce _ _ _ hn, hb]

/-- Two states with the same first 76 header bytes have the same header at every nonce. -/
theorem headerAt_congr {s t : State} (h : ∀ i, i < 76 → t.readByte (0x080 + i) = s.readByte (0x080 + i)) (nc : Word) :
    headerAt t nc = headerAt s nc := by
  have e : ∀ u : State, (u.buffer .header).take 76 = u.readBytes 0x080 76 := fun u => by
    have h2 : u.buffer .header = u.readBytes 0x080 76 ++ u.readBytes (0x080 + 76) 4 := readBytes_add _ _ 76 4
    rw [h2, List.take_left' (by simp)]
  rw [headerAt, headerAt, e, e, readBytes_congr h]

/-- Every pass hashes the same header but for the nonce (rules R222, R231). -/
@[simp] theorem headerAt_minePass (s : State) (nc : Word) : headerAt (minePass s) nc = headerAt s nc :=
  headerAt_congr (fun i hi => minePass_readByte s _ (by omega) (by omega)) nc

theorem headerHash_eq (s : State) : headerHash s = doubleHash (headerAt s s.nonce) := by
  rw [headerAt_nonce, headerHash]

/-- The header is the one at the nonce it holds. -/
theorem buffer_header_eq (s : State) : s.buffer .header = headerAt s s.nonce := (headerAt_nonce s).symm

theorem minePasses_succ (c : Nat) (s : State) (h : s.status = .mining) :
    minePasses (c + 1) s = minePasses c (minePass s) := by
  rw [minePasses, if_pos h]

theorem minePasses_of_ne (c : Nat) (s : State) (h : s.status ≠ .mining) : minePasses c s = s := by
  cases c with
  | zero => rfl
  | succ c => rw [minePasses, if_neg h]

/-- Passes add up: the whole search position is state (rule R221). -/
theorem minePasses_add (a b : Nat) (s : State) : minePasses (a + b) s = minePasses b (minePasses a s) := by
  induction a generalizing s with
  | zero => rw [Nat.zero_add, minePasses]
  | succ a ih =>
    by_cases h : s.status = .mining
    · rw [show a + 1 + b = (a + b) + 1 by omega, minePasses_succ _ _ h, minePasses_succ _ _ h, ih]
    · rw [minePasses_of_ne _ _ h, minePasses_of_ne _ _ h, minePasses_of_ne _ _ h]

/-- A property every pass in MINING keeps is kept by any number of passes. -/
theorem minePasses_keeps {P : State → Prop} (hp : ∀ s, s.status = .mining → P s → P (minePass s)) (c : Nat) (s : State)
    (h : P s) : P (minePasses c s) := by
  induction c generalizing s with
  | zero => exact h
  | succ c ih =>
    by_cases hm : s.status = .mining
    · rw [minePasses_succ _ _ hm]; exact ih _ (hp s hm h)
    · rw [minePasses_of_ne _ _ hm]; exact h

@[simp] theorem minePasses_cmd (c : Nat) (s : State) : (minePasses c s).cmd = s.cmd :=
  minePasses_keeps (P := fun t => t.cmd = s.cmd) (fun t _ h => by rw [minePass_cmd, h]) c s rfl

@[simp] theorem minePasses_ctrl (c : Nat) (s : State) : (minePasses c s).ctrl = s.ctrl :=
  minePasses_keeps (P := fun t => t.ctrl = s.ctrl) (fun t _ h => by rw [minePass_ctrl, h]) c s rfl

@[simp] theorem minePasses_pending (c : Nat) (s : State) : (minePasses c s).pending = s.pending :=
  minePasses_keeps (P := fun t => t.pending = s.pending) (fun t _ h => by rw [minePass_pending, h]) c s rfl

@[simp] theorem minePasses_ovr (c : Nat) (s : State) : (minePasses c s).ovr = s.ovr :=
  minePasses_keeps (P := fun t => t.ovr = s.ovr) (fun t _ h => by rw [minePass_ovr, h]) c s rfl

@[simp] theorem minePasses_result (c : Nat) (s : State) : (minePasses c s).result = s.result :=
  minePasses_keeps (P := fun t => t.result = s.result) (fun t _ h => by rw [minePass_result, h]) c s rfl

@[simp] theorem minePasses_height (c : Nat) (s : State) : (minePasses c s).height = s.height :=
  minePasses_keeps (P := fun t => t.height = s.height) (fun t _ h => by rw [minePass_height, h]) c s rfl

@[simp] theorem minePasses_startNonce (c : Nat) (s : State) : (minePasses c s).startNonce = s.startNonce :=
  minePasses_keeps (P := fun t => t.startNonce = s.startNonce) (fun t _ h => by rw [minePass_startNonce, h]) c s rfl

@[simp] theorem minePasses_hashTime (c : Nat) (s : State) : (minePasses c s).hashTime = s.hashTime :=
  minePasses_keeps (P := fun t => t.hashTime = s.hashTime) (fun t _ h => by rw [minePass_hashTime, h]) c s rfl

@[simp] theorem minePasses_cbLen (c : Nat) (s : State) : (minePasses c s).cbLen = s.cbLen :=
  minePasses_keeps (P := fun t => t.cbLen = s.cbLen) (fun t _ h => by rw [minePass_cbLen, h]) c s rfl

@[simp] theorem minePasses_pathLen (c : Nat) (s : State) : (minePasses c s).pathLen = s.pathLen :=
  minePasses_keeps (P := fun t => t.pathLen = s.pathLen) (fun t _ h => by rw [minePass_pathLen, h]) c s rfl

@[simp] theorem minePasses_argCbLen (c : Nat) (s : State) : (minePasses c s).argCbLen = s.argCbLen :=
  minePasses_keeps (P := fun t => t.argCbLen = s.argCbLen) (fun t _ h => by rw [minePass_argCbLen, h]) c s rfl

@[simp] theorem minePasses_argHeight (c : Nat) (s : State) : (minePasses c s).argHeight = s.argHeight :=
  minePasses_keeps (P := fun t => t.argHeight = s.argHeight) (fun t _ h => by rw [minePass_argHeight, h]) c s rfl

@[simp] theorem minePasses_argPathLen (c : Nat) (s : State) : (minePasses c s).argPathLen = s.argPathLen :=
  minePasses_keeps (P := fun t => t.argPathLen = s.argPathLen) (fun t _ h => by rw [minePass_argPathLen, h]) c s rfl

@[simp] theorem minePasses_argCycles (c : Nat) (s : State) : (minePasses c s).argCycles = s.argCycles :=
  minePasses_keeps (P := fun t => t.argCycles = s.argCycles) (fun t _ h => by rw [minePass_argCycles, h]) c s rfl

@[simp] theorem minePasses_key0 (c : Nat) (s : State) : (minePasses c s).key0 = s.key0 :=
  minePasses_keeps (P := fun t => t.key0 = s.key0) (fun t _ h => by rw [minePass_key0, h]) c s rfl

@[simp] theorem minePasses_key1 (c : Nat) (s : State) : (minePasses c s).key1 = s.key1 :=
  minePasses_keeps (P := fun t => t.key1 = s.key1) (fun t _ h => by rw [minePass_key1, h]) c s rfl

@[simp] theorem minePasses_key2 (c : Nat) (s : State) : (minePasses c s).key2 = s.key2 :=
  minePasses_keeps (P := fun t => t.key2 = s.key2) (fun t _ h => by rw [minePass_key2, h]) c s rfl

@[simp] theorem minePasses_key3 (c : Nat) (s : State) : (minePasses c s).key3 = s.key3 :=
  minePasses_keeps (P := fun t => t.key3 = s.key3) (fun t _ h => by rw [minePass_key3, h]) c s rfl

@[simp] theorem minePasses_clen (c : Nat) (s : State) : (minePasses c s).clen = s.clen :=
  minePasses_keeps (P := fun t => t.clen = s.clen) (fun t _ h => by rw [minePass_clen, h]) c s rfl

@[simp] theorem minePasses_ccap (c : Nat) (s : State) : (minePasses c s).ccap = s.ccap :=
  minePasses_keeps (P := fun t => t.ccap = s.ccap) (fun t _ h => by rw [minePass_ccap, h]) c s rfl

@[simp] theorem minePasses_cres (c : Nat) (s : State) : (minePasses c s).cres = s.cres :=
  minePasses_keeps (P := fun t => t.cres = s.cres) (fun t _ h => by rw [minePass_cres, h]) c s rfl

@[simp] theorem minePasses_resetLine (c : Nat) (s : State) : (minePasses c s).resetLine = s.resetLine :=
  minePasses_keeps (P := fun t => t.resetLine = s.resetLine) (fun t _ h => by rw [minePass_resetLine, h]) c s rfl

@[simp] theorem minePasses_schedule (c : Nat) (s : State) : (minePasses c s).schedule = s.schedule :=
  minePasses_keeps (P := fun t => t.schedule = s.schedule) (fun t _ h => by rw [minePass_schedule, h]) c s rfl

@[simp] theorem minePasses_busData (c : Nat) (s : State) : (minePasses c s).busData = s.busData :=
  minePasses_keeps (P := fun t => t.busData = s.busData) (fun t _ h => by rw [minePass_busData, h]) c s rfl

@[simp] theorem minePasses_draws (c : Nat) (s : State) : (minePasses c s).draws = s.draws :=
  minePasses_keeps (P := fun t => t.draws = s.draws) (fun t _ h => by rw [minePass_draws, h]) c s rfl

@[simp] theorem minePasses_resetDraw (c : Nat) (s : State) : (minePasses c s).resetDraw = s.resetDraw :=
  minePasses_keeps (P := fun t => t.resetDraw = s.resetDraw) (fun t _ h => by rw [minePass_resetDraw, h]) c s rfl

@[simp] theorem minePasses_xpol (c : Nat) (s : State) : (minePasses c s).xpol = s.xpol :=
  minePasses_keeps (P := fun t => t.xpol = s.xpol) (fun t _ h => by rw [minePass_xpol, h]) c s rfl

@[simp] theorem minePasses_target (c : Nat) (s : State) : (minePasses c s).buffer .target = s.buffer .target :=
  minePasses_keeps (P := fun t => t.buffer .target = s.buffer .target) (fun t _ h => by rw [minePass_target, h]) c s rfl

/-- The passes of a MINE change no byte but those of `BEST_HASH` and of the nonce (rule R222). -/
theorem minePasses_readByte (c : Nat) (s : State) (x : Nat) (h1 : x < 0x040 ∨ 0x060 ≤ x)
    (h2 : x < 0x0CC ∨ 0x0D0 ≤ x) : (minePasses c s).readByte x = s.readByte x :=
  minePasses_keeps (P := fun t => t.readByte x = s.readByte x)
    (fun t _ h => by rw [minePass_readByte t x h1 h2, h]) c s rfl

@[simp] theorem headerAt_minePasses (c : Nat) (s : State) (nc : Word) : headerAt (minePasses c s) nc = headerAt s nc :=
  minePasses_keeps (P := fun t => headerAt t nc = headerAt s nc) (fun t _ h => by rw [headerAt_minePass, h]) c s rfl

/-- The passes of a MINE write `STATE`, `NONCE2`, `BEST_NONCE` and memory, and no other field. -/
theorem minePasses_eq (c : Nat) (s : State) :
    minePasses c s =
      { s with
        status := (minePasses c s).status, nonce2 := (minePasses c s).nonce2
        bestNonce := (minePasses c s).bestNonce, mem := (minePasses c s).mem } :=
  State.eq_of_search (by simp)

/-- The two outcomes of MINE (rules R220, R226, R228). -/
theorem mineEffect_cases (dt : Nat) (s : State) :
    (s.status = .mining ∧
      mineEffect dt s = ((addHashTime dt (minePasses s.argCycles.toNat s)).countDraw).setResult .ok) ∨
    (s.status ≠ .mining ∧ mineEffect dt s = s.setResult .ok) := by
  by_cases h : s.status = .mining
  · refine .inl ⟨h, ?_⟩
    unfold mineEffect
    exact if_pos h
  · refine .inr ⟨h, ?_⟩
    unfold mineEffect
    exact if_neg h

/-- How far the search has come: `NONCE2` and the nonce as one number (rules R221, R225). -/
def searchPosition (s : State) : Nat := s.nonce2.toNat * 2 ^ 32 + s.nonce.toNat

/-- A pass that stays in MINING moves one nonce on; one that ends the search stays where it is (rules R223 to R225). -/
theorem minePass_position (s : State) (h : s.status = .mining) :
    ((minePass s).status = .mining ∧ searchPosition (minePass s) = searchPosition s + 1) ∨
      (((minePass s).status = .done ∨ (minePass s).status = .fail) ∧ (minePass s).nonce = s.nonce ∧
        (minePass s).nonce2 = s.nonce2) := by
  have hl := headerHash_length s
  rcases minePass_cases s with ⟨-, e⟩ | ⟨-, -, -, e⟩ | ⟨-, hn, -, h2, e⟩ | ⟨-, hn, e⟩
  · exact .inr ⟨.inl (by rw [e, setStatus_status]), by rw [e, setStatus_nonce, nonce_recordBest _ _ _ hl],
      by rw [e, setStatus_nonce2, recordBest_nonce2]⟩
  · exact .inr ⟨.inr (by rw [e, setStatus_status]), by rw [e, setStatus_nonce, trackBest_nonce _ _ _ hl],
      by rw [e, setStatus_nonce2, trackBest_nonce2]⟩
  · refine .inl ⟨by rw [e, setNonce_status, setNonce2_status, trackBest_status, h], ?_⟩
    rw [searchPosition, e, nonce_setNonce, setNonce_nonce2, setNonce2_nonce2, searchPosition, hn]
    have h3 : s.nonce2.toNat ≠ 0xFFFFFFFF := fun h => h2 (BitVec.eq_of_toNat_eq h)
    have h4 := s.nonce2.isLt
    have h5 : Config.nonceMax.toNat = 0xFFFFFFFF := rfl
    rw [BitVec.toNat_add, h5]
    simp
    omega
  · refine .inl ⟨by rw [e, setNonce_status, trackBest_status, h], ?_⟩
    rw [searchPosition, e, nonce_setNonce, setNonce_nonce2, trackBest_nonce2, searchPosition]
    have h3 : s.nonce.toNat ≠ 0xFFFFFFFF := fun h => hn (BitVec.eq_of_toNat_eq h)
    have h4 := s.nonce.isLt
    rw [BitVec.toNat_add]
    simp
    omega

/-- The passes of a MINE stay within its bound and never go back (rules R220, R221). -/
theorem minePasses_position (c : Nat) (s : State) (h : s.status = .mining) :
    ((minePasses c s).status = .mining ∧ searchPosition (minePasses c s) = searchPosition s + c) ∨
      (((minePasses c s).status = .done ∨ (minePasses c s).status = .fail) ∧
        searchPosition s ≤ searchPosition (minePasses c s) ∧ searchPosition (minePasses c s) ≤ searchPosition s + c) := by
  induction c generalizing s with
  | zero => exact .inl ⟨by rw [minePasses, h], by rw [minePasses, Nat.add_zero]⟩
  | succ c ih =>
    rw [minePasses_succ _ _ h]
    rcases minePass_position s h with ⟨hm, hp⟩ | ⟨hm, h1, h2⟩
    · rcases ih _ hm with ⟨h3, h4⟩ | ⟨h3, h4, h5⟩
      · exact .inl ⟨h3, by omega⟩
      · exact .inr ⟨h3, by omega, by omega⟩
    · have hne : (minePass s).status ≠ .mining := by rcases hm with e | e <;> rw [e] <;> decide
      have hp : searchPosition (minePass s) = searchPosition s := by rw [searchPosition, h1, h2, searchPosition]
      rw [minePasses_of_ne _ _ hne]
      exact .inr ⟨hm, by omega, by omega⟩

/-- What best-hash tracking leaves in `BEST_HASH` and `BEST_NONCE` (rules R151, R220). -/
theorem trackBest_best (h : List Byte) (nc : Word) (s : State) (hl : h.length = 32) :
    (be256 h ≤ be256 (s.buffer .bestHash) ∧ (trackBest h nc s).buffer .bestHash = h ∧
        (trackBest h nc s).bestNonce = nc) ∨
      (be256 (s.buffer .bestHash) < be256 h ∧ (trackBest h nc s).buffer .bestHash = s.buffer .bestHash ∧
        (trackBest h nc s).bestNonce = s.bestNonce) := by
  rcases trackBest_cases h nc s with ⟨hc, e⟩ | ⟨hc, e⟩
  · exact .inl ⟨(le256_iff _ _).mp hc, by rw [e, buffer_recordBest_self _ _ _ hl], by rw [e, recordBest_bestNonce]⟩
  · exact .inr ⟨(le256_false_iff _ _).mp hc, by rw [e], by rw [e]⟩

/-- What a pass leaves in `BEST_HASH` and `BEST_NONCE`: the new hash where it meets the target or is not larger than
the best one, and what was there otherwise (rules R220, R223). -/
theorem minePass_best (s : State) :
    ((le256 (headerHash s) (s.buffer .target) = true ∨ be256 (headerHash s) ≤ be256 (s.buffer .bestHash)) ∧
        (minePass s).buffer .bestHash = headerHash s ∧ (minePass s).bestNonce = s.nonce) ∨
      (le256 (headerHash s) (s.buffer .target) = false ∧ be256 (s.buffer .bestHash) < be256 (headerHash s) ∧
        (minePass s).buffer .bestHash = s.buffer .bestHash ∧ (minePass s).bestNonce = s.bestNonce) := by
  have hl := headerHash_length s
  have hh : Buf.header ≠ .bestHash := by decide
  by_cases ht : le256 (headerHash s) (s.buffer .target) = true
  · rcases minePass_cases s with ⟨h, e⟩ | ⟨h, -⟩ | ⟨h, -⟩ | ⟨h, -⟩
    · exact .inl ⟨.inl h, by rw [e, setStatus_buffer, buffer_recordBest_self _ _ _ hl],
        by rw [e, setStatus_bestNonce, recordBest_bestNonce]⟩
    all_goals rw [h] at ht; exact absurd ht (by decide)
  have hf := Bool.eq_false_iff.mpr ht
  have key : (minePass s).buffer .bestHash = (trackBest (headerHash s) s.nonce s).buffer .bestHash ∧
      (minePass s).bestNonce = (trackBest (headerHash s) s.nonce s).bestNonce := by
    rcases minePass_cases s with ⟨h, -⟩ | ⟨-, -, -, e⟩ | ⟨-, -, -, -, e⟩ | ⟨-, -, e⟩
    · exact absurd h ht
    · exact ⟨by rw [e, setStatus_buffer], by rw [e, setStatus_bestNonce]⟩
    · exact ⟨by rw [e, buffer_setNonce_other _ _ hh, setNonce2_buffer], by rw [e, setNonce_bestNonce, setNonce2_bestNonce]⟩
    · exact ⟨by rw [e, buffer_setNonce_other _ _ hh], by rw [e, setNonce_bestNonce]⟩
  rcases trackBest_best (headerHash s) s.nonce s hl with ⟨h1, h2, h3⟩ | ⟨h1, h2, h3⟩
  · exact .inl ⟨.inr h1, key.1.trans h2, key.2.trans h3⟩
  · exact .inr ⟨hf, h1, key.1.trans h2, key.2.trans h3⟩

/-- A pass that does not meet the target stays in MINING or ends in FAIL; one that meets it ends in DONE (rules R223,
R224). -/
theorem minePass_status (s : State) (h : s.status = .mining) :
    (le256 (headerHash s) (s.buffer .target) = true ∧ (minePass s).status = .done) ∨
      (le256 (headerHash s) (s.buffer .target) = false ∧
        ((minePass s).status = .mining ∨ ((minePass s).status = .fail ∧ s.nonce = Config.nonceMax))) := by
  rcases minePass_cases s with ⟨hs, e⟩ | ⟨hs, hn, -, e⟩ | ⟨hs, -, -, -, e⟩ | ⟨hs, -, e⟩
  · exact .inl ⟨hs, by rw [e, setStatus_status]⟩
  · exact .inr ⟨hs, .inr ⟨by rw [e, setStatus_status], hn⟩⟩
  · exact .inr ⟨hs, .inl (by rw [e, setNonce_status, setNonce2_status, trackBest_status, h])⟩
  · exact .inr ⟨hs, .inl (by rw [e, setNonce_status, trackBest_status, h])⟩

/-- The fields of the state no pass of the search reads, written at once: what two MINEs and one MINE may differ in
(rule R221). -/
def State.withUnsearched (s : State) (cycles elapsed : Word) (draws : Nat) (r : ResultCode) : State :=
  { s with argCycles := cycles, hashTime := elapsed, draws := draws, result := r }

@[simp] theorem withUnsearched_cmd (s : State) (c e : Word) (d : Nat) (r : ResultCode) :
    (s.withUnsearched c e d r).cmd = s.cmd := (rfl)

@[simp] theorem withUnsearched_ctrl (s : State) (c e : Word) (d : Nat) (r : ResultCode) :
    (s.withUnsearched c e d r).ctrl = s.ctrl := (rfl)

@[simp] theorem withUnsearched_pending (s : State) (c e : Word) (d : Nat) (r : ResultCode) :
    (s.withUnsearched c e d r).pending = s.pending := (rfl)

@[simp] theorem withUnsearched_ovr (s : State) (c e : Word) (d : Nat) (r : ResultCode) :
    (s.withUnsearched c e d r).ovr = s.ovr := (rfl)

@[simp] theorem withUnsearched_result (s : State) (c e : Word) (d : Nat) (r : ResultCode) :
    (s.withUnsearched c e d r).result = r := (rfl)

@[simp] theorem withUnsearched_status (s : State) (c e : Word) (d : Nat) (r : ResultCode) :
    (s.withUnsearched c e d r).status = s.status := (rfl)

@[simp] theorem withUnsearched_height (s : State) (c e : Word) (d : Nat) (r : ResultCode) :
    (s.withUnsearched c e d r).height = s.height := (rfl)

@[simp] theorem withUnsearched_nonce2 (s : State) (c e : Word) (d : Nat) (r : ResultCode) :
    (s.withUnsearched c e d r).nonce2 = s.nonce2 := (rfl)

@[simp] theorem withUnsearched_startNonce (s : State) (c e : Word) (d : Nat) (r : ResultCode) :
    (s.withUnsearched c e d r).startNonce = s.startNonce := (rfl)

@[simp] theorem withUnsearched_bestNonce (s : State) (c e : Word) (d : Nat) (r : ResultCode) :
    (s.withUnsearched c e d r).bestNonce = s.bestNonce := (rfl)

@[simp] theorem withUnsearched_hashTime (s : State) (c e : Word) (d : Nat) (r : ResultCode) :
    (s.withUnsearched c e d r).hashTime = e := (rfl)

@[simp] theorem withUnsearched_cbLen (s : State) (c e : Word) (d : Nat) (r : ResultCode) :
    (s.withUnsearched c e d r).cbLen = s.cbLen := (rfl)

@[simp] theorem withUnsearched_pathLen (s : State) (c e : Word) (d : Nat) (r : ResultCode) :
    (s.withUnsearched c e d r).pathLen = s.pathLen := (rfl)

@[simp] theorem withUnsearched_argCbLen (s : State) (c e : Word) (d : Nat) (r : ResultCode) :
    (s.withUnsearched c e d r).argCbLen = s.argCbLen := (rfl)

@[simp] theorem withUnsearched_argHeight (s : State) (c e : Word) (d : Nat) (r : ResultCode) :
    (s.withUnsearched c e d r).argHeight = s.argHeight := (rfl)

@[simp] theorem withUnsearched_argPathLen (s : State) (c e : Word) (d : Nat) (r : ResultCode) :
    (s.withUnsearched c e d r).argPathLen = s.argPathLen := (rfl)

@[simp] theorem withUnsearched_argCycles (s : State) (c e : Word) (d : Nat) (r : ResultCode) :
    (s.withUnsearched c e d r).argCycles = c := (rfl)

@[simp] theorem withUnsearched_key0 (s : State) (c e : Word) (d : Nat) (r : ResultCode) :
    (s.withUnsearched c e d r).key0 = s.key0 := (rfl)

@[simp] theorem withUnsearched_key1 (s : State) (c e : Word) (d : Nat) (r : ResultCode) :
    (s.withUnsearched c e d r).key1 = s.key1 := (rfl)

@[simp] theorem withUnsearched_key2 (s : State) (c e : Word) (d : Nat) (r : ResultCode) :
    (s.withUnsearched c e d r).key2 = s.key2 := (rfl)

@[simp] theorem withUnsearched_key3 (s : State) (c e : Word) (d : Nat) (r : ResultCode) :
    (s.withUnsearched c e d r).key3 = s.key3 := (rfl)

@[simp] theorem withUnsearched_clen (s : State) (c e : Word) (d : Nat) (r : ResultCode) :
    (s.withUnsearched c e d r).clen = s.clen := (rfl)

@[simp] theorem withUnsearched_ccap (s : State) (c e : Word) (d : Nat) (r : ResultCode) :
    (s.withUnsearched c e d r).ccap = s.ccap := (rfl)

@[simp] theorem withUnsearched_cres (s : State) (c e : Word) (d : Nat) (r : ResultCode) :
    (s.withUnsearched c e d r).cres = s.cres := (rfl)

@[simp] theorem withUnsearched_mem (s : State) (c e : Word) (d : Nat) (r : ResultCode) :
    (s.withUnsearched c e d r).mem = s.mem := (rfl)

@[simp] theorem withUnsearched_resetLine (s : State) (c e : Word) (d : Nat) (r : ResultCode) :
    (s.withUnsearched c e d r).resetLine = s.resetLine := (rfl)

@[simp] theorem withUnsearched_schedule (s : State) (c e : Word) (d : Nat) (r : ResultCode) :
    (s.withUnsearched c e d r).schedule = s.schedule := (rfl)

@[simp] theorem withUnsearched_busData (s : State) (c e : Word) (d : Nat) (r : ResultCode) :
    (s.withUnsearched c e d r).busData = s.busData := (rfl)

@[simp] theorem withUnsearched_draws (s : State) (c e : Word) (d : Nat) (r : ResultCode) :
    (s.withUnsearched c e d r).draws = d := (rfl)

@[simp] theorem withUnsearched_resetDraw (s : State) (c e : Word) (d : Nat) (r : ResultCode) :
    (s.withUnsearched c e d r).resetDraw = s.resetDraw := (rfl)

@[simp] theorem withUnsearched_readByte (s : State) (c e : Word) (d : Nat) (r : ResultCode) (a : Nat) :
    (s.withUnsearched c e d r).readByte a = s.readByte a := (rfl)

@[simp] theorem withUnsearched_buffer (s : State) (c e : Word) (d : Nat) (r : ResultCode) (b : Buf) :
    (s.withUnsearched c e d r).buffer b = s.buffer b := (rfl)

@[simp] theorem withUnsearched_nonce (s : State) (c e : Word) (d : Nat) (r : ResultCode) :
    (s.withUnsearched c e d r).nonce = s.nonce := (rfl)

@[simp] theorem withUnsearched_xpol (s : State) (c e : Word) (d : Nat) (r : ResultCode) :
    (s.withUnsearched c e d r).xpol = s.xpol := (rfl)

/-- A pass reads and writes none of those fields. -/
theorem minePass_withUnsearched (s : State) (c e : Word) (d : Nat) (r : ResultCode) :
    minePass (s.withUnsearched c e d r) = (minePass s).withUnsearched c e d r := by
  have hh : headerHash (s.withUnsearched c e d r) = headerHash s := by
    rw [headerHash, headerHash, withUnsearched_buffer]
  have hr : ∀ (h : List Byte) (nc : Word),
      (s.withUnsearched c e d r).recordBest h nc = (s.recordBest h nc).withUnsearched c e d r := fun h nc => (rfl)
  have ht : trackBest (headerHash s) s.nonce (s.withUnsearched c e d r) =
      (trackBest (headerHash s) s.nonce s).withUnsearched c e d r := by
    rcases trackBest_cases (headerHash s) s.nonce s with ⟨h1, e1⟩ | ⟨h1, e1⟩
    · rcases trackBest_cases (headerHash s) s.nonce (s.withUnsearched c e d r) with ⟨h2, e2⟩ | ⟨h2, e2⟩
      · rw [e1, e2, hr]
      · rw [withUnsearched_buffer, h1] at h2; exact absurd h2 (by decide)
    · rcases trackBest_cases (headerHash s) s.nonce (s.withUnsearched c e d r) with ⟨h2, e2⟩ | ⟨h2, e2⟩
      · rw [withUnsearched_buffer, h1] at h2; exact absurd h2 (by decide)
      · rw [e1, e2]
  have hc := minePass_cases (s.withUnsearched c e d r)
  rw [hh, withUnsearched_nonce, withUnsearched_buffer, ht, withUnsearched_xpol, withUnsearched_nonce2, hr] at hc
  have hw : ∀ (u : State) (x : Status), (u.withUnsearched c e d r).setStatus x = (u.setStatus x).withUnsearched c e d r :=
    fun u x => (rfl)
  have hv : ∀ (u : State) (v : Word), (u.withUnsearched c e d r).setNonce v = (u.setNonce v).withUnsearched c e d r :=
    fun u v => (rfl)
  have h2 : ∀ (u : State) (v : Word), (u.withUnsearched c e d r).setNonce2 v = (u.setNonce2 v).withUnsearched c e d r :=
    fun u v => (rfl)
  rcases minePass_cases s with ⟨a, e1⟩ | ⟨a, b, p, e1⟩ | ⟨a, b, p, q, e1⟩ | ⟨a, b, e1⟩
  · rcases hc with ⟨-, e2⟩ | ⟨a', -⟩ | ⟨a', -⟩ | ⟨a', -⟩
    · rw [e1, e2, hw]
    all_goals rw [a] at a'; exact absurd a' (by decide)
  · rcases hc with ⟨a', -⟩ | ⟨-, -, -, e2⟩ | ⟨-, -, p', q', -⟩ | ⟨-, b', -⟩
    · rw [a] at a'; exact absurd a' (by decide)
    · rw [e1, e2, hw]
    · rcases p with p | p
      · rw [p] at p'; exact absurd p' (by decide)
      · exact absurd p q'
    · exact absurd b b'
  · rcases hc with ⟨a', -⟩ | ⟨-, -, p', -⟩ | ⟨-, -, -, -, e2⟩ | ⟨-, b', -⟩
    · rw [a] at a'; exact absurd a' (by decide)
    · rcases p' with p' | p'
      · rw [p] at p'; exact absurd p' (by decide)
      · exact absurd p' q
    · rw [e1, e2, h2, hv]
    · exact absurd b b'
  · rcases hc with ⟨a', -⟩ | ⟨-, b', -⟩ | ⟨-, b', -⟩ | ⟨-, -, e2⟩
    · rw [a] at a'; exact absurd a' (by decide)
    · exact absurd b' b
    · exact absurd b' b
    · rw [e1, e2, hv]

theorem minePasses_withUnsearched (n : Nat) (s : State) (c e : Word) (d : Nat) (r : ResultCode) :
    minePasses n (s.withUnsearched c e d r) = (minePasses n s).withUnsearched c e d r := by
  induction n generalizing s with
  | zero => rw [minePasses, minePasses]
  | succ n ih =>
    by_cases h : s.status = .mining
    · rw [minePasses_succ _ _ h, minePasses_succ _ _ (by rw [withUnsearched_status, h]), minePass_withUnsearched, ih]
    · rw [minePasses_of_ne _ _ h, minePasses_of_ne _ _ (by rw [withUnsearched_status]; exact h)]

end Sys2Proof.Machine
end

