-- ==== Sys2Proof/Laws/SessionFields.lean ====
section
/-! SUPPORT. One lemma per field for each part of the session commands, proved from the lemmas of its parts. Memory,
which they change, is described byte by byte in Laws/Session.lean. -/

namespace Sys2Proof.Machine

/-! `beginBuffers` -/

@[simp] theorem beginBuffers_cmd (s : State) : (beginBuffers s).cmd = s.cmd := by
  simp [beginBuffers]
@[simp] theorem beginBuffers_ctrl (s : State) : (beginBuffers s).ctrl = s.ctrl := by
  simp [beginBuffers]
@[simp] theorem beginBuffers_pending (s : State) : (beginBuffers s).pending = s.pending := by
  simp [beginBuffers]
@[simp] theorem beginBuffers_ovr (s : State) : (beginBuffers s).ovr = s.ovr := by
  simp [beginBuffers]
@[simp] theorem beginBuffers_result (s : State) : (beginBuffers s).result = s.result := by
  simp [beginBuffers]
@[simp] theorem beginBuffers_status (s : State) : (beginBuffers s).status = s.status := by
  simp [beginBuffers]
@[simp] theorem beginBuffers_height (s : State) : (beginBuffers s).height = s.height := by
  simp [beginBuffers]
@[simp] theorem beginBuffers_nonce2 (s : State) : (beginBuffers s).nonce2 = s.nonce2 := by
  simp [beginBuffers]
@[simp] theorem beginBuffers_startNonce (s : State) : (beginBuffers s).startNonce = s.startNonce := by
  simp [beginBuffers]
@[simp] theorem beginBuffers_bestNonce (s : State) : (beginBuffers s).bestNonce = s.bestNonce := by
  simp [beginBuffers]
@[simp] theorem beginBuffers_hashTime (s : State) : (beginBuffers s).hashTime = s.hashTime := by
  simp [beginBuffers]
@[simp] theorem beginBuffers_cbLen (s : State) : (beginBuffers s).cbLen = s.cbLen := by
  simp [beginBuffers]
@[simp] theorem beginBuffers_pathLen (s : State) : (beginBuffers s).pathLen = s.pathLen := by
  simp [beginBuffers]
@[simp] theorem beginBuffers_argCbLen (s : State) : (beginBuffers s).argCbLen = s.argCbLen := by
  simp [beginBuffers]
@[simp] theorem beginBuffers_argHeight (s : State) : (beginBuffers s).argHeight = s.argHeight := by
  simp [beginBuffers]
@[simp] theorem beginBuffers_argPathLen (s : State) : (beginBuffers s).argPathLen = s.argPathLen := by
  simp [beginBuffers]
@[simp] theorem beginBuffers_argCycles (s : State) : (beginBuffers s).argCycles = s.argCycles := by
  simp [beginBuffers]
@[simp] theorem beginBuffers_key0 (s : State) : (beginBuffers s).key0 = s.key0 := by
  simp [beginBuffers]
@[simp] theorem beginBuffers_key1 (s : State) : (beginBuffers s).key1 = s.key1 := by
  simp [beginBuffers]
@[simp] theorem beginBuffers_key2 (s : State) : (beginBuffers s).key2 = s.key2 := by
  simp [beginBuffers]
@[simp] theorem beginBuffers_key3 (s : State) : (beginBuffers s).key3 = s.key3 := by
  simp [beginBuffers]
@[simp] theorem beginBuffers_clen (s : State) : (beginBuffers s).clen = s.clen := by
  simp [beginBuffers]
@[simp] theorem beginBuffers_ccap (s : State) : (beginBuffers s).ccap = s.ccap := by
  simp [beginBuffers]
@[simp] theorem beginBuffers_cres (s : State) : (beginBuffers s).cres = s.cres := by
  simp [beginBuffers]
@[simp] theorem beginBuffers_resetLine (s : State) : (beginBuffers s).resetLine = s.resetLine := by
  simp [beginBuffers]
@[simp] theorem beginBuffers_schedule (s : State) : (beginBuffers s).schedule = s.schedule := by
  simp [beginBuffers]
@[simp] theorem beginBuffers_busData (s : State) : (beginBuffers s).busData = s.busData := by
  simp [beginBuffers]
@[simp] theorem beginBuffers_draws (s : State) : (beginBuffers s).draws = s.draws := by
  simp [beginBuffers]
@[simp] theorem beginBuffers_resetDraw (s : State) : (beginBuffers s).resetDraw = s.resetDraw := by
  simp [beginBuffers]

/-! `beginScalars` -/

@[simp] theorem beginScalars_cmd (s : State) : (beginScalars s).cmd = s.cmd := (rfl)
@[simp] theorem beginScalars_ctrl (s : State) : (beginScalars s).ctrl = s.ctrl := (rfl)
@[simp] theorem beginScalars_pending (s : State) : (beginScalars s).pending = s.pending := (rfl)
@[simp] theorem beginScalars_ovr (s : State) : (beginScalars s).ovr = s.ovr := (rfl)
@[simp] theorem beginScalars_result (s : State) : (beginScalars s).result = .ok := (rfl)
@[simp] theorem beginScalars_status (s : State) : (beginScalars s).status = .ready := (rfl)
@[simp] theorem beginScalars_height (s : State) : (beginScalars s).height = 0 := (rfl)
@[simp] theorem beginScalars_nonce2 (s : State) : (beginScalars s).nonce2 = 0 := (rfl)
@[simp] theorem beginScalars_startNonce (s : State) : (beginScalars s).startNonce = 0 := (rfl)
@[simp] theorem beginScalars_bestNonce (s : State) : (beginScalars s).bestNonce = 0 := (rfl)
@[simp] theorem beginScalars_hashTime (s : State) : (beginScalars s).hashTime = 0 := (rfl)
@[simp] theorem beginScalars_cbLen (s : State) : (beginScalars s).cbLen = s.argCbLen := (rfl)
@[simp] theorem beginScalars_pathLen (s : State) : (beginScalars s).pathLen = 0 := (rfl)
@[simp] theorem beginScalars_argCbLen (s : State) : (beginScalars s).argCbLen = s.argCbLen := (rfl)
@[simp] theorem beginScalars_argHeight (s : State) : (beginScalars s).argHeight = s.argHeight := (rfl)
@[simp] theorem beginScalars_argPathLen (s : State) : (beginScalars s).argPathLen = s.argPathLen := (rfl)
@[simp] theorem beginScalars_argCycles (s : State) : (beginScalars s).argCycles = s.argCycles := (rfl)
@[simp] theorem beginScalars_key0 (s : State) : (beginScalars s).key0 = s.key0 := (rfl)
@[simp] theorem beginScalars_key1 (s : State) : (beginScalars s).key1 = s.key1 := (rfl)
@[simp] theorem beginScalars_key2 (s : State) : (beginScalars s).key2 = s.key2 := (rfl)
@[simp] theorem beginScalars_key3 (s : State) : (beginScalars s).key3 = s.key3 := (rfl)
@[simp] theorem beginScalars_clen (s : State) : (beginScalars s).clen = s.clen := (rfl)
@[simp] theorem beginScalars_ccap (s : State) : (beginScalars s).ccap = s.ccap := (rfl)
@[simp] theorem beginScalars_cres (s : State) : (beginScalars s).cres = s.cres := (rfl)
@[simp] theorem beginScalars_mem (s : State) : (beginScalars s).mem = s.mem := (rfl)
@[simp] theorem beginScalars_resetLine (s : State) : (beginScalars s).resetLine = s.resetLine := (rfl)
@[simp] theorem beginScalars_schedule (s : State) : (beginScalars s).schedule = s.schedule := (rfl)
@[simp] theorem beginScalars_busData (s : State) : (beginScalars s).busData = s.busData := (rfl)
@[simp] theorem beginScalars_draws (s : State) : (beginScalars s).draws = s.draws := (rfl)
@[simp] theorem beginScalars_resetDraw (s : State) : (beginScalars s).resetDraw = s.resetDraw := (rfl)

/-! `initStore` -/

@[simp] theorem initStore_cmd (lead : Byte) (s : State) : (initStore lead s).cmd = s.cmd := by
  simp [initStore]
@[simp] theorem initStore_ctrl (lead : Byte) (s : State) : (initStore lead s).ctrl = s.ctrl := by
  simp [initStore]
@[simp] theorem initStore_pending (lead : Byte) (s : State) : (initStore lead s).pending = s.pending := by
  simp [initStore]
@[simp] theorem initStore_ovr (lead : Byte) (s : State) : (initStore lead s).ovr = s.ovr := by
  simp [initStore]
@[simp] theorem initStore_result (lead : Byte) (s : State) : (initStore lead s).result = s.result := by
  simp [initStore]
@[simp] theorem initStore_status (lead : Byte) (s : State) : (initStore lead s).status = s.status := by
  simp [initStore]
@[simp] theorem initStore_height (lead : Byte) (s : State) : (initStore lead s).height = s.height := by
  simp [initStore]
@[simp] theorem initStore_nonce2 (lead : Byte) (s : State) : (initStore lead s).nonce2 = s.nonce2 := by
  simp [initStore]
@[simp] theorem initStore_startNonce (lead : Byte) (s : State) : (initStore lead s).startNonce = s.startNonce := by
  simp [initStore]
@[simp] theorem initStore_bestNonce (lead : Byte) (s : State) : (initStore lead s).bestNonce = s.bestNonce := by
  simp [initStore]
@[simp] theorem initStore_hashTime (lead : Byte) (s : State) : (initStore lead s).hashTime = s.hashTime := by
  simp [initStore]
@[simp] theorem initStore_cbLen (lead : Byte) (s : State) : (initStore lead s).cbLen = s.cbLen := by
  simp [initStore]
@[simp] theorem initStore_pathLen (lead : Byte) (s : State) : (initStore lead s).pathLen = s.pathLen := by
  simp [initStore]
@[simp] theorem initStore_argCbLen (lead : Byte) (s : State) : (initStore lead s).argCbLen = s.argCbLen := by
  simp [initStore]
@[simp] theorem initStore_argHeight (lead : Byte) (s : State) : (initStore lead s).argHeight = s.argHeight := by
  simp [initStore]
@[simp] theorem initStore_argPathLen (lead : Byte) (s : State) : (initStore lead s).argPathLen = s.argPathLen := by
  simp [initStore]
@[simp] theorem initStore_argCycles (lead : Byte) (s : State) : (initStore lead s).argCycles = s.argCycles := by
  simp [initStore]
@[simp] theorem initStore_key0 (lead : Byte) (s : State) : (initStore lead s).key0 = s.key0 := by
  simp [initStore]
@[simp] theorem initStore_key1 (lead : Byte) (s : State) : (initStore lead s).key1 = s.key1 := by
  simp [initStore]
@[simp] theorem initStore_key2 (lead : Byte) (s : State) : (initStore lead s).key2 = s.key2 := by
  simp [initStore]
@[simp] theorem initStore_key3 (lead : Byte) (s : State) : (initStore lead s).key3 = s.key3 := by
  simp [initStore]
@[simp] theorem initStore_clen (lead : Byte) (s : State) : (initStore lead s).clen = s.clen := by
  simp [initStore]
@[simp] theorem initStore_ccap (lead : Byte) (s : State) : (initStore lead s).ccap = s.ccap := by
  simp [initStore]
@[simp] theorem initStore_cres (lead : Byte) (s : State) : (initStore lead s).cres = s.cres := by
  simp [initStore]
@[simp] theorem initStore_resetLine (lead : Byte) (s : State) : (initStore lead s).resetLine = s.resetLine := by
  simp [initStore]
@[simp] theorem initStore_schedule (lead : Byte) (s : State) : (initStore lead s).schedule = s.schedule := by
  simp [initStore]
@[simp] theorem initStore_busData (lead : Byte) (s : State) : (initStore lead s).busData = s.busData := by
  simp [initStore]
@[simp] theorem initStore_draws (lead : Byte) (s : State) : (initStore lead s).draws = s.draws := by
  simp [initStore]
@[simp] theorem initStore_resetDraw (lead : Byte) (s : State) : (initStore lead s).resetDraw = s.resetDraw := by
  simp [initStore]

/-! `initSession` -/

@[simp] theorem initSession_cmd (lead : Byte) (t : List Byte) (s : State) : (initSession lead t s).cmd = s.cmd := by
  simp [initSession, initStore]
@[simp] theorem initSession_ctrl (lead : Byte) (t : List Byte) (s : State) : (initSession lead t s).ctrl = s.ctrl := by
  simp [initSession, initStore]
@[simp] theorem initSession_pending (lead : Byte) (t : List Byte) (s : State) : (initSession lead t s).pending = s.pending := by
  simp [initSession, initStore]
@[simp] theorem initSession_ovr (lead : Byte) (t : List Byte) (s : State) : (initSession lead t s).ovr = s.ovr := by
  simp [initSession, initStore]
@[simp] theorem initSession_result (lead : Byte) (t : List Byte) (s : State) : (initSession lead t s).result = .ok := by
  simp [initSession, initStore]
@[simp] theorem initSession_status (lead : Byte) (t : List Byte) (s : State) : (initSession lead t s).status = .mining := by
  simp [initSession, initStore]
@[simp] theorem initSession_height (lead : Byte) (t : List Byte) (s : State) : (initSession lead t s).height = s.argHeight := by
  simp [initSession, initStore]
@[simp] theorem initSession_nonce2 (lead : Byte) (t : List Byte) (s : State) : (initSession lead t s).nonce2 = s.nonce2 := by
  simp [initSession, initStore]
@[simp] theorem initSession_bestNonce (lead : Byte) (t : List Byte) (s : State) : (initSession lead t s).bestNonce = s.bestNonce := by
  simp [initSession, initStore]
@[simp] theorem initSession_hashTime (lead : Byte) (t : List Byte) (s : State) : (initSession lead t s).hashTime = s.hashTime := by
  simp [initSession, initStore]
@[simp] theorem initSession_cbLen (lead : Byte) (t : List Byte) (s : State) : (initSession lead t s).cbLen = s.cbLen := by
  simp [initSession, initStore]
@[simp] theorem initSession_pathLen (lead : Byte) (t : List Byte) (s : State) : (initSession lead t s).pathLen = s.argPathLen := by
  simp [initSession, initStore]
@[simp] theorem initSession_argCbLen (lead : Byte) (t : List Byte) (s : State) : (initSession lead t s).argCbLen = s.argCbLen := by
  simp [initSession, initStore]
@[simp] theorem initSession_argHeight (lead : Byte) (t : List Byte) (s : State) : (initSession lead t s).argHeight = s.argHeight := by
  simp [initSession, initStore]
@[simp] theorem initSession_argPathLen (lead : Byte) (t : List Byte) (s : State) : (initSession lead t s).argPathLen = s.argPathLen := by
  simp [initSession, initStore]
@[simp] theorem initSession_argCycles (lead : Byte) (t : List Byte) (s : State) : (initSession lead t s).argCycles = s.argCycles := by
  simp [initSession, initStore]
@[simp] theorem initSession_key0 (lead : Byte) (t : List Byte) (s : State) : (initSession lead t s).key0 = s.key0 := by
  simp [initSession, initStore]
@[simp] theorem initSession_key1 (lead : Byte) (t : List Byte) (s : State) : (initSession lead t s).key1 = s.key1 := by
  simp [initSession, initStore]
@[simp] theorem initSession_key2 (lead : Byte) (t : List Byte) (s : State) : (initSession lead t s).key2 = s.key2 := by
  simp [initSession, initStore]
@[simp] theorem initSession_key3 (lead : Byte) (t : List Byte) (s : State) : (initSession lead t s).key3 = s.key3 := by
  simp [initSession, initStore]
@[simp] theorem initSession_clen (lead : Byte) (t : List Byte) (s : State) : (initSession lead t s).clen = s.clen := by
  simp [initSession, initStore]
@[simp] theorem initSession_ccap (lead : Byte) (t : List Byte) (s : State) : (initSession lead t s).ccap = s.ccap := by
  simp [initSession, initStore]
@[simp] theorem initSession_cres (lead : Byte) (t : List Byte) (s : State) : (initSession lead t s).cres = s.cres := by
  simp [initSession, initStore]
@[simp] theorem initSession_resetLine (lead : Byte) (t : List Byte) (s : State) : (initSession lead t s).resetLine = s.resetLine := by
  simp [initSession, initStore]
@[simp] theorem initSession_schedule (lead : Byte) (t : List Byte) (s : State) : (initSession lead t s).schedule = s.schedule := by
  simp [initSession, initStore]
@[simp] theorem initSession_busData (lead : Byte) (t : List Byte) (s : State) : (initSession lead t s).busData = s.busData := by
  simp [initSession, initStore]
@[simp] theorem initSession_draws (lead : Byte) (t : List Byte) (s : State) : (initSession lead t s).draws = s.draws := by
  simp [initSession, initStore]
@[simp] theorem initSession_resetDraw (lead : Byte) (t : List Byte) (s : State) : (initSession lead t s).resetDraw = s.resetDraw := by
  simp [initSession, initStore]

/-! `failInit` -/

@[simp] theorem failInit_cmd (s : State) : (failInit s).cmd = s.cmd := by
  simp [failInit]
@[simp] theorem failInit_ctrl (s : State) : (failInit s).ctrl = s.ctrl := by
  simp [failInit]
@[simp] theorem failInit_pending (s : State) : (failInit s).pending = s.pending := by
  simp [failInit]
@[simp] theorem failInit_ovr (s : State) : (failInit s).ovr = s.ovr := by
  simp [failInit]
@[simp] theorem failInit_result (s : State) : (failInit s).result = .einval := by
  simp [failInit]
@[simp] theorem failInit_status (s : State) : (failInit s).status = .invalid := by
  simp [failInit]
@[simp] theorem failInit_height (s : State) : (failInit s).height = (Config.drawHeight s.draws).setWidth 32 := by
  simp [failInit]
@[simp] theorem failInit_nonce2 (s : State) : (failInit s).nonce2 = s.nonce2 := by
  simp [failInit]
@[simp] theorem failInit_startNonce (s : State) : (failInit s).startNonce = s.startNonce := by
  simp [failInit]
@[simp] theorem failInit_bestNonce (s : State) : (failInit s).bestNonce = s.bestNonce := by
  simp [failInit]
@[simp] theorem failInit_hashTime (s : State) : (failInit s).hashTime = s.hashTime := by
  simp [failInit]
@[simp] theorem failInit_cbLen (s : State) : (failInit s).cbLen = s.cbLen := by
  simp [failInit]
@[simp] theorem failInit_pathLen (s : State) : (failInit s).pathLen = BitVec.ofNat 32 (Config.drawPathLen s.draws).val := by
  simp [failInit]
@[simp] theorem failInit_argCbLen (s : State) : (failInit s).argCbLen = s.argCbLen := by
  simp [failInit]
@[simp] theorem failInit_argHeight (s : State) : (failInit s).argHeight = s.argHeight := by
  simp [failInit]
@[simp] theorem failInit_argPathLen (s : State) : (failInit s).argPathLen = s.argPathLen := by
  simp [failInit]
@[simp] theorem failInit_argCycles (s : State) : (failInit s).argCycles = s.argCycles := by
  simp [failInit]
@[simp] theorem failInit_key0 (s : State) : (failInit s).key0 = s.key0 := by
  simp [failInit]
@[simp] theorem failInit_key1 (s : State) : (failInit s).key1 = s.key1 := by
  simp [failInit]
@[simp] theorem failInit_key2 (s : State) : (failInit s).key2 = s.key2 := by
  simp [failInit]
@[simp] theorem failInit_key3 (s : State) : (failInit s).key3 = s.key3 := by
  simp [failInit]
@[simp] theorem failInit_clen (s : State) : (failInit s).clen = s.clen := by
  simp [failInit]
@[simp] theorem failInit_ccap (s : State) : (failInit s).ccap = s.ccap := by
  simp [failInit]
@[simp] theorem failInit_cres (s : State) : (failInit s).cres = s.cres := by
  simp [failInit]
@[simp] theorem failInit_resetLine (s : State) : (failInit s).resetLine = s.resetLine := by
  simp [failInit]
@[simp] theorem failInit_schedule (s : State) : (failInit s).schedule = s.schedule := by
  simp [failInit]
@[simp] theorem failInit_busData (s : State) : (failInit s).busData = s.busData := by
  simp [failInit]
@[simp] theorem failInit_draws (s : State) : (failInit s).draws = s.draws + 1 := by
  simp [failInit]
@[simp] theorem failInit_resetDraw (s : State) : (failInit s).resetDraw = s.resetDraw := by
  simp [failInit]

/-! `reportEffect` -/

@[simp] theorem reportEffect_cmd (s : State) : (reportEffect s).cmd = s.cmd := by
  simp [reportEffect]
@[simp] theorem reportEffect_ctrl (s : State) : (reportEffect s).ctrl = s.ctrl := by
  simp [reportEffect]
@[simp] theorem reportEffect_pending (s : State) : (reportEffect s).pending = s.pending := by
  simp [reportEffect]
@[simp] theorem reportEffect_ovr (s : State) : (reportEffect s).ovr = s.ovr := by
  simp [reportEffect]
@[simp] theorem reportEffect_result (s : State) : (reportEffect s).result = .ok := by
  simp [reportEffect]
@[simp] theorem reportEffect_status (s : State) : (reportEffect s).status = s.status := by
  simp [reportEffect]
@[simp] theorem reportEffect_height (s : State) : (reportEffect s).height = s.height := by
  simp [reportEffect]
@[simp] theorem reportEffect_nonce2 (s : State) : (reportEffect s).nonce2 = s.nonce2 := by
  simp [reportEffect]
@[simp] theorem reportEffect_startNonce (s : State) : (reportEffect s).startNonce = s.startNonce := by
  simp [reportEffect]
@[simp] theorem reportEffect_bestNonce (s : State) : (reportEffect s).bestNonce = s.bestNonce := by
  simp [reportEffect]
@[simp] theorem reportEffect_hashTime (s : State) : (reportEffect s).hashTime = s.hashTime := by
  simp [reportEffect]
@[simp] theorem reportEffect_cbLen (s : State) : (reportEffect s).cbLen = s.cbLen := by
  simp [reportEffect]
@[simp] theorem reportEffect_pathLen (s : State) : (reportEffect s).pathLen = s.pathLen := by
  simp [reportEffect]
@[simp] theorem reportEffect_argCbLen (s : State) : (reportEffect s).argCbLen = s.argCbLen := by
  simp [reportEffect]
@[simp] theorem reportEffect_argHeight (s : State) : (reportEffect s).argHeight = s.argHeight := by
  simp [reportEffect]
@[simp] theorem reportEffect_argPathLen (s : State) : (reportEffect s).argPathLen = s.argPathLen := by
  simp [reportEffect]
@[simp] theorem reportEffect_argCycles (s : State) : (reportEffect s).argCycles = s.argCycles := by
  simp [reportEffect]
@[simp] theorem reportEffect_key0 (s : State) : (reportEffect s).key0 = s.key0 := by
  simp [reportEffect]
@[simp] theorem reportEffect_key1 (s : State) : (reportEffect s).key1 = s.key1 := by
  simp [reportEffect]
@[simp] theorem reportEffect_key2 (s : State) : (reportEffect s).key2 = s.key2 := by
  simp [reportEffect]
@[simp] theorem reportEffect_key3 (s : State) : (reportEffect s).key3 = s.key3 := by
  simp [reportEffect]
@[simp] theorem reportEffect_clen (s : State) : (reportEffect s).clen = s.clen := by
  simp [reportEffect]
@[simp] theorem reportEffect_ccap (s : State) : (reportEffect s).ccap = s.ccap := by
  simp [reportEffect]
@[simp] theorem reportEffect_cres (s : State) : (reportEffect s).cres = s.cres := by
  simp [reportEffect]
@[simp] theorem reportEffect_resetLine (s : State) : (reportEffect s).resetLine = s.resetLine := by
  simp [reportEffect]
@[simp] theorem reportEffect_schedule (s : State) : (reportEffect s).schedule = s.schedule := by
  simp [reportEffect]
@[simp] theorem reportEffect_busData (s : State) : (reportEffect s).busData = s.busData := by
  simp [reportEffect]
@[simp] theorem reportEffect_draws (s : State) : (reportEffect s).draws = s.draws := by
  simp [reportEffect]
@[simp] theorem reportEffect_resetDraw (s : State) : (reportEffect s).resetDraw = s.resetDraw := by
  simp [reportEffect]

end Sys2Proof.Machine
end

