-- ==== Sys2Proof/Laws/Session.lean ====
section
/-! SUPPORT. What the shared parts of BEGIN, INIT and REPORT do to each buffer and to every other byte. -/

namespace Sys2Proof.Machine

theorem cbCap_le : Config.cbCap ≤ 128 := by
  unfold Config.cbCap; split <;> decide

theorem le_cbCap : 64 ≤ Config.cbCap := by
  unfold Config.cbCap; split <;> decide

@[simp] theorem opFragment_length (s : State) : s.opFragment.length = s.argCbLen.toNat := by
  simp [State.opFragment, State.opCbLen]

/-- BEGIN's buffer writes change memory alone. -/
theorem beginBuffers_eq (s : State) : beginBuffers s = { s with mem := (beginBuffers s).mem } := by
  simp only [beginBuffers, State.writeBuf]

@[simp] theorem beginScalars_readByte (s : State) (a : Nat) : (beginScalars s).readByte a = s.readByte a := rfl

@[simp] theorem beginScalars_buffer (s : State) (b : Buf) : (beginScalars s).buffer b = s.buffer b := rfl

@[simp] theorem beginScalars_nonce (s : State) : (beginScalars s).nonce = s.nonce := rfl

/-- A byte outside the session buffers BEGIN writes stays (rule R192). -/
theorem beginBuffers_frame (s : State) (hn : s.argCbLen.toNat ≤ 128) (a : Nat)
    (h : ∀ b ∈ [Buf.bestHash, .target, .header, .path, .coinbase], a < bufBase b ∨ bufBase b + bufSize b ≤ a) :
    (beginBuffers s).readByte a = s.readByte a := by
  simp only [List.mem_cons, List.not_mem_nil, or_false, forall_eq_or_imp, forall_eq] at h
  obtain ⟨h1, h2, h3, h4, h5⟩ := h
  unfold beginBuffers
  rw [readByte_writeBuf_outside _ _ _ _ (by simp [bufSize]; omega) h5,
    readByte_writeBuf_outside _ _ _ _ (by simp [bufSize]) h5,
    readByte_writeBuf_outside _ _ _ _ (by simp [bufSize]) h4,
    readByte_writeBuf_outside _ _ _ _ (by simp [bufSize]) h3,
    readByte_writeBuf_outside _ _ _ _ (by simp [bufSize]) h2,
    readByte_writeBuf_outside _ _ _ _ (by simp [bufSize]) h1]

theorem beginBuffers_other (s : State) (hn : s.argCbLen.toNat ≤ 128) {c : Buf}
    (h : c ∉ [Buf.bestHash, .target, .header, .path, .coinbase]) : (beginBuffers s).buffer c = s.buffer c := by
  apply readBytes_congr
  intro i hi
  apply beginBuffers_frame s hn
  intro b hb
  have hne : b ≠ c := fun e => h (e ▸ hb)
  have := buf_disjoint hne
  omega

theorem beginBuffers_bestHash (s : State) (hn : s.argCbLen.toNat ≤ 128) :
    (beginBuffers s).buffer .bestHash = fill 32 0xFF := by
  unfold beginBuffers
  rw [buffer_writeBuf_other _ _ _ (by decide) (by simp [bufSize]; omega),
    buffer_writeBuf_other _ _ _ (by decide) (by simp [bufSize]),
    buffer_writeBuf_other _ _ _ (by decide) (by simp [bufSize]),
    buffer_writeBuf_other _ _ _ (by decide) (by simp [bufSize]),
    buffer_writeBuf_other _ _ _ (by decide) (by simp [bufSize])]
  exact buffer_writeBuf_self _ _ _ (by simp [bufSize])

theorem beginBuffers_target (s : State) (hn : s.argCbLen.toNat ≤ 128) :
    (beginBuffers s).buffer .target = fill 32 0 := by
  unfold beginBuffers
  rw [buffer_writeBuf_other _ _ _ (by decide) (by simp [bufSize]; omega),
    buffer_writeBuf_other _ _ _ (by decide) (by simp [bufSize]),
    buffer_writeBuf_other _ _ _ (by decide) (by simp [bufSize]),
    buffer_writeBuf_other _ _ _ (by decide) (by simp [bufSize])]
  exact buffer_writeBuf_self _ _ _ (by simp [bufSize])

theorem beginBuffers_header (s : State) (hn : s.argCbLen.toNat ≤ 128) :
    (beginBuffers s).buffer .header = fill 80 0 := by
  unfold beginBuffers
  rw [buffer_writeBuf_other _ _ _ (by decide) (by simp [bufSize]; omega),
    buffer_writeBuf_other _ _ _ (by decide) (by simp [bufSize]),
    buffer_writeBuf_other _ _ _ (by decide) (by simp [bufSize])]
  exact buffer_writeBuf_self _ _ _ (by simp [bufSize])

theorem beginBuffers_path (s : State) (hn : s.argCbLen.toNat ≤ 128) :
    (beginBuffers s).buffer .path = fill 512 0 := by
  unfold beginBuffers
  rw [buffer_writeBuf_other _ _ _ (by decide) (by simp [bufSize]; omega),
    buffer_writeBuf_other _ _ _ (by decide) (by simp [bufSize])]
  exact buffer_writeBuf_self _ _ _ (by simp [bufSize])

/-- A buffer filled from its start reads the fill. -/
theorem readByte_writeBuf_fill (s : State) (b : Buf) (n : Nat) (v : Byte) (k : Nat) (hk : k < n) :
    (s.writeBuf b 0 (fill n v)).readByte (bufBase b + k) = v := by
  have h := readByte_writeBuf_of_mem s b 0 (fill n v) k (by simpa using hk)
  rw [Nat.add_zero] at h
  rw [h, fill_getD n v k hk]

/-- A byte of `COINBASE` after BEGIN: 0 in the prefix, the fragment, 0 after it (rules R49, R190). -/
theorem beginBuffers_coinbase_byte (s : State) (k : Nat) (hk : k < 132) :
    (beginBuffers s).readByte (bufBase .coinbase + k) =
      if 4 ≤ k ∧ k < 4 + s.argCbLen.toNat then s.readByte (bufBase .argCb + (k - 4)) else 0 := by
  unfold beginBuffers
  rw [readByte_writeBuf, opFragment_length]
  by_cases h : 4 ≤ k ∧ k < 4 + s.argCbLen.toNat
  · rw [if_pos (by omega), if_pos h, State.opFragment, State.opCbLen, readBytes_getD _ _ _ _ (by omega),
      show bufBase .coinbase + k - (bufBase .coinbase + 4) = k - 4 by omega]
  · rw [if_neg (by omega), if_neg h]
    exact readByte_writeBuf_fill _ _ _ _ _ hk

/-- The nonce of a header of zeros (rule R190). -/
theorem nonce_eq_le32At (s : State) : s.nonce = le32At (s.buffer .header) 76 := by
  rw [State.buffer, le32At_readBytes _ _ _ _ (by simp [bufSize])]
  rfl

theorem beginBuffers_nonce (s : State) (hn : s.argCbLen.toNat ≤ 128) : (beginBuffers s).nonce = 0 := by
  rw [nonce_eq_le32At, beginBuffers_header s hn]
  rfl

@[simp] theorem coinbasePrefix_length (lead : Byte) (h : Word) : (coinbasePrefix lead h).length = 4 := by
  simp [coinbasePrefix]

@[simp] theorem opHeader_length (s : State) : s.opHeader.length = 80 := by
  simp [State.opHeader, bufSize]

@[simp] theorem opPathBytes_length (s : State) (n : Nat) : (s.opPathBytes n).length = 32 * n := by
  simp [State.opPathBytes]

@[simp] theorem initHeader_length (s : State) : (initHeader s).length = 80 := by
  unfold initHeader
  split <;> simp

@[simp] theorem reportBytes_length (s : State) : (reportBytes s).length = 60 := by
  simp [reportBytes, bufSize]

/-- The offsets INIT may write (rules R194, R198). -/
def initUntouched (a : Nat) : Prop :=
  (a < 0x400 ∨ 0x404 ≤ a) ∧ (a < 0x500 ∨ 0x700 ≤ a) ∧ (a < 0x060 ∨ 0x0D0 ≤ a)

theorem initStore_frame (lead : Byte) (s : State) (a : Nat) (hn : s.argPathLen.toNat ≤ 16)
    (h1 : a < 0x400 ∨ 0x404 ≤ a) (h2 : a < 0x500 ∨ 0x700 ≤ a) : (initStore lead s).readByte a = s.readByte a := by
  unfold initStore
  have e : State.opPathLen s = s.argPathLen.toNat := rfl
  rw [readByte_writeBuf_of_not _ _ _ _ _ (by simp [bufBase, e]; omega),
    readByte_writeBuf_of_not _ _ _ _ _ (by simp [bufBase]; omega)]

/-- INIT's buffer writes change memory alone. -/
theorem initStore_eq (lead : Byte) (s : State) : initStore lead s = { s with mem := (initStore lead s).mem } := by
  simp only [initStore, State.writeBuf]

theorem initStore_path (lead : Byte) (s : State) (hn : s.argPathLen.toNat ≤ 16) :
    (initStore lead s).buffer .path = s.opPathBytes s.opPathLen ++ fill (512 - 32 * s.opPathLen) 0 := by
  unfold initStore
  have e : State.opPathLen s = s.argPathLen.toNat := rfl
  exact buffer_writeBuf_self _ _ _ (by simp [bufSize, e]; omega)

theorem initStore_prefix (lead : Byte) (s : State) :
    (initStore lead s).readBytes (bufBase .coinbase) 4 = coinbasePrefix lead s.argHeight := by
  unfold initStore
  rw [readBytes_writeBuf_of_not _ _ _ _ _ _ (by simp [bufBase])]
  have := readBytes_writeBuf_self s .coinbase 0 (coinbasePrefix lead s.argHeight)
  simpa using this

/-- What INIT's argument buffers hold is not changed by what INIT has stored. -/
theorem initStore_opHeader (lead : Byte) (s : State) (hn : s.argPathLen.toNat ≤ 16) :
    (initStore lead s).opHeader = s.opHeader := by
  apply readBytes_congr
  intro i hi
  simp only [bufSize] at hi
  exact initStore_frame lead s _ hn (by simp [bufBase]; omega) (by simp [bufBase]; omega)

/-- The entries the fold reads are the argument's first entries (rules R181, R197). -/
theorem initStore_pathEntries (lead : Byte) (s : State) (hn : s.argPathLen.toNat ≤ 16) :
    (initStore lead s).pathEntries s.opPathLen =
      (List.range s.opPathLen).map (fun k => s.readBytes (bufBase .argPath + 32 * k) 32) := by
  have e : State.opPathLen s = s.argPathLen.toNat := rfl
  simp only [State.pathEntries]
  apply List.map_congr_left
  intro k hk
  have hk := List.mem_range.mp hk
  apply eq_of_getD (by simp)
  intro i hi
  rw [readBytes_length] at hi
  rw [readBytes_getD _ _ _ _ hi, readBytes_getD _ _ _ _ hi]
  have h1 := buffer_getD (initStore lead s) .path (32 * k + i) (by simp [bufSize]; omega)
  rw [initStore_path lead s hn, List.getD_append _ _ _ _ (by simp; omega), State.opPathBytes,
    readBytes_getD _ _ _ _ (by omega)] at h1
  rw [← Nat.add_assoc, ← Nat.add_assoc] at h1
  exact h1.symm

/-- A successful INIT, field by field (rule R194). -/
theorem initSession_eq (lead : Byte) (t : List Byte) (s : State) :
    initSession lead t s =
      { s with
        height := s.argHeight, pathLen := s.argPathLen, startNonce := (initSession lead t s).startNonce
        status := .mining, result := .ok, mem := (initSession lead t s).mem } := by
  simp only [initSession, initStore, State.writeBuf]

theorem initSession_frame (lead : Byte) (t : List Byte) (s : State) (a : Nat) (hn : s.argPathLen.toNat ≤ 16)
    (ht : t.length = 32) (h : initUntouched a) : (initSession lead t s).readByte a = s.readByte a := by
  obtain ⟨h1, h2, h3⟩ := h
  have e : (initSession lead t s).readByte a =
      (((initStore lead s).writeBuf .header 0 (initHeader (initStore lead s))).writeBuf .target 0 t).readByte a := rfl
  rw [e, readByte_writeBuf_of_not _ _ _ _ _ (by simp [bufBase, ht]; omega),
    readByte_writeBuf_of_not _ _ _ _ _ (by simp [bufBase]; omega), initStore_frame lead s a hn h1 h2]

/-- A byte INIT's last two writes leave is as `initStore` left it. -/
theorem initSession_stored (lead : Byte) (t : List Byte) (s : State) (a : Nat) (ht : t.length = 32)
    (h : a < 0x060 ∨ 0x0D0 ≤ a) : (initSession lead t s).readByte a = (initStore lead s).readByte a := by
  have e : (initSession lead t s).readByte a =
      (((initStore lead s).writeBuf .header 0 (initHeader (initStore lead s))).writeBuf .target 0 t).readByte a := rfl
  rw [e, readByte_writeBuf_of_not _ _ _ _ _ (by simp [bufBase, ht]; omega),
    readByte_writeBuf_of_not _ _ _ _ _ (by simp [bufBase]; omega)]

theorem initSession_target (lead : Byte) (t : List Byte) (s : State) (ht : t.length = 32) :
    (initSession lead t s).buffer .target = t := by
  have e : (initSession lead t s).buffer .target =
      (((initStore lead s).writeBuf .header 0 (initHeader (initStore lead s))).writeBuf .target 0 t).buffer .target :=
    rfl
  rw [e, buffer_writeBuf_self _ _ _ ht]

theorem initSession_header (lead : Byte) (t : List Byte) (s : State) (ht : t.length = 32) :
    (initSession lead t s).buffer .header = initHeader (initStore lead s) := by
  have e : (initSession lead t s).buffer .header =
      (((initStore lead s).writeBuf .header 0 (initHeader (initStore lead s))).writeBuf .target 0 t).buffer .header :=
    rfl
  rw [e, buffer_writeBuf_other _ _ _ (by decide) (by simp [bufSize, ht]), buffer_writeBuf_self _ _ _ (by simp [bufSize])]

/-- The start nonce is the nonce of the header just stored (rule R197). -/
theorem initSession_startNonce (lead : Byte) (t : List Byte) (s : State) :
    (initSession lead t s).startNonce = (initSession lead t s).nonce := by
  simp only [initSession]
  rfl

/-- A failed INIT, field by field (rule R198). -/
theorem failInit_eq (s : State) :
    failInit s =
      { s with
        height := (failInit s).height, pathLen := (failInit s).pathLen, draws := s.draws + 1, status := .invalid
        result := .einval, mem := (failInit s).mem } := by
  simp only [failInit, State.writeBuf, State.countDraw]

theorem failInit_frame (s : State) (a : Nat) (h : initUntouched a) : (failInit s).readByte a = s.readByte a := by
  obtain ⟨h1, h2, h3⟩ := h
  have e : (failInit s).readByte a =
      ((((s.writeBuf .coinbase 0 (drawnBytes s.draws (bufBase .coinbase) 4)).writeBuf
        .path 0 (drawnBytes s.draws (bufBase .path) 512)).writeBuf
        .header 0 (drawnBytes s.draws (bufBase .header) 80)).writeBuf
        .target 0 (drawnBytes s.draws (bufBase .target) 32)).readByte a := rfl
  rw [e, readByte_writeBuf_of_not _ _ _ _ _ (by simp [bufBase]; omega),
    readByte_writeBuf_of_not _ _ _ _ _ (by simp [bufBase]; omega),
    readByte_writeBuf_of_not _ _ _ _ _ (by simp [bufBase]; omega),
    readByte_writeBuf_of_not _ _ _ _ _ (by simp [bufBase]; omega)]

/-- The height and path length a failed INIT leaves are in range (rule R198). -/
theorem failInit_bounds (s : State) : (failInit s).height.toNat ≤ 0xFFFFFF ∧ (failInit s).pathLen.toNat ≤ 16 := by
  constructor
  · have := (Config.drawHeight s.draws).isLt
    have e : (failInit s).height = (Config.drawHeight s.draws).setWidth 32 := rfl
    rw [e, BitVec.toNat_setWidth]
    omega
  · have := (Config.drawPathLen s.draws).isLt
    have e : (failInit s).pathLen = BitVec.ofNat 32 (Config.drawPathLen s.draws).val := rfl
    rw [e, BitVec.toNat_ofNat]
    omega

/-- What INIT validates, as its three conditions (rule R195). -/
theorem initTarget_eq_none (s : State) :
    initTarget s = none ↔
      0xFFFFFF < s.argHeight.toNat ∨ 16 < s.argPathLen.toNat ∨
        compactExponent s.opBits ≤ 3 ∨ 32 < compactExponent s.opBits := by
  unfold initTarget
  have e1 : State.opHeight s = s.argHeight.toNat := rfl
  have e2 : State.opPathLen s = s.argPathLen.toNat := rfl
  have e3 : Config.heightMax = 0xFFFFFF := rfl
  have e4 : Config.maxPath = 16 := rfl
  rw [e1, e2, e3, e4]
  split
  · simp only [true_iff]; omega
  · rw [decodeTarget_eq_none]; omega

theorem initTarget_eq_some {s : State} {t : List Byte} (h : initTarget s = some t) :
    s.argHeight.toNat ≤ 0xFFFFFF ∧ s.argPathLen.toNat ≤ 16 ∧ decodeTarget s.opBits = some t := by
  unfold initTarget at h
  split at h
  · cases h
  · rename_i hc
    have e1 : State.opHeight s = s.argHeight.toNat := rfl
    have e2 : State.opPathLen s = s.argPathLen.toNat := rfl
    have e3 : Config.heightMax = 0xFFFFFF := rfl
    have e4 : Config.maxPath = 16 := rfl
    rw [e1, e2, e3, e4] at hc
    exact ⟨by omega, by omega, h⟩

theorem initAccepted_iff (x : Status) : initAccepted x = true ↔ x = .ready ∨ x = .invalid := by
  simp [initAccepted]

/-- The three outcomes of INIT (rules R194, R198, R200): the inversion lemma of `initEffect`. -/
theorem initEffect_cases (lead : Byte) (s : State) :
    (s.status ≠ .ready ∧ s.status ≠ .invalid ∧ initEffect lead s = s.setResult .estate) ∨
    ((s.status = .ready ∨ s.status = .invalid) ∧ initTarget s = none ∧ initEffect lead s = failInit s) ∨
    ((s.status = .ready ∨ s.status = .invalid) ∧
      ∃ t, initTarget s = some t ∧ initEffect lead s = initSession lead t s) := by
  unfold initEffect
  by_cases h : initAccepted s.status = true
  · rw [if_pos h]
    have h' := (initAccepted_iff _).mp h
    cases ht : initTarget s with
    | none => exact .inr (.inl ⟨h', rfl, rfl⟩)
    | some t => exact .inr (.inr ⟨h', t, rfl, rfl⟩)
  · rw [if_neg h]
    rw [initAccepted_iff] at h
    exact .inl ⟨fun e => h (.inl e), fun e => h (.inr e), rfl⟩

/-- The two outcomes of BEGIN (rules R190, R191). -/
theorem beginEffect_cases (cap : Nat) (s : State) :
    (cap < s.argCbLen.toNat ∧ beginEffect cap s = s.setResult .einval) ∨
    (s.argCbLen.toNat ≤ cap ∧ beginEffect cap s = beginScalars (beginBuffers s)) := by
  unfold beginEffect
  have e : State.opCbLen s = s.argCbLen.toNat := rfl
  rw [e]
  by_cases h : cap < s.argCbLen.toNat
  · exact .inl ⟨h, by rw [if_pos h]; rfl⟩
  · exact .inr ⟨by omega, by rw [if_neg h]⟩

/-- REPORT changes the report's bytes alone (rule R205). -/
theorem reportEffect_frame (s : State) (a : Nat) (h : a < 0x0D0 ∨ 0x10C ≤ a) :
    (reportEffect s).readByte a = s.readByte a := by
  unfold reportEffect
  rw [setResult_readByte, readByte_writeBuf_of_not _ _ _ _ _ (by simp [bufBase]; omega)]

theorem reportEffect_report (s : State) : (reportEffect s).buffer .report = reportBytes s := by
  unfold reportEffect
  rw [setResult_buffer, buffer_writeBuf_self _ _ _ (by simp [bufSize])]

end Sys2Proof.Machine
end

