-- ==== Sys2Proof/Laws/Step.lean ====
section
/-! SUPPORT. What one step can do: each command as its effect, the engine's turn, and the inversion lemma of `step`. -/

namespace Sys2Proof.Machine

theorem exec_begin (s : State) : exec .begin s = .next (beginEffect Config.cbCap s) := rfl

theorem exec_init (s : State) : exec .init s = .next (initEffect Config.cbLead s) := rfl

theorem exec_mine (s : State) : exec .mine s = .next (mineEffect (Config.drawElapsed s.draws) s) := rfl

theorem exec_endSession (s : State) : exec .endSession s = .next (endEffect s) := rfl

theorem exec_report (s : State) : exec .report s = .next (reportEffect s) := rfl

theorem exec_encrypt (s : State) : exec .encrypt s = .next (encryptEffect cipherE s) := rfl

theorem exec_decrypt (s : State) : exec .decrypt s = .next (decryptEffect cipherD s) := rfl

/-- Every command has a next state (rules R112, R280). -/
theorem exec_next (i : Instr) (s : State) : ∃ t, exec i s = .next t := by
  cases i
  · exact ⟨_, exec_begin s⟩
  · exact ⟨_, exec_init s⟩
  · exact ⟨_, exec_mine s⟩
  · exact ⟨_, exec_endSession s⟩
  · exact ⟨_, exec_report s⟩
  · exact ⟨_, exec_encrypt s⟩
  · exact ⟨_, exec_decrypt s⟩

/-- What no command writes: the control registers, the arguments, the key, and everything about the bus and the reset
input. -/
theorem exec_keeps {i : Instr} {s t : State} (h : exec i s = .next t) :
    t.cmd = s.cmd ∧ t.ctrl = s.ctrl ∧ t.pending = s.pending ∧ t.ovr = s.ovr ∧ t.argCbLen = s.argCbLen ∧
    t.argHeight = s.argHeight ∧ t.argPathLen = s.argPathLen ∧ t.argCycles = s.argCycles ∧ t.key0 = s.key0 ∧
    t.key1 = s.key1 ∧ t.key2 = s.key2 ∧ t.key3 = s.key3 ∧ t.clen = s.clen ∧ t.ccap = s.ccap ∧ t.resetLine =
    s.resetLine ∧ t.schedule = s.schedule ∧ t.busData = s.busData ∧ t.resetDraw = s.resetDraw := by
  cases i
  · rw [exec_begin, Host.Outcome.next.injEq] at h
    rcases beginEffect_cases Config.cbCap s with ⟨-, e⟩ | ⟨-, e⟩ <;> rw [← h, e] <;> simp
  · rw [exec_init, Host.Outcome.next.injEq] at h
    rcases initEffect_cases Config.cbLead s with ⟨-, -, e⟩ | ⟨-, -, e⟩ | ⟨-, u, -, e⟩ <;> rw [← h, e] <;> simp
  · rw [exec_mine, Host.Outcome.next.injEq] at h
    rcases mineEffect_cases (Config.drawElapsed s.draws) s with ⟨-, e⟩ | ⟨-, e⟩ <;> rw [← h, e] <;> simp
  · rw [exec_endSession, Host.Outcome.next.injEq] at h
    rw [← h, endEffect]
    simp
  · rw [exec_report, Host.Outcome.next.injEq] at h
    rw [← h]
    simp
  · rw [exec_encrypt, Host.Outcome.next.injEq] at h
    rcases encryptEffect_cases cipherE s with ⟨-, e⟩ | ⟨-, e⟩ | ⟨-, -, -, e⟩ <;> rw [← h, e] <;> simp
  · rw [exec_decrypt, Host.Outcome.next.injEq] at h
    rcases decryptEffect_cases cipherD s with ⟨-, e⟩ | ⟨-, -, -, e⟩ <;> rw [← h, e] <;> simp

/-- The engine step on a defined word: the command's effect, then `pending` is cleared (rule R91). -/
theorem engineStep_ok {w : Word} {i : Instr} (h : decode w = .ok i) (s t : State) (ht : exec i s = .next t) :
    engineStep w s = .next (finishCommand t) := by
  unfold engineStep
  rw [h]
  simp only [ht, finishOutcome]

/-- The engine step on an undefined word (rule R113). -/
theorem engineStep_error {w : Word} {e : Reject} (h : decode w = .error e) (s : State) :
    engineStep w s = .next (finishCommand (s.setResult .eopc)) := by
  unfold engineStep
  rw [h]
  rfl

/-- What the engine's turn can do (rules R91, R112, R113, R292, R300). -/
theorem engineTurn_cases (s : State) :
    ((s.resetLine = true ∨ s.pending = none) ∧ engineTurn s = .next s) ∨
    (s.resetLine = false ∧ ∃ w i t, s.pending = some w ∧ decode w = .ok i ∧ exec i s = .next t ∧
      engineTurn s = .next (finishCommand t)) ∨
    (s.resetLine = false ∧ ∃ w e, s.pending = some w ∧ decode w = .error e ∧
      engineTurn s = .next (finishCommand (s.setResult .eopc))) := by
  unfold engineTurn
  by_cases hr : s.resetLine = true
  · exact .inl ⟨.inl hr, if_pos hr⟩
  rw [if_neg hr]
  have hr := Bool.eq_false_iff.mpr hr
  cases hp : s.pending with
  | none => exact .inl ⟨.inr rfl, rfl⟩
  | some w =>
    refine .inr ?_
    cases hd : decode w with
    | ok i =>
      obtain ⟨t, ht⟩ := exec_next i s
      exact .inl ⟨hr, w, i, t, rfl, hd, ht, engineStep_ok hd s t ht⟩
    | error e => exact .inr ⟨hr, w, e, rfl, hd, engineStep_error hd s⟩

/-- `s` with the rest of its schedule. -/
def State.withSchedule (s : State) (l : List Event) : State := { s with schedule := l }

@[simp] theorem withSchedule_cmd (s : State) (l : List Event) : (s.withSchedule l).cmd = s.cmd := (rfl)

@[simp] theorem withSchedule_ctrl (s : State) (l : List Event) : (s.withSchedule l).ctrl = s.ctrl := (rfl)

@[simp] theorem withSchedule_pending (s : State) (l : List Event) : (s.withSchedule l).pending = s.pending := (rfl)

@[simp] theorem withSchedule_ovr (s : State) (l : List Event) : (s.withSchedule l).ovr = s.ovr := (rfl)

@[simp] theorem withSchedule_result (s : State) (l : List Event) : (s.withSchedule l).result = s.result := (rfl)

@[simp] theorem withSchedule_status (s : State) (l : List Event) : (s.withSchedule l).status = s.status := (rfl)

@[simp] theorem withSchedule_height (s : State) (l : List Event) : (s.withSchedule l).height = s.height := (rfl)

@[simp] theorem withSchedule_nonce2 (s : State) (l : List Event) : (s.withSchedule l).nonce2 = s.nonce2 := (rfl)

@[simp] theorem withSchedule_startNonce (s : State) (l : List Event) : (s.withSchedule l).startNonce = s.startNonce := (rfl)

@[simp] theorem withSchedule_bestNonce (s : State) (l : List Event) : (s.withSchedule l).bestNonce = s.bestNonce := (rfl)

@[simp] theorem withSchedule_hashTime (s : State) (l : List Event) : (s.withSchedule l).hashTime = s.hashTime := (rfl)

@[simp] theorem withSchedule_cbLen (s : State) (l : List Event) : (s.withSchedule l).cbLen = s.cbLen := (rfl)

@[simp] theorem withSchedule_pathLen (s : State) (l : List Event) : (s.withSchedule l).pathLen = s.pathLen := (rfl)

@[simp] theorem withSchedule_argCbLen (s : State) (l : List Event) : (s.withSchedule l).argCbLen = s.argCbLen := (rfl)

@[simp] theorem withSchedule_argHeight (s : State) (l : List Event) : (s.withSchedule l).argHeight = s.argHeight := (rfl)

@[simp] theorem withSchedule_argPathLen (s : State) (l : List Event) : (s.withSchedule l).argPathLen = s.argPathLen := (rfl)

@[simp] theorem withSchedule_argCycles (s : State) (l : List Event) : (s.withSchedule l).argCycles = s.argCycles := (rfl)

@[simp] theorem withSchedule_key0 (s : State) (l : List Event) : (s.withSchedule l).key0 = s.key0 := (rfl)

@[simp] theorem withSchedule_key1 (s : State) (l : List Event) : (s.withSchedule l).key1 = s.key1 := (rfl)

@[simp] theorem withSchedule_key2 (s : State) (l : List Event) : (s.withSchedule l).key2 = s.key2 := (rfl)

@[simp] theorem withSchedule_key3 (s : State) (l : List Event) : (s.withSchedule l).key3 = s.key3 := (rfl)

@[simp] theorem withSchedule_clen (s : State) (l : List Event) : (s.withSchedule l).clen = s.clen := (rfl)

@[simp] theorem withSchedule_ccap (s : State) (l : List Event) : (s.withSchedule l).ccap = s.ccap := (rfl)

@[simp] theorem withSchedule_cres (s : State) (l : List Event) : (s.withSchedule l).cres = s.cres := (rfl)

@[simp] theorem withSchedule_mem (s : State) (l : List Event) : (s.withSchedule l).mem = s.mem := (rfl)

@[simp] theorem withSchedule_resetLine (s : State) (l : List Event) : (s.withSchedule l).resetLine = s.resetLine := (rfl)

@[simp] theorem withSchedule_schedule (s : State) (l : List Event) : (s.withSchedule l).schedule = l := (rfl)

@[simp] theorem withSchedule_busData (s : State) (l : List Event) : (s.withSchedule l).busData = s.busData := (rfl)

@[simp] theorem withSchedule_draws (s : State) (l : List Event) : (s.withSchedule l).draws = s.draws := (rfl)

@[simp] theorem withSchedule_resetDraw (s : State) (l : List Event) : (s.withSchedule l).resetDraw = s.resetDraw := (rfl)

@[simp] theorem withSchedule_readByte (s : State) (l : List Event) (a : Nat) : (s.withSchedule l).readByte a = s.readByte a := (rfl)

@[simp] theorem withSchedule_readWord (s : State) (l : List Event) (a : Nat) : (s.withSchedule l).readWord a = s.readWord a := (rfl)

@[simp] theorem withSchedule_buffer (s : State) (l : List Event) (b : Buf) : (s.withSchedule l).buffer b = s.buffer b := (rfl)

@[simp] theorem withSchedule_nonce (s : State) (l : List Event) : (s.withSchedule l).nonce = s.nonce := (rfl)

@[simp] theorem withSchedule_busy (s : State) (l : List Event) : (s.withSchedule l).busy = s.busy := (rfl)

/-- One step, by what comes next in the schedule. -/
theorem step_nil {s : State} (h : s.schedule = []) : step s = engineTurn s := by
  unfold step
  rw [h]

theorem step_cons {s : State} {e : Event} {l : List Event} (h : s.schedule = e :: l) :
    step s = handleEvent e (s.withSchedule l) := by
  unfold step State.withSchedule
  rw [h]

/-- The engine is never refused and never faults (rules R280, R283). -/
theorem engineTurn_next (s : State) : ∃ t, engineTurn s = .next t := by
  rcases engineTurn_cases s with ⟨-, e⟩ | ⟨-, w, i, t, -, -, -, e⟩ | ⟨-, w, x, -, -, e⟩ <;> exact ⟨_, e⟩

theorem core_run_zero (s : State) : core.run 0 s = .next s := rfl

/-- A run goes on from the next state. -/
theorem core_run_succ (n : Nat) {s t : State} (h : step s = .next t) : core.run (n + 1) s = core.run n t := by
  have h' : core.step s = .next t := h
  simp only [Host.Core.run, h']

end Sys2Proof.Machine
end

