-- ==== Sys2Proof/Laws/HostProgram.lean ====
section
/-! SUPPORT. Host notation: what a well-formed access of a line does, and what one event does to a run. -/

namespace Sys2Proof.Machine

theorem memWrite_wellFormed (v : Word) {o : Nat} (h : o % 4 = 0) : (memWrite o v).wellFormed = true := by
  simp [memWrite, Access.wellFormed, base_add_mod, h]

theorem memRead_wellFormed {o : Nat} (h : o % 4 = 0) : (memRead o).wellFormed = true := by
  simp [memRead, Access.wellFormed, base_add_mod, h]

/-- A write a line makes is performed by `hostWrite` (rules R82, R83). -/
theorem hostAccess_memWrite (v : Word) {o : Nat} (s : State) (hr : s.resetLine = false) (h4 : o % 4 = 0)
    (ho : o < 4096) : hostAccess (memWrite o v) s = .next (hostWrite o v { s with busData := none }) := by
  rcases hostAccess_cases (memWrite o v) s hr with ⟨q, ha, _, _, h⟩ | ⟨h, _, _⟩ | ⟨hn, _⟩
  · have e : (memWrite o v).addr = Config.base + o := rfl
    obtain rfl : q = o := by omega
    rcases h with ⟨h, -⟩ | ⟨u, h, e⟩
    · cases h
    · cases h; exact e
  · rw [memWrite_wellFormed v h4] at h; cases h
  · rw [show (memWrite o v).addr = Config.base + o from rfl, windowOffset_base o ho] at hn; cases hn

/-- A read a line makes is performed by `hostRead` (rules R82, R83). -/
theorem hostAccess_memRead {o : Nat} (s : State) (hr : s.resetLine = false) (h4 : o % 4 = 0) (ho : o < 4096) :
    hostAccess (memRead o) s = .next (hostRead o s) := by
  rcases hostAccess_cases (memRead o) s hr with ⟨q, ha, _, _, h⟩ | ⟨h, _, _⟩ | ⟨hn, _⟩
  · have e : (memRead o).addr = Config.base + o := rfl
    obtain rfl : q = o := by omega
    rcases h with ⟨_, e⟩ | ⟨u, h, -⟩
    · exact e
    · cases h
  · rw [memRead_wellFormed h4] at h; cases h
  · rw [show (memRead o).addr = Config.base + o from rfl, windowOffset_base o ho] at hn; cases hn

/-- `ESTAT` is in no command's write set, so a poll reads it and not a draw (rule R93). -/
theorem unsettled_estat (s : State) : unsettled s 0x008 = false := by
  have hl : locate 0x008 = .reg .estat := by decide
  unfold unsettled
  cases s.pending with
  | none => rfl
  | some w =>
    dsimp only
    rw [hl]
    cases commandOf w with
    | none => decide
    | some i => cases i <;> decide

/-- A read of `ESTAT` puts `BUSY` and `OVR` on the bus and changes nothing else. -/
theorem hostRead_estat (s : State) : hostRead 0x008 s = { s with busData := some s.estatWord } := by
  unfold hostRead
  rw [if_neg (by rw [unsettled_estat]; decide)]
  rfl

/-- Bit 0 of `ESTAT` is `BUSY` (rule R35). -/
theorem estatWord_bit0 (s : State) : s.estatWord.getLsbD 0 = s.busy := by
  unfold State.estatWord
  cases s.busy <;> cases s.ovr <;> rfl

/-- After a read of `ESTAT`, `poll` is over exactly when `BUSY` is 0. -/
theorem readIdle_estat (s : State) : readIdle { s with busData := some s.estatWord } = !s.busy := by
  show (!s.estatWord.getLsbD 0) = _
  rw [estatWord_bit0]

@[simp] theorem isRun_nil (todo : List HostAction) (s : State) : isRun [] todo s = todo.isEmpty := rfl

/-- A run's first event: a step that does not stop, an event the program allows there, and a run of what is left. -/
theorem isRun_cons {e : Event} {rest : List Event} {todo : List HostAction} {s : State} :
    isRun (e :: rest) todo s = true ↔
      ∃ t left, step { s with schedule := e :: rest } = .next t ∧ actionsAfter e t todo = some left ∧
        isRun rest left t = true := by
  rw [isRun]
  cases step { s with schedule := e :: rest } with
  | next t =>
    dsimp only
    cases ha : actionsAfter e t todo with
    | some left => simp [ha]
    | none => simp [ha]
  | fault _ => simp
  | refused _ => simp

/-- After the access of the next action, that action is done or, for a `poll` that read `BUSY` = 1, still to do. -/
theorem actionsAfter_self (x : HostAction) (rest : List HostAction) (s : State) :
    actionsAfter (.access (actionAccess x)) s (x :: rest) = some (if actionOver x s then rest else x :: rest) := by
  simp only [actionsAfter, if_true]
  split <;> rfl

/-- An access in a run is the one the next action performs. -/
theorem actionsAfter_access {a : Access} {s : State} {todo left : List HostAction}
    (h : actionsAfter (.access a) s todo = some left) :
    ∃ x rest, todo = x :: rest ∧ a = actionAccess x ∧ left = if actionOver x s then rest else x :: rest := by
  cases todo with
  | nil => cases h
  | cons x rest =>
    have h : (if a = actionAccess x then (if actionOver x s then some rest else some (x :: rest)) else none) =
      some left := h
    by_cases e : a = actionAccess x
    · rw [if_pos e] at h
      refine ⟨x, rest, rfl, e, ?_⟩
      by_cases ho : actionOver x s = true
      · rw [if_pos ho] at h ⊢; exact (Option.some.inj h).symm
      · rw [if_neg ho] at h ⊢; exact (Option.some.inj h).symm
    · rw [if_neg e] at h; cases h

end Sys2Proof.Machine
end

