-- ==== Sys2Proof/Laws/Invariant.lean ====
section
/-! SUPPORT. Lemmas for the invariants: which fields they depend on, and that every effect keeps the canonical memory. -/

namespace Sys2Proof.Machine

/-- The buffers the invariants speak of. -/
def sessionBufs : List Buf := [.bestHash, .target, .header, .coinbase, .path]

/-- Two states that agree on a buffer agree on its bytes. -/
theorem readByte_of_buffer_eq {s t : State} {b : Buf} (h : t.buffer b = s.buffer b) (k : Nat) (hk : k < bufSize b) :
    t.readByte (bufBase b + k) = s.readByte (bufBase b + k) := by
  rw [← buffer_getD _ _ _ hk, h, buffer_getD _ _ _ hk]

/-- The word of the bits field in terms of the header (rules R46, R84). -/
theorem bitsWord_eq (s : State) : s.readWord bitsOffset = le32At (s.buffer .header) 72 := by
  rw [State.buffer, le32At_readBytes _ _ _ _ (by decide)]
  rfl

/-- The invariants depend on the session registers, the session buffers, and the form of memory, `CTRL` and `CMD`. -/
theorem State.Inv.congr {s t : State} (h : s.Inv) (hm : t.mem.wf = true) (hctrl : t.ctrl &&& ~~~ctrlMask = 0)
    (hcmd : ∀ w, t.pending = some w → t.cmd = w)
    (hr : t.status = s.status ∧ t.height = s.height ∧ t.nonce2 = s.nonce2 ∧ t.startNonce = s.startNonce ∧
      t.bestNonce = s.bestNonce ∧ t.hashTime = s.hashTime ∧ t.cbLen = s.cbLen ∧ t.pathLen = s.pathLen)
    (hb : ∀ b ∈ sessionBufs, t.buffer b = s.buffer b) : t.Inv := by
  obtain ⟨r1, r2, r3, r4, r5, r6, r7, r8⟩ := hr
  have b1 := hb .bestHash (by decide)
  have b2 := hb .target (by decide)
  have b3 := hb .header (by decide)
  have b4 := readByte_of_buffer_eq (hb .coinbase (by decide))
  have b5 := readByte_of_buffer_eq (hb .path (by decide))
  have hn : t.nonce = s.nonce := by rw [nonce_eq_le32At, nonce_eq_le32At, b3]
  have hbits : t.readWord bitsOffset = s.readWord bitsOffset := by rw [bitsWord_eq, bitsWord_eq, b3]
  have hat : ∀ nc, headerAt t nc = headerAt s nc := fun nc => by rw [headerAt, headerAt, b3]
  constructor
  · exact hm
  · exact hctrl
  · exact hcmd
  · rw [r7]; exact h.cbLen
  · rw [r8]; exact h.pathLen
  · rw [r2]; exact h.height
  · rw [r1, hbits, b2]; exact h.target
  · rw [r1, b1, r3, r4, r5, r6]; exact h.fresh
  · rw [r1, b1, b2]; exact h.best
  · rw [b1, hat, r5]; exact h.bestNonce
  · rw [r1, hn, b1, b2, b3, r5]; exact h.solved
  · rw [r1, hn]; exact h.exhausted
  · rw [r3, hn, r4]; exact h.tried
  · intro k h1 h2
    rw [b4 k h2]
    exact h.coinbase k (by rw [← r7]; exact h1) h2
  · intro hi k h1 h2
    rw [b5 k h2]
    exact h.path (by rw [← r1]; exact hi) k (by rw [← r8]; exact h1) h2

/-- A write inside a buffer keeps the canonical form. -/
theorem writeBuf_wf {s : State} (h : s.mem.wf = true) (b : Buf) (k : Nat) (bs : List Byte)
    (hk : k + bs.length ≤ bufSize b) : (s.writeBuf b k bs).mem.wf = true := by
  rw [writeBuf_mem]
  exact Memory.wf_store_buf h b k bs hk

theorem beginBuffers_wf {s : State} (h : s.mem.wf = true) (hn : s.argCbLen.toNat ≤ 128) :
    (beginBuffers s).mem.wf = true := by
  unfold beginBuffers
  apply writeBuf_wf _ _ _ _ (by simp [bufSize]; omega)
  apply writeBuf_wf _ _ _ _ (by simp [bufSize])
  apply writeBuf_wf _ _ _ _ (by simp [bufSize])
  apply writeBuf_wf _ _ _ _ (by simp [bufSize])
  apply writeBuf_wf _ _ _ _ (by simp [bufSize])
  exact writeBuf_wf h _ _ _ (by simp [bufSize])

theorem initStore_wf (lead : Byte) {s : State} (h : s.mem.wf = true) (hn : s.argPathLen.toNat ≤ 16) :
    (initStore lead s).mem.wf = true := by
  have e : State.opPathLen s = s.argPathLen.toNat := rfl
  unfold initStore
  apply writeBuf_wf _ _ _ _ (by simp [bufSize, e]; omega)
  exact writeBuf_wf h _ _ _ (by simp [bufSize])

theorem initSession_mem (lead : Byte) (t : List Byte) (s : State) :
    (initSession lead t s).mem =
      (((initStore lead s).writeBuf .header 0 (initHeader (initStore lead s))).writeBuf .target 0 t).mem := by
  simp only [initSession]

theorem initSession_wf (lead : Byte) {t : List Byte} {s : State} (h : s.mem.wf = true) (hn : s.argPathLen.toNat ≤ 16)
    (ht : t.length = 32) : (initSession lead t s).mem.wf = true := by
  rw [initSession_mem]
  apply writeBuf_wf _ _ _ _ (by simp [bufSize, ht])
  exact writeBuf_wf (initStore_wf lead h hn) _ _ _ (by simp [bufSize])

theorem failInit_mem (s : State) :
    (failInit s).mem =
      ((((s.writeBuf .coinbase 0 (drawnBytes s.draws (bufBase .coinbase) 4)).writeBuf
        .path 0 (drawnBytes s.draws (bufBase .path) 512)).writeBuf
        .header 0 (drawnBytes s.draws (bufBase .header) 80)).writeBuf
        .target 0 (drawnBytes s.draws (bufBase .target) 32)).mem := by
  simp only [failInit, countDraw_mem]

theorem failInit_wf {s : State} (h : s.mem.wf = true) : (failInit s).mem.wf = true := by
  rw [failInit_mem]
  apply writeBuf_wf _ _ _ _ (by simp [bufSize])
  apply writeBuf_wf _ _ _ _ (by simp [bufSize])
  apply writeBuf_wf _ _ _ _ (by simp [bufSize])
  exact writeBuf_wf h _ _ _ (by simp [bufSize])

theorem reportEffect_wf {s : State} (h : s.mem.wf = true) : (reportEffect s).mem.wf = true := by
  unfold reportEffect
  rw [setResult_mem]
  exact writeBuf_wf h _ _ _ (by simp [bufSize])

theorem recordBest_wf {s : State} (h : s.mem.wf = true) (hash : List Byte) (nc : Word) (hl : hash.length = 32) :
    (s.recordBest hash nc).mem.wf = true := by
  rw [recordBest_mem]
  exact Memory.wf_store_buf h .bestHash 0 hash (by simp [hl, bufSize])

theorem setNonce_wf {s : State} (h : s.mem.wf = true) (v : Word) : (s.setNonce v).mem.wf = true :=
  writeBuf_wf h .header 76 _ (by simp [bufSize])

theorem trackBest_wf {s : State} (h : s.mem.wf = true) (hash : List Byte) (nc : Word) (hl : hash.length = 32) :
    (trackBest hash nc s).mem.wf = true := by
  rcases trackBest_cases hash nc s with ⟨-, e⟩ | ⟨-, e⟩ <;> rw [e]
  · exact recordBest_wf h hash nc hl
  · exact h

theorem minePass_wf {s : State} (h : s.mem.wf = true) : (minePass s).mem.wf = true := by
  have hl := headerHash_length s
  have ht := trackBest_wf h (headerHash s) s.nonce hl
  rcases minePass_cases s with ⟨-, e⟩ | ⟨-, -, -, e⟩ | ⟨-, -, -, -, e⟩ | ⟨-, -, e⟩ <;> rw [e]
  · rw [setStatus_mem]; exact recordBest_wf h _ _ hl
  · rw [setStatus_mem]; exact ht
  · exact setNonce_wf (by rw [setNonce2_mem]; exact ht) _
  · exact setNonce_wf ht _

/-- What a write of the window does to memory: nothing, or a word stored inside a writable buffer. -/
theorem hostWrite_mem (o : Nat) (v : Word) (s : State) :
    (hostWrite o v s).mem = s.mem ∨
      ∃ b, locate o = .buf b ∧ bufWritable b = true ∧ hostWrite o v s = { s with mem := s.mem.store o (toLE32 v) } := by
  rcases hostWrite_cases o v s with ⟨-, -, e⟩ | ⟨-, -, e⟩ | ⟨-, e⟩ <;> rw [e]
  · exact .inl (by rw [writeEstat_eq])
  · exact .inl rfl
  · unfold writeWindow
    cases hl : locate o with
    | reg r => exact .inl (by dsimp only; rw [writeReg_eq])
    | buf b =>
      cases hb : bufWritable b with
      | true => exact .inr ⟨b, rfl, hb, by simp [hb]⟩
      | false => exact .inl (by simp [hb])
    | reserved => exact .inl rfl

end Sys2Proof.Machine
end

