-- ==== Sys2Proof/Laws/PerInstr.lean ====
section
/-! SUPPORT. The statements made per instruction. The family `Encoding` is about a command's word. -/

namespace Sys2Proof.Laws.Encoding

/-- The word of a well-formed command has its opcode in bits [7:0], zeros in bits [31:8], is well formed, and is four
bytes on the bus, opcode first (rules R84, R110, R111). -/
def Statement (i : Instr) : Prop :=
  i.wellFormed = true →
    opcField (encode i) = opcodeOf i ∧ rsvdField (encode i) = 0 ∧ wordWellFormed (encode i) = true ∧
      encodeBytes i = [opcodeOf i, 0, 0, 0]

theorem begin : Statement .begin := by unfold Statement; decide

theorem init : Statement .init := by unfold Statement; decide

theorem mine : Statement .mine := by unfold Statement; decide

theorem endSession : Statement .endSession := by unfold Statement; decide

theorem report : Statement .report := by unfold Statement; decide

theorem encrypt : Statement .encrypt := by unfold Statement; decide

theorem decrypt : Statement .decrypt := by unfold Statement; decide

end Sys2Proof.Laws.Encoding
end

