-- ==== Sys2Proof/Tests/Slice0.lean ====
section
/-! SUPPORT. The tests: words written out from the encoding of rules R110 and R111, ill-formed terms the checks refuse,
vectors of the spec's file 95 (its row is named in each docstring) and, for every statement with hypotheses, a witness
that they can be met. `CB_CAP` and the draws are constants without a body, so a test of BEGIN fixes the cap and a test
of MINE the draw. -/

open Sys2Proof Sys2Proof.Machine

namespace Sys2Proof.Tests

-- One theorem at a time: the hash vectors take much memory when the kernel evaluates several of them at once.
set_option Elab.async false

/-- A 32-byte value written as a number, byte 0 most significant (rule R10). -/
def bytes256 (n : Nat) : List Byte := (List.range 32).map (fun i => BitVec.ofNat 8 (n / 256 ^ (31 - i)))

/-- Right after reset, with events to come. -/
def scheduled (es : List Event) : State := { State.reset with schedule := es }

/-- Right after reset, with a command pending and events to come. -/
def pendingWith (w : Word) (es : List Event) : State :=
  { State.reset with cmd := w, pending := some w, schedule := es }

/-- The ASCII bytes of "solarbit" (file 95, section 10). -/
def solarbit : List Byte := [0x73, 0x6f, 0x6c, 0x61, 0x72, 0x62, 0x69, 0x74]

/-- `cbA` of file 95. -/
def cbA : List Byte := [0x03, 0x01, 0x00, 0x00] ++ solarbit

/-! ## Well-formedness: each check with a term it refuses -/

/-- `RSVD` ≠ 0 (file 95 section 8: 0x80000003, and bit 8 alone). -/
theorem test_wordWellFormed_reserved :
    wordWellFormed 0x80000003 = false ∧ wordWellFormed 0x00000101 = false := by decide

/-- An opcode outside the table (file 95 section 8: 0x00, 0x06, 0x0F, 0x12, 0xFF). -/
theorem test_wordWellFormed_opcode :
    [(0x00000000 : Word), 0x00000006, 0x0000000F, 0x00000012, 0x000000FF].all (fun w => !wordWellFormed w) = true := by
  decide +kernel

theorem test_wordWellFormed_accepts : wordWellFormed 0x00000010 = true := by decide

/-- An access of one byte, and one at an address that is not a multiple of 4 (X3, X4). -/
theorem test_accessWellFormed_refuses :
    (⟨0x004, 1, .write 1⟩ : Access).wellFormed = false ∧ (⟨0x006, 4, .read⟩ : Access).wellFormed = false := by decide

theorem test_accessWellFormed_accepts : (⟨0x004, 4, .write 1⟩ : Access).wellFormed = true := by decide

/-- Byte offsets into a buffer that are not multiples of 4, and lines that would leave the buffer they name (rule
R115). -/
theorem test_hostLineWellFormed_refuses :
    (HostLine.wrBuf .argHeader 0x4A 1).wellFormed = false ∧ (HostLine.wrBytes .cbuf 1 [0]).wellFormed = false ∧
      (HostLine.wrBytes .argCb 124 solarbit).wellFormed = false ∧ (HostLine.wrBuf .argHeader 0x50 1).wellFormed = false ∧
      (HostLine.rdBytes .report 61).wellFormed = false := by decide

/-- The last words of buffers. -/
theorem test_hostLineWellFormed_accepts :
    (HostLine.wrBytes .argCb 120 solarbit).wellFormed = true ∧ (HostLine.wrBuf .argHeader 0x4C 1).wellFormed = true ∧
      (HostLine.rdBytes .report 60).wellFormed = true := by decide

/-- The canonical form of memory refuses an entry equal to what is read anyway, offsets that do not rise, and an offset
of no buffer. -/
theorem test_memoryWf_refuses :
    Memory.wf [(0x080, 0)] = false ∧ Memory.wf [(0x081, 1), (0x080, 1)] = false ∧ Memory.wf [(0x014, 1)] = false := by
  decide

theorem test_memoryWf_accepts : Memory.wf [(0x040, 0), (0x080, 1), (0x800, 0)] = true := by decide

/-! ## Decoding: each command's word, bit by bit, [31:8] `RSVD` and [7:0] `OPC` (rules R110, R111) -/

theorem test_decode_begin :
    decode 0b00000000_00000000_00000000_00000001 = .ok .begin ∧ encode .begin = 0x00000001 := by decide

theorem test_decode_init :
    decode 0b00000000_00000000_00000000_00000010 = .ok .init ∧ encode .init = 0x00000002 := by decide

theorem test_decode_mine :
    decode 0b00000000_00000000_00000000_00000011 = .ok .mine ∧ encode .mine = 0x00000003 := by decide

theorem test_decode_end :
    decode 0b00000000_00000000_00000000_00000100 = .ok .endSession ∧ encode .endSession = 0x00000004 := by decide

theorem test_decode_report :
    decode 0b00000000_00000000_00000000_00000101 = .ok .report ∧ encode .report = 0x00000005 := by decide

theorem test_decode_encrypt :
    decode 0b00000000_00000000_00000000_00010000 = .ok .encrypt ∧ encode .encrypt = 0x00000010 := by decide

theorem test_decode_decrypt :
    decode 0b00000000_00000000_00000000_00010001 = .ok .decrypt ∧ encode .decrypt = 0x00000011 := by decide

/-- `RSVD` is examined before the opcode (rule R112), and the rejected words of file 95 section 8. -/
theorem test_decode_rejects :
    decode 0x00000101 = .error .reservedBits ∧ decode 0x80000003 = .error .reservedBits ∧
      decode 0x00000106 = .error .reservedBits ∧ decode 0x00000000 = .error (.undefinedOpcode 0x00) ∧
      decode 0x00000012 = .error (.undefinedOpcode 0x12) := by decide

/-- The bytes on the bus, opcode first (rule R84), the rest handed back, and too few bytes rejected. -/
theorem test_decodeBytes :
    decodeBytes [0x11, 0, 0, 0, 0xAA] = .ok (.decrypt, [0xAA]) ∧ decodeBytes [0x11, 0, 0] = .error .truncated := by
  decide

theorem test_decodeTableWord :
    decodeTableWord 32 0x10 = some .encrypt ∧ decodeTableWord 8 0x05 = some .report ∧
      decodeTableWord 32 0x80000003 = none := by decide

/-- The disassembly column of file 95 section 8. -/
theorem test_disassemble :
    disassemble 0x00000004 = "END" ∧ disassemble 0x0000000F = ".undef 0x0000000f" ∧
      disassemble 0x80000003 = ".undef 0x80000003" := by decide +kernel

/-! ## Internal functions, vectors of file 95 sections 2 to 9 -/

/-- Section 2: `SHA256("abc")`, the FIPS 180-4 example. -/
theorem test_sha256_abc :
    sha256 [0x61, 0x62, 0x63] =
      bytes256 0xba7816bf8f01cfea414140de5dae2223b00361a396177a9cb410ff61f20015ad := by decide +kernel

/-- Section 2, S1: `DoubleHash("")`. -/
theorem test_doubleHash_empty :
    doubleHash [] = bytes256 0x56944c5d3f98413ef45cf54545538103cc9f298e0575820ad3591376e2e0f65d := by decide +kernel

/-- Section 2, the corner cases of `Le256`. -/
theorem test_le256 :
    le256 (0x00 :: fill 31 0xFF) (0x01 :: fill 31 0) = true ∧ le256 (0x01 :: fill 31 0) (0x00 :: fill 31 0xFF) = false ∧
      le256 (fill 31 0 ++ [1]) (fill 32 0) = false ∧ le256 (fill 32 0x5a) (fill 32 0x5a) = true := by decide

/-- Section 3: 0x1d00ffff, 0x1d800000, the largest target, and the failures at 3 and 33. -/
theorem test_decodeTarget :
    decodeTarget 0x1d00ffff = some ([0, 0, 0, 0, 0xff, 0xff] ++ fill 26 0) ∧
      decodeTarget 0x1d800000 = some ([0, 0, 0, 0x80] ++ fill 28 0) ∧
      decodeTarget 0x20ffffff = some ([0xff, 0xff, 0xff] ++ fill 29 0) ∧
      decodeTarget 0x04123456 = some (fill 28 0 ++ [0x12, 0x34, 0x56, 0x00]) ∧
      decodeTarget 0x03ffffff = none ∧ decodeTarget 0x21000001 = none := by decide

/-- Section 4: `MerkleFold(cbA, [s1])`. -/
theorem test_merkleFold :
    merkleFold cbA [fill 32 0x11] =
      bytes256 0xda950fddd9cc977a1be2e9aa7c8695c9c54fbeb52d74598392fa8c33f48659a9 := by decide +kernel

/-- Section 7. -/
theorem test_hashRate :
    hashRate 0 1500 500 2000 = 500 ∧ hashRate 0 14 0 0 = 0 ∧ hashRate 0 5 5 100 = 0 ∧
      hashRate 1 2 0xFFFFFFFF 2000 = 1 ∧ hashRate 0 4294968 0 1 = 0xFFFFFFFF ∧
      hashRate 0 4294967 0 1 = 0xFFFFFED8 := by decide +kernel

/-- Section 9: the XTEA primitive. -/
theorem test_xtea :
    xteaEncipher ⟨0x00010203, 0x04050607, 0x08090a0b, 0x0c0d0e0f⟩ (0x41424344, 0x45464748) = (0x497df3d0, 0x72612cb5) ∧
      xteaDecipher ⟨0, 0, 0, 0⟩ (0xdee9d4d8, 0xf7131ed9) = (0, 0) := by decide +kernel

/-! ## Commands, one step each, at most two tests a command -/

/-- B1: BEGIN with the fragment "solarbit", under `CB_CAP` = 128. -/
theorem test_begin_stores_fragment :
    let t := beginEffect 128 ({ State.reset with argCbLen := 8 }.writeBuf .argCb 0 solarbit)
    t.readBytes 0x400 14 = [0, 0, 0, 0] ++ solarbit ++ [0, 0] ∧ t.status = .ready ∧ t.cbLen = 8 ∧
      t.readByte 0x040 = 0xFF := by decide +kernel

/-- B4: `ARG_CBLEN` is compared unsigned. -/
theorem test_begin_over_cap :
    let t := beginEffect 128 { State.reset with argCbLen := 0x80000000, status := .done }
    t.result = .einval ∧ t.status = .done ∧ t.mem = [] := by decide +kernel

/-- The header argument of P5: version 0x20000000, time 0x5F5E1000, bits 0x200FFFFF. -/
def headerArg : List Byte :=
  toLE32 0x20000000 ++ fill 64 0 ++ toLE32 0x5F5E1000 ++ toLE32 0x200FFFFF ++ toLE32 0

/-- P5's last INIT: height 5, an empty fragment and an empty path, so the root is the double hash of `03 05 00 00`. -/
theorem test_init_writes_root :
    let t := initEffect 0x03 ({ State.reset with argHeight := 5, status := .invalid }.writeBuf .argHeader 0 headerArg)
    t.readBytes 0x400 4 = [0x03, 0x05, 0x00, 0x00] ∧ t.status = .mining ∧ t.height = 5 ∧
      t.readBytes (0x080 + 36) 32 =
        bytes256 0x1ff52abb192702cee3ee854964b22db104fd7c75bd3711511d3901ce0c83db81 := by decide +kernel

/-- I4: a height above the maximum. -/
theorem test_init_rejects_height :
    let t := initEffect 0x03
      ({ State.reset with argHeight := 0x01000000, status := .ready }.writeBuf .argHeader 0 headerArg)
    t.result = .einval ∧ t.status = .invalid := by decide +kernel

/-- The header of file 95 section 6 (P1) at a nonce. -/
def p1Header (nonce : Word) : List Byte :=
  toLE32 0x20000000 ++ fill 32 0 ++
    bytes256 0xf23d76fcbb51cd75b4d0e5e318134645f737dae8182483fb2849f625690b35af ++
    [0x00, 0x10, 0x5e, 0x5f, 0xff, 0xff, 0x0f, 0x20] ++ toLE32 nonce

/-- P1 at a nonce, in MINING. -/
def p1Mining (nonce : Word) (cycles : Word) : State :=
  ({ State.reset with status := .mining, argCycles := cycles }.writeBuf .header 0 (p1Header nonce)).writeBuf
    .target 0 ([0x0f, 0xff, 0xff] ++ fill 29 0)

/-- M2, its last pass: nonce 14 meets the target and is not advanced. -/
theorem test_mine_succeeds :
    let t := mineEffect 1000 (p1Mining 14 6)
    t.status = .done ∧ t.nonce = 14 ∧ t.bestNonce = 14 ∧ t.hashTime = 1000 ∧
      t.buffer .bestHash = bytes256 0x0700d67db39fa4fb50b0b6c417d8e6b8e4da07ce3c356ab5f439b72e0263ebfb := by
  decide +kernel

/-- M5, its last pass: the last nonce under the FAIL policy. -/
theorem test_mine_exhausts :
    let t := mineEffect 0 (({ State.reset with status := .mining, argCycles := 4 }.writeBuf .header 0
      (toLE32 0x20000000 ++ fill 32 0 ++
        bytes256 0xa92c9fd78770a5ad0bdf926477f64ce64e829a074cb11908900e28ceedbc22eb ++
        [0x00, 0x10, 0x5e, 0x5f, 0x01, 0x00, 0x00, 0x04] ++ fill 4 0xFF)).writeBuf .target 0 (fill 30 0 ++ [1, 0]))
    t.status = .fail ∧ t.nonce = 0xFFFFFFFF ∧ t.nonce2 = 0 ∧ t.bestNonce = 0xFFFFFFFF ∧
      t.buffer .bestHash = bytes256 0x3843160512a0691f32432629a8fa4057239b0fc761243b27c030c054b072fdc4 := by
  decide +kernel

/-- E1. -/
theorem test_end_keeps_session :
    let t := endEffect { State.reset with status := .done, height := 7 }
    t.status = .idle ∧ t.result = .ok ∧ t.height = 7 := by decide

/-- Q2 and Q3: the report of P1's end, with 1000 ms searched. -/
theorem test_report_layout :
    (reportEffect (({ p1Mining 14 0 with status := .done, height := 1, hashTime := 1000 } : State).recordBest
      (bytes256 0x0700d67db39fa4fb50b0b6c417d8e6b8e4da07ce3c356ab5f439b72e0263ebfb) 14)).buffer .report =
    [0, 0, 0, 0, 3, 0, 0, 0, 1, 0, 0, 0, 0x0e, 0, 0, 0, 0, 0, 0, 0] ++
      bytes256 0x0700d67db39fa4fb50b0b6c417d8e6b8e4da07ce3c356ab5f439b72e0263ebfb ++
      [0xe8, 0x03, 0, 0, 0x0e, 0, 0, 0] := by decide +kernel

/-- `Kc` of file 95, a capacity of 16 and a length. -/
def cipherState (len : Word) (text : List Byte) : State :=
  { State.reset with
    key0 := 0x03020100, key1 := 0x07060504, key2 := 0x0b0a0908, key3 := 0x0f0e0d0c
    clen := len, ccap := 16 }.writeBuf .cbuf 0 text

/-- P4: ENCRYPT of "hello". -/
theorem test_encrypt_hello :
    let t := encryptEffect cipherE (cipherState 5 [0x68, 0x65, 0x6c, 0x6c, 0x6f, 0, 0, 0])
    t.cres = 8 ∧ t.result = .ok ∧ t.readBytes 0x800 8 = [0x6b, 0xf7, 0xc8, 0xbc, 0xa8, 0x1e, 0x8c, 0x60] := by
  decide +kernel

/-- Table 9.2: a length of -1. -/
theorem test_encrypt_negative :
    let t := encryptEffect cipherE (cipherState 0xFFFFFFFF [])
    t.cres = 0xFFFFFFFF ∧ t.result = .einval ∧ t.mem = [] := by decide +kernel

/-- P4: DECRYPT restores "hello" and its padding. -/
theorem test_decrypt_hello :
    let t := decryptEffect cipherD (cipherState 8 [0x6b, 0xf7, 0xc8, 0xbc, 0xa8, 0x1e, 0x8c, 0x60])
    t.cres = 5 ∧ t.result = .ok ∧ t.readBytes 0x800 8 = [0x68, 0x65, 0x6c, 0x6c, 0x6f, 3, 3, 3] := by decide +kernel

/-- Table 9.2: eight zero bytes, where the result is -11. -/
theorem test_decrypt_unchecked_padding :
    let t := decryptEffect cipherD (cipherState 8 (fill 8 0))
    t.cres = 0xFFFFFFF5 ∧ t.result = .ok ∧
      t.readBytes 0x800 8 = [0x5f, 0xe7, 0xec, 0xbe, 0x8f, 0xc2, 0xa2, 0x13] := by decide +kernel

/-! ## The window and a step -/

/-- X2, X5, X6, X7: `CTRL` keeps two bits, a reserved offset and a read-only one ignore a write, a word is stored
little-endian. -/
theorem test_window_writes :
    windowWord (hostWrite 0x004 0xFFFFFFFF State.reset) 0x004 = 3 ∧
      windowWord (hostWrite 0x034 0xFFFFFFFF State.reset) 0x034 = 0 ∧
      windowWord (hostWrite 0x014 0x12345678 State.reset) 0x014 = 0 ∧
      (hostWrite 0x168 0x1d00ffff State.reset).readBytes (0x120 + 72) 4 = [0xff, 0xff, 0x00, 0x1d] := by
  decide +kernel

/-- Rules R35, R36, R37: the codes of EOPC and INVALID, and `clrovr` with nothing pending. -/
theorem test_status_codes :
    windowWord { State.reset with result := .eopc, status := .invalid } 0x00C = 3 ∧
      windowWord { State.reset with result := .eopc, status := .invalid } 0x010 = 5 ∧
      (hostWrite 0x008 2 { State.reset with ovr := true }).ovr = false ∧
      (hostWrite 0x008 1 { State.reset with ovr := true }).ovr = true := by decide +kernel

/-- X9, X10: while a MINE is pending a write is dropped and sets `OVR`, and a write of `ESTAT` clears it. -/
theorem test_busy_writes :
    let s := hostWrite 0x11C 7 (pendingWith 3 [])
    s.ovr = true ∧ s.argCycles = 0 ∧ windowWord s 0x008 = 3 ∧ windowWord (hostWrite 0x008 2 s) 0x008 = 1 := by
  decide +kernel

/-- `withFetchWord` makes the next step run exactly its command: END leaves `RESULT` OK and `BUSY` clear. -/
theorem test_step_runs_fetched_word :
    step ({ State.reset with status := .done }.withFetchWord 32 0x00000004) =
      .next { State.reset with cmd := 0x00000004 } := by rfl

/-- Rule R113: an undefined word, on the engine's turn, leaves EOPC. -/
theorem test_step_undefined_word :
    step (State.reset.withFetchWord 32 0x80000003) =
      .next { State.reset with cmd := 0x80000003, result := .eopc } := by rfl

/-! ## Witnesses: states and operands that meet the hypotheses of each statement, at the bounds of its clauses -/

theorem witness_DisassemblyIsInverse : ∀ i : Instr, (0x00000006 : Word) ≠ encode i := by
  intro i; cases i <;> decide

/-- An opcode just above the session commands, and `RSVD` = 1 above a defined one. -/
theorem witness_UndefinedWordSetsOnlyEopc : ∀ w ∈ [(0x00000006 : Word), 0x00000101],
    ∃ s : State, s.resetLine = false ∧ s.pending = none ∧
      s.schedule = .access (memWrite 0x000 w) :: .engine :: [] ∧ ∀ i : Instr, w ≠ encode i := by
  intro w hw
  refine ⟨scheduled [.access (memWrite 0x000 w), .engine], rfl, rfl, rfl, ?_⟩
  rcases List.mem_cons.mp hw with rfl | hw
  · intro i; cases i <;> decide
  · rw [List.mem_singleton.mp hw]; intro i; cases i <;> decide

theorem witness_StepRunsDecodedCommand : ∀ es ∈ [[Event.engine], []],
    (pendingWith 0x10 es).resetLine = false ∧ (pendingWith 0x10 es).pending = some 0x10 ∧
      decode 0x10 = .ok .encrypt ∧ (pendingWith 0x10 es).schedule = es :=
  fun _ _ => ⟨rfl, rfl, by decide, rfl⟩

theorem witness_IdleEngineDoesNothing : ∀ es ∈ [[Event.engine], []],
    (scheduled es).pending = none ∧ (scheduled es).schedule = es := fun _ _ => ⟨rfl, rfl⟩

/-- With the engine's turn missing from the schedule. -/
theorem witness_AcceptedCommandCompletes :
    (pendingWith 3 [.access (memRead 0x008)]).resetLine = false ∧
      (∀ e ∈ (pendingWith 3 [.access (memRead 0x008)]).schedule,
        e = .engine ∨ ∃ a, e = .access a ∧ a.wellFormed = true) ∧
      (pendingWith 3 [.access (memRead 0x008)]).busy = true := by
  refine ⟨rfl, ?_, rfl⟩
  intro e he
  refine .inr ⟨memRead 0x008, List.mem_singleton.mp he, ?_⟩
  simp [memRead, Access.wellFormed, base_add_mod]

theorem witness_WriteRacesEngineBothWays :
    (∃ s : State, s.resetLine = false ∧ s.pending = none ∧
      s.schedule = [.access (memWrite 0x000 (encode .mine)), .engine, .access (memWrite 0x11C 7)]) ∧
    ∃ s : State, s.resetLine = false ∧ s.pending = none ∧
      s.schedule = [.access (memWrite 0x000 (encode .mine)), .access (memWrite 0x11C 7), .engine] :=
  ⟨⟨scheduled _, rfl, rfl, rfl⟩, ⟨scheduled _, rfl, rfl, rfl⟩⟩

/-- A byte access to `CTRL` (X3). -/
theorem witness_StepStopsOnlyOnBusError :
    step (scheduled [.access ⟨Config.base + 4, 1, .write 1⟩]) = .fault (.busError (Config.base + 4)) := by
  simp [scheduled, step, handleEvent, hostAccess, windowOffset, windowAccess, busError, Config.windowBytes,
    State.reset]

/-- One byte more than the cap, whichever of its two values it has. -/
theorem witness_BeginOverCapKeepsEverything :
    Config.cbCap < ({ State.reset with argCbLen := BitVec.ofNat 32 (Config.cbCap + 1) } : State).argCbLen.toNat := by
  have := cbCap_le
  show Config.cbCap < (BitVec.ofNat 32 (Config.cbCap + 1)).toNat
  rw [BitVec.toNat_ofNat]; omega

/-- Exactly the cap, and 0. -/
theorem witness_BeginStartsSession :
    ({ State.reset with argCbLen := BitVec.ofNat 32 Config.cbCap } : State).argCbLen.toNat = Config.cbCap ∧
      State.reset.argCbLen.toNat ≤ Config.cbCap := by
  have := cbCap_le
  refine ⟨?_, Nat.zero_le _⟩
  show (BitVec.ofNat 32 Config.cbCap).toNat = Config.cbCap
  rw [BitVec.toNat_ofNat]; omega

/-- For the statements whose only hypothesis is that a command answers a next state (`BeginFrame`, `MineFrame`,
`MineAddsElapsedTime`, `StateTransitions`, `CommandStaysInWriteSet`): every command does. -/
theorem witness_exec_answers (i : Instr) : ∃ t, exec i State.reset = .next t := exec_next i State.reset

theorem witness_InitRejectedOutsideReadyInvalid :
    ∀ x ∈ [Status.idle, .mining, .done, .fail], x ≠ .ready ∧ x ≠ .invalid := by decide

/-- A READY session with arguments for INIT; `bits` is the header's compact target. -/
def initArgs (height pathLen bits : Word) : State :=
  { State.reset with status := .ready, argHeight := height, argPathLen := pathLen }.writeBuf .argHeader 72 (toLE32 bits)

/-- Each of the four failures, at its bound. -/
theorem witness_InitFailsValidation :
    (initArgs 0x01000000 0 0x1d00ffff).status = .ready ∧
      0xFFFFFF < (initArgs 0x01000000 0 0x1d00ffff).argHeight.toNat ∧
      16 < (initArgs 0 17 0x1d00ffff).argPathLen.toNat ∧
      compactExponent ((initArgs 0 0 0x03ffffff).readWord (0x120 + 72)) ≤ 3 ∧
      32 < compactExponent ((initArgs 0 0 0x21000001).readWord (0x120 + 72)) := by decide +kernel

/-- Every bound inclusive (I8), and the least exponent. -/
theorem witness_InitConfiguresSession :
    (initArgs 0xFFFFFF 16 0x20ffffff).status = .ready ∧ (initArgs 0xFFFFFF 16 0x20ffffff).argHeight.toNat ≤ 0xFFFFFF ∧
      (initArgs 0xFFFFFF 16 0x20ffffff).argPathLen.toNat ≤ 16 ∧
      4 ≤ compactExponent ((initArgs 0 0 0x04000000).readWord (0x120 + 72)) ∧
      compactExponent ((initArgs 0 0 0x04000000).readWord (0x120 + 72)) ≤ 32 ∧
      compactExponent ((initArgs 0xFFFFFF 16 0x20ffffff).readWord (0x120 + 72)) = 32 := by decide +kernel

theorem witness_MineOutsideMiningIsNoOp : State.reset.status ≠ .mining := by decide

/-- P1 at nonce 14 (the test of MINE above shows the hash). -/
theorem witness_MineStopsOnSuccess :
    (p1Mining 14 6).status = .mining ∧ (p1Mining 14 6).argCycles ≠ 0 ∧
      le256 (doubleHash ((p1Mining 14 6).buffer .header)) ((p1Mining 14 6).buffer .target) = true := by decide +kernel

/-- P1's header with nonce 1, whose hash starts with 0x29: it does not meet P1's target (section 6). -/
theorem witness_MineAdvancesOnePass :
    (p1Mining 1 1).status = .mining ∧ (p1Mining 1 1).argCycles = 1 ∧ (p1Mining 1 1).nonce ≠ 0xFFFFFFFF ∧
      le256 (doubleHash ((p1Mining 1 1).buffer .header)) ((p1Mining 1 1).buffer .target) = false := by decide +kernel

/-- P1's header at the last nonce, under a target of 0, with the policy bit and `NONCE2` as arguments. -/
def lastNonce (ctrl nonce2 : Word) : State :=
  { State.reset with status := .mining, argCycles := 1, ctrl := ctrl, nonce2 := nonce2 }.writeBuf
    .header 0 (p1Header 0xFFFFFFFF)

/-- The FAIL policy; the ROLLOVER policy with `NONCE2` at its maximum; and below it, where the search goes on. The hash
is above the target; it is below a best hash of all ones and above one that equals the target. -/
theorem witness_MineFailsWhenExhausted :
    (lastNonce 0 0).status = .mining ∧ (lastNonce 0 0).nonce = 0xFFFFFFFF ∧ (lastNonce 0 0).xpol = false ∧
      (lastNonce 1 0xFFFFFFFF).nonce2 = 0xFFFFFFFF ∧ (lastNonce 1 0xFFFFFFFE).xpol = true ∧
      (lastNonce 1 0xFFFFFFFE).nonce2 ≠ 0xFFFFFFFF ∧
      le256 (doubleHash ((lastNonce 0 0).buffer .header)) ((lastNonce 0 0).buffer .target) = false ∧
      (lastNonce 0 0).buffer .bestHash = fill 32 0xFF ∧
      ((lastNonce 0 0).recordBest (fill 32 0) 5).buffer .bestHash = (lastNonce 0 0).buffer .target := by
  decide +kernel

theorem witness_MineIsBounded : (p1Mining 0 0xFFFFFFFF).status = .mining := by decide

/-- Two passes of one each. -/
theorem witness_MineMayBeSplit : ∃ (s t u v : State) (a b c : Word), c.toNat = a.toNat + b.toNat ∧
    s.status = .mining ∧ exec .mine { s with argCycles := a } = .next t ∧
    exec .mine { t with argCycles := b } = .next u ∧ exec .mine { s with argCycles := c } = .next v := by
  obtain ⟨t, ht⟩ := exec_next .mine { p1Mining 0 0 with argCycles := 1 }
  obtain ⟨u, hu⟩ := exec_next .mine { t with argCycles := 1 }
  obtain ⟨v, hv⟩ := exec_next .mine { p1Mining 0 0 with argCycles := 2 }
  exact ⟨p1Mining 0 0, t, u, v, 1, 1, 2, by decide, rfl, ht, hu, hv⟩

/-- P1 from nonce 13, which does not meet the target, to nonce 14, which does (section 6). -/
theorem witness_MineStopsAtLowestSuccess :
    (p1Mining 13 2).status = .mining ∧ (p1Mining 13 2).xpol = false ∧
      ∃ t, exec .mine (p1Mining 13 2) = .next t ∧ t.status = .done ∧ t.nonce = 14 :=
  ⟨rfl, by decide +kernel, _, exec_mine _, by decide +kernel⟩

theorem witness_ShaPaddingFillsBlocks : ([] : List Byte).length < 2 ^ 60 ∧ solarbit.length < 2 ^ 60 := by decide

/-- Equal, and different in the first, the last and a middle byte. -/
theorem witness_Le256ComparesBytewise :
    (fill 32 0).length = 32 ∧ (fill 31 0 ++ [1]).length = 32 ∧ (1 :: fill 31 0).length = 32 ∧
      (∀ j, j < 31 → (fill 32 0).getD j 0 = (fill 31 0 ++ [1]).getD j 0) ∧
      (fill 32 0).getD 31 0 ≠ (fill 31 0 ++ [1]).getD 31 0 ∧
      (fill 32 0).getD 0 0 ≠ (1 :: fill 31 0).getD 0 0 := by decide

/-- No time, no progress, saturation, and the largest sum that does not saturate (section 7). -/
theorem witness_HashRateIsFlooredQuotient :
    noncesTried 0 5 5 = 0 ∧ noncesTried 0 4294968 0 = 4294968 ∧
      0xFFFFFFFF * (1 : Int) ≤ 4294968 * 1000 ∧ ¬(0xFFFFFFFF * (1 : Int) ≤ 4294967 * 1000) := by decide

theorem witness_EncryptLengthZeroIsNoOp : State.reset.clen = 0 := by decide

/-- A length of -1, one over `CCAP`, and one over the buffer (table 9.2). -/
theorem witness_EncryptRefusesOverCapacity :
    (0xFFFFFFFF : Word).toInt < 0 ∧
      (0 < (5 : Word).toInt ∧ ((7 : Word).toNat : Int) < (5 : Word).toInt + (4 - (5 : Word).toInt % 4)) ∧
      (0 < (2048 : Word).toInt ∧ 2048 < (2048 : Word).toInt + (4 - (2048 : Word).toInt % 4)) := by decide

/-- The least payload, and the two largest (table 9.2). -/
theorem witness_EncryptEnciphersPaddedPayload :
    ∀ x ∈ [((1, 3, 4) : Nat × Nat × Nat), (2044, 4, 2048), (2047, 1, 2048)],
      0 < x.1 ∧ (BitVec.ofNat 32 x.1).toNat = x.1 ∧ x.2.1 = 4 - x.1 % 4 ∧
        x.1 + x.2.1 ≤ (BitVec.ofNat 32 x.2.2).toNat ∧ x.1 + x.2.1 ≤ 2048 := by decide

/-- 0, -4, a length that is no multiple of 4, and one over the buffer (table 9.2). -/
theorem witness_DecryptReturnsMalformedLength :
    (0 : Word).toInt ≤ 0 ∧ (0xFFFFFFFC : Word).toInt ≤ 0 ∧ (6 : Word).toInt % 4 ≠ 0 ∧ 2048 < (2052 : Word).toInt := by
  decide

theorem witness_DecryptDeciphersRegion :
    ∀ n ∈ [4, 8, 2048], 0 < n ∧ n % 4 = 0 ∧ n ≤ 2048 ∧ (BitVec.ofNat 32 n).toNat = n := by decide

/-- A cipher that is not XTEA: each word is XORed with a word of the key. -/
theorem witness_CipherRoundTripsForEveryCipher :
    (∀ (k : Key) (b : Block), (fun (k : Key) (b : Block) => (b.1 ^^^ k.k0, b.2 ^^^ k.k1)) k
      ((fun (k : Key) (b : Block) => (b.1 ^^^ k.k0, b.2 ^^^ k.k1)) k b) = b) ∧
      (cipherState 5 []).clen.toNat = 5 ∧ 3 = 4 - 5 % 4 ∧ 5 + 3 ≤ (cipherState 5 []).ccap.toNat := by
  refine ⟨fun k b => ?_, rfl, rfl, by decide⟩
  simp

theorem witness_CipherCommandsRoundTrip : ∃ s t u : State,
    0 < s.clen.toInt ∧ s.clen.toInt + (4 - s.clen.toInt % 4) ≤ s.ccap.toNat ∧
      s.clen.toInt + (4 - s.clen.toInt % 4) ≤ 2048 ∧ exec .encrypt s = .next t ∧
      exec .decrypt { t with clen := t.cres } = .next u := by
  obtain ⟨t, ht⟩ := exec_next .encrypt (cipherState 5 [])
  obtain ⟨u, hu⟩ := exec_next .decrypt { t with clen := t.cres }
  exact ⟨cipherState 5 [], t, u, by decide, by decide, by decide, ht, hu⟩

/-- Two states that differ in the session alone. -/
theorem witness_CipherReadsNoSession : ∃ s t s' t' : State, s ≠ t ∧ s.key = t.key ∧ s.clen = t.clen ∧
    s.ccap = t.ccap ∧ s.buffer .cbuf = t.buffer .cbuf ∧ exec .encrypt s = .next s' ∧ exec .encrypt t = .next t' := by
  obtain ⟨t, ht⟩ := exec_next .encrypt State.reset
  obtain ⟨u, hu⟩ := exec_next .encrypt { State.reset with height := 7 }
  exact ⟨State.reset, { State.reset with height := 7 }, t, u, by decide, rfl, rfl, rfl, rfl, ht, hu⟩

/-- A byte access to the first location, and 32-bit accesses at the first and the last misaligned offset. -/
theorem witness_IllFormedAccessFaults :
    ∀ x ∈ [((0, 1) : Nat × Nat), (1, 4), (4095, 4)], ∃ (s : State) (a : Access),
      s.schedule = .access a :: [] ∧ s.resetLine = false ∧ Config.base ≤ a.addr ∧ a.addr < Config.base + 4096 ∧
        (a.width ≠ 4 ∨ (a.addr - Config.base) % 4 ≠ 0) := by
  intro x hx
  refine ⟨scheduled [.access ⟨Config.base + x.1, x.2, .read⟩], ⟨Config.base + x.1, x.2, .read⟩, rfl, rfl, ?_⟩
  simp only [List.mem_cons, List.not_mem_nil, or_false] at hx
  rcases hx with rfl | rfl | rfl <;> simp

theorem witness_CommandWriteIsAccepted : ∃ s : State,
    s.schedule = .access (memWrite 0x000 0x00000003) :: [] ∧ s.resetLine = false ∧ s.pending = none :=
  ⟨scheduled _, rfl, rfl, rfl⟩

/-- `ESTAT`, the first location, `CMD` among it, and the last word of the window. -/
theorem witness_WriteWhileBusyIsDropped : ∀ o ∈ [0x000, 0x008, 0xFFC], ∃ s : State,
    s.schedule = .access (memWrite o 2) :: [] ∧ s.resetLine = false ∧ s.busy = true ∧ o % 4 = 0 ∧ o < 4096 := by
  intro o ho
  refine ⟨pendingWith 3 [.access (memWrite o 2)], rfl, rfl, rfl, ?_⟩
  simp only [List.mem_cons, List.not_mem_nil, or_false] at ho
  rcases ho with rfl | rfl | rfl <;> decide

/-- The clauses of the statement, as one number each: every aligned offset but `CMD`'s falls under exactly one of
them. -/
theorem witness_WriteReadsBackByAccess_clauses :
    ((List.range 1024).map (4 * ·)).all (fun o =>
      ((if o = 0x000 then 1 else 0) + (if o = 0x008 then 1 else 0) + (if o = 0x004 then 1 else 0) +
        (if (0x110 ≤ o ∧ o < 0x170) ∨ (0x180 ≤ o ∧ o < 0x400) ∨ (0x700 ≤ o ∧ o < 0x718) ∨ 0x800 ≤ o then 1 else 0) +
        (if (0x00C ≤ o ∧ o < 0x034) ∨ (0x040 ≤ o ∧ o < 0x10C) ∨ (0x400 ≤ o ∧ o < 0x484) ∨ (0x500 ≤ o ∧ o < 0x700) ∨
          o = 0x718 then 1 else 0) +
        (if (0x034 ≤ o ∧ o < 0x040) ∨ o = 0x10C ∨ (0x170 ≤ o ∧ o < 0x180) ∨ (0x484 ≤ o ∧ o < 0x500) ∨
          (0x71C ≤ o ∧ o < 0x800) then 1 else 0) : Nat) == 1) = true := by decide +kernel

/-- A write with nothing pending as the next event, at the first location after `CMD`, at `ESTAT` and at the last. -/
theorem witness_WriteReadsBackByAccess : ∀ o ∈ [0x004, 0x008, 0xFFC], ∃ s : State,
    s.pending = none ∧ s.schedule = .access (memWrite o 2) :: [] ∧ s.resetLine = false ∧ o % 4 = 0 ∧ o < 4096 := by
  intro o ho
  refine ⟨scheduled [.access (memWrite o 2)], rfl, rfl, rfl, ?_⟩
  simp only [List.mem_cons, List.not_mem_nil, or_false] at ho
  rcases ho with rfl | rfl | rfl <;> decide

/-- Writes of `CMD`, of `ESTAT` and of the last location, and another location each. -/
theorem witness_WriteChangesOneLocation : State.reset.pending = none ∧
    ∀ p ∈ [((0x000, 0x004) : Nat × Nat), (0x008, 0x000), (0xFFC, 0x008)],
      p.1 % 4 = 0 ∧ p.2 % 4 = 0 ∧ p.1 < 4096 ∧ p.2 < 4096 ∧ p.2 ≠ p.1 ∧ (p.1 = 0x000 → p.2 ≠ 0x008) := by decide

/-- A state with each result code, and one with each status code. -/
theorem witness_StatusRegistersRead (r : ResultCode) (x : Status) : ∃ s : State, s.result = r ∧ s.status = x :=
  ⟨{ State.reset with result := r, status := x }, rfl, rfl⟩

/-- `OVR` set, with a command pending and with none. -/
theorem witness_PseudoLinesTakeEffect_clrOvr : ∀ p ∈ [none, some (0x00000003 : Word)], ∃ s : State,
    s.schedule = (hostLineActions .clrOvr).map (fun x => .access (actionAccess x)) ++ [] ∧ s.resetLine = false ∧
      s.ovr = true ∧ s.pending = p :=
  fun p _ => ⟨{ State.reset with
    schedule := (hostLineActions .clrOvr).map (fun x => .access (actionAccess x)), ovr := true, pending := p },
    by simp, rfl, rfl, rfl⟩

/-- After reset and the write of END's word, with events to come. -/
def endWritten (es : List Event) : State := { State.reset with cmd := 4, pending := some 4, schedule := es }

theorem endWritten_step (es : List Event) :
    step (scheduled (.access (memWrite 0x000 0x00000004) :: es)) = .next (endWritten es) :=
  hostAccess_memWrite 0x00000004 (scheduled es) rfl (by decide) (by decide)

/-- `cmd END` with the engine's turn right after the write: one read of `ESTAT` ends the poll (rules R115, R116). -/
theorem witness_PseudoLinesTakeEffect : isRun [.access (memWrite 0x000 0x00000004), .engine, .access (memRead 0x008)]
    (hostLineActions (.cmd .endSession)) State.reset = true := by
  refine isRun_cons.mpr ⟨_, [.poll], endWritten_step _, actionsAfter_self (writeReg32 .cmd 4) _ _, ?_⟩
  refine isRun_cons.mpr ⟨{ State.reset with cmd := 4, schedule := [.access (memRead 0x008)] }, [.poll], rfl, rfl, ?_⟩
  refine isRun_cons.mpr ⟨_, [], hostAccess_memRead { State.reset with cmd := 4 } rfl (by decide) (by decide),
    (actionsAfter_self .poll _ _).trans ?_, rfl⟩
  rw [hostRead_estat]
  decide

/-- Without the engine's turn the poll reads `BUSY` = 1 and is not over: no run of `cmd END` ends there. -/
theorem test_poll_does_not_end_busy : isRun [.access (memWrite 0x000 0x00000004), .access (memRead 0x008)]
    (hostLineActions (.cmd .endSession)) State.reset = false := by
  rw [Bool.eq_false_iff]
  intro h
  obtain ⟨t, left, h1, h2, h⟩ := isRun_cons.mp h
  obtain rfl : endWritten [.access (memRead 0x008)] = t := Host.Outcome.next.inj ((endWritten_step _).symm.trans h1)
  obtain rfl : [.poll] = left := Option.some.inj ((actionsAfter_self (writeReg32 .cmd 4) [.poll] _).symm.trans h2)
  obtain ⟨t, left, h1, h2, h⟩ := isRun_cons.mp h
  have e := (hostAccess_memRead (endWritten []) rfl (by decide) (by decide)).symm.trans h1
  rw [hostRead_estat] at e
  obtain rfl := Host.Outcome.next.inj e
  obtain rfl := Option.some.inj ((actionsAfter_self .poll [] _).symm.trans h2)
  revert h
  decide

/-- `BEST_HASH` is in MINE's write set, `KEY0` is not (X11, X12); with nothing pending no location is. -/
theorem witness_ReadReturnsWordOrDraw :
    locate 0x040 ∈ writeSet (commandOf 3) ∧ locate 0x700 ∉ writeSet (commandOf 3) ∧
      (pendingWith 3 []).pending = some 3 ∧ State.reset.pending = none := by decide

theorem witness_CommandStaysInWriteSet :
    locate 0x700 ∉ writeSet (some .mine) ∧ locate 0x0D0 ∉ writeSet (some .begin) ∧
      locate 0x040 ∉ writeSet (some .init) := by decide

theorem witness_LanesAreLittleEndian : ∀ b ∈ allBufs, 0 % 4 = 0 ∧ 0 + 4 ≤ bufSize b := by decide

/-- The first address above the window; the last one below it, if `BASE` is not 0. -/
theorem witness_AccessElsewhereDoesNothing : (∃ (s : State) (a : Access),
    s.schedule = .access a :: [] ∧ Config.base + 4096 ≤ a.addr) ∧
    (0 < Config.base → ∃ (s : State) (a : Access), s.schedule = .access a :: [] ∧ a.addr < Config.base) :=
  ⟨⟨scheduled _, ⟨Config.base + 4096, 1, .read⟩, rfl, Nat.le_refl _⟩,
    fun h => ⟨scheduled _, ⟨Config.base - 1, 1, .read⟩, rfl, Nat.sub_lt h (by decide)⟩⟩

theorem witness_HostLinesAreAligned :
    (HostLine.wrBytes .argCb 120 solarbit).wellFormed = true ∧
      .access (memWrite (0x180 + 120) 0x616c6f73) ∈ hostLineActions (.wrBytes .argCb 120 solarbit) := by
  refine ⟨by decide, ?_⟩
  show _ ∈ HostAction.access (memWrite (0x180 + 120) _) :: _
  exact List.mem_cons_self

/-- The first and the last offset of the settled part, and of a buffer that is UNSPECIFIED at reset. -/
theorem witness_ResetValues :
    (∃ s : State, s.schedule = .resetRelease :: [] ∧ s.resetLine = true) ∧
      locate 0x000 ∉ [Loc.buf .argHeader, .buf .argCb, .buf .argPath, .buf .cbuf] ∧
      locate 0x7FC ∉ [Loc.buf .argHeader, .buf .argCb, .buf .argPath, .buf .cbuf] ∧
      locate 0x05C = .buf .bestHash ∧ locate 0x060 ≠ .buf .bestHash ∧ 2047 < bufSize .cbuf :=
  ⟨⟨{ State.reset with schedule := [.resetRelease], resetLine := true }, rfl, rfl⟩, by decide⟩

theorem witness_ResetEqualsEmptyBegin : State.reset.argCbLen = 0 := by decide

/-- P1 after INIT with a MINE pending and the engine's turn next. -/
def p1Pending : State := { p1Mining 0 1 with cmd := 3, pending := some 3, schedule := [.engine] }

theorem p1Pending_inv : p1Pending.Inv where
  memory := by decide +kernel
  ctrl := by decide
  cmd := by intro w h; cases h; rfl
  cbLen := Nat.zero_le _
  pathLen := Nat.zero_le _
  height := Nat.zero_le _
  target := by intro _; decide +kernel
  fresh := by intro h; cases h
  best := by intro _; decide +kernel
  bestNonce := .inl (by decide +kernel)
  solved := by intro h; cases h
  exhausted := by intro h; cases h
  tried := by decide +kernel
  coinbase := by
    intro k _ hk
    have h : ∀ k < 132, p1Pending.readByte (bufBase .coinbase + k) = 0 := by decide +kernel
    exact h k hk
  path := by
    intro _ k _ hk
    have h : (List.range 512).all (fun k => p1Pending.readByte (bufBase .path + k) == 0) = true := by decide +kernel
    exact eq_of_beq (List.all_eq_true.mp h k (List.mem_range.mpr hk))

/-- A state of a running search meets the invariants, and the MINE's step answers a next state from it. -/
theorem witness_StepKeepsInvariant_BestHashNeverIncreases :
    p1Pending.Inv ∧ (∃ t, step p1Pending = .next t) ∧ p1Pending.pending ≠ some (encode .begin) ∧
      p1Pending.schedule.head? ≠ some .resetRelease := by
  refine ⟨p1Pending_inv, ?_, by decide, by decide⟩
  obtain ⟨t, ht⟩ := exec_next .mine { p1Pending with schedule := [] }
  refine ⟨finishCommand t, ?_⟩
  show finishOutcome (exec .mine { p1Pending with schedule := [] }) = _
  rw [ht]; rfl

/-- An undefined word's engine step and a host access answer a next state. -/
theorem witness_StateTransitions :
    (∃ t, engineStep 0x00000006 State.reset = .next t) ∧
      ∃ t, hostAccess ⟨Config.base + 4096, 4, .read⟩ State.reset = .next t := by
  refine ⟨⟨_, rfl⟩, ⟨{ State.reset with busData := none }, ?_⟩⟩
  simp [hostAccess, windowOffset, Config.windowBytes, State.reset]

theorem witness_NothingHappensInReset :
    ∀ e ∈ [Event.engine, .access ⟨Config.base + 1, 1, .read⟩], ∃ s : State, s.schedule = e :: [] ∧
      s.resetLine = true :=
  fun e _ => ⟨{ State.reset with schedule := [e], resetLine := true }, rfl, rfl⟩

end Sys2Proof.Tests
end

section
/-! What the status registers read, and what a host write while `BUSY` = 0 leaves at its own offset. -/

namespace Sys2Proof.Machine

/-- What an access that is answered has done: nothing but clear the bus, or one aligned read or write of the window:
the inversion lemma of `hostAccess` (rules R82, R83, R300). -/
theorem hostAccess_next {a : Access} {s t : State} (h : hostAccess a s = .next t) :
    t = { s with busData := none } ∨
      ∃ o, o % 4 = 0 ∧ o < 4096 ∧ (t = hostRead o s ∨ ∃ v, t = hostWrite o v { s with busData := none }) := by
  by_cases hr : s.resetLine = true
  · rw [hostAccess, if_pos hr, Host.Outcome.next.injEq] at h
    exact .inl h.symm
  rcases hostAccess_cases a s (Bool.eq_false_iff.mpr hr) with ⟨o, ha, ho, hw, hk⟩ | ⟨-, -, e⟩ | ⟨-, e⟩
  · have h4 : o % 4 = 0 := by
      simp only [Access.wellFormed, Bool.and_eq_true, beq_iff_eq] at hw
      rw [← base_add_mod, ← ha]
      exact hw.2
    refine .inr ⟨o, h4, ho, ?_⟩
    rcases hk with ⟨-, e⟩ | ⟨v, -, e⟩ <;> rw [e, Host.Outcome.next.injEq] at h
    · exact .inl h.symm
    · exact .inr ⟨v, h.symm⟩
  · rw [e] at h; cases h
  · rw [e, Host.Outcome.next.injEq] at h
    exact .inl h.symm

/-- `ESTAT` is `BUSY` in bit 0 and `OVR` in bit 1 (rule R35). -/
theorem estatWord_toNat (s : State) : s.estatWord.toNat = (if s.busy then 1 else 0) + (if s.ovr then 2 else 0) := by
  unfold State.estatWord
  cases s.busy <;> cases s.ovr <;> rfl

/-- Settles O51: each register is read by name, and its code by the table. -/
theorem statusRegistersRead : Obligations.StatusRegistersRead := by
  intro s
  have hestat : windowWord s 0x008 = s.estatWord := windowWord_reg s .estat
  have hresult : windowWord s 0x00C = resultWord s.result := windowWord_reg s .result
  have hstate : windowWord s 0x010 = statusWord s.status := windowWord_reg s .state
  rw [hestat, hresult, hstate]
  refine ⟨estatWord_toNat s, ?_, ?_, ?_, ?_, ?_, ?_, ?_, ?_, ?_, ?_⟩ <;> intro h <;> rw [h] <;> rfl

/-! ### Writes while `BUSY` = 0 -/

theorem busy_of_pending_none {s : State} (h : s.pending = none) : s.busy = false := by
  rw [State.busy, h]; rfl

theorem hostWrite_idle {s : State} (h : s.pending = none) (o : Nat) (v : Word) :
    hostWrite o v s = writeWindow o v s := by
  rw [hostWrite, busy_of_pending_none h]; rfl

theorem writeWindow_reg (r : Reg) (v : Word) (s : State) : writeWindow (regOffset r) v s = writeReg r v s := by
  rw [writeWindow, locate_regOffset]

theorem writeWindow_buf {o : Nat} {b : Buf} (h : locate o = .buf b) (v : Word) (s : State) :
    writeWindow o v s = if bufWritable b then { s with mem := s.mem.store o (toLE32 v) } else s := by
  rw [writeWindow, h]

theorem writeWindow_reserved {o : Nat} (h : locate o = .reserved) (v : Word) (s : State) : writeWindow o v s = s := by
  rw [writeWindow, h]

/-- A word stored is the word read (rule R84). -/
theorem readWord_store_self (s : State) (o : Nat) (v : Word) :
    ({ s with mem := s.mem.store o (toLE32 v) } : State).readWord o = v := by
  apply toLE32_injective
  rw [toLE32_readWord]
  apply eq_of_getD (by simp)
  intro i hi
  rw [readBytes_length] at hi
  rw [readBytes_getD _ _ _ _ hi, readByte_store, if_pos (by rw [toLE32_length]; omega), Nat.add_sub_cancel_left]

/-- The offsets of the read-write locations but `CMD`, `CTRL` and `ESTAT`, which have rules of their own (rule R87). -/
def offsetReadWrite (o : Nat) : Prop :=
  (0x110 ≤ o ∧ o < 0x170) ∨ (0x180 ≤ o ∧ o < 0x400) ∨ (0x700 ≤ o ∧ o < 0x718) ∨ 0x800 ≤ o

/-- The offsets of the read-only locations (rule R87). -/
def offsetReadOnly (o : Nat) : Prop :=
  (0x00C ≤ o ∧ o < 0x034) ∨ (0x040 ≤ o ∧ o < 0x10C) ∨ (0x400 ≤ o ∧ o < 0x484) ∨ (0x500 ≤ o ∧ o < 0x700) ∨ o = 0x718

/-- The offsets at which nothing stands (rule R87). -/
def offsetReserved (o : Nat) : Prop :=
  (0x034 ≤ o ∧ o < 0x040) ∨ o = 0x10C ∨ (0x170 ≤ o ∧ o < 0x180) ∨ (0x484 ≤ o ∧ o < 0x500) ∨ (0x71C ≤ o ∧ o < 0x800)

/-- A read-write register reads back the word written. -/
theorem readReg_writeReg_self {r : Reg} (h : offsetReadWrite (regOffset r)) (v : Word) (s : State) :
    readReg (writeReg r v s) r = v := by
  unfold offsetReadWrite at h
  cases r
  case argCbLen | argHeight | argPathLen | argCycles | key0 | key1 | key2 | key3 | clen | ccap => rfl
  all_goals exact absurd h (by decide)

/-- A read-only register ignores writes. -/
theorem writeReg_readOnly {r : Reg} (h : offsetReadOnly (regOffset r)) (v : Word) (s : State) : writeReg r v s = s := by
  unfold offsetReadOnly at h
  cases r
  case result | state | height | nonce | nonce2 | startNonce | bestNonce | hashTime | cbLen | pathLen | cres => rfl
  all_goals exact absurd h (by decide)

theorem bufWritable_of_readWrite {b : Buf} {o : Nat} (h1 : bufBase b ≤ o) (h2 : o < bufBase b + bufSize b)
    (h : offsetReadWrite o) : bufWritable b = true := by
  unfold offsetReadWrite at h
  cases b
  case argHeader | argCb | argPath | cbuf => rfl
  all_goals simp only [bufBase, bufSize] at h1 h2; omega

theorem bufWritable_of_readOnly {b : Buf} {o : Nat} (h1 : bufBase b ≤ o) (h2 : o < bufBase b + bufSize b)
    (h : offsetReadOnly o) : bufWritable b = false := by
  unfold offsetReadOnly at h
  cases b
  case bestHash | target | header | report | coinbase | path => rfl
  all_goals simp only [bufBase, bufSize] at h1 h2; omega

/-- No aligned offset is both of a location and reserved. -/
theorem locate_of_reserved {o : Nat} (h4 : o % 4 = 0) (h : offsetReserved o) : locate o = .reserved := by
  unfold offsetReserved at h
  rcases locate_cases o with ⟨r, -, h1, h2⟩ | ⟨b, -, h1, h2⟩ | ⟨e, -⟩
  · have := regOffset_mod r
    obtain rfl : o = regOffset r := by omega
    revert h; cases r <;> decide
  · cases b <;> simp only [bufBase, bufSize] at h1 h2 <;> omega
  · exact e

/-- Where something can be written, something stands. -/
theorem not_reserved_of_readWrite {o : Nat} (h4 : o % 4 = 0) (ho : o < 4096) (h : offsetReadWrite o) :
    locate o ≠ .reserved := by
  unfold offsetReadWrite at h
  rcases locate_cases o with ⟨r, e, -⟩ | ⟨b, e, -⟩ | ⟨-, hr, hb⟩
  · rw [e]; exact fun h => by cases h
  · rw [e]; exact fun h => by cases h
  · have hregs : ∀ r ∈ [Reg.argCbLen, .argHeight, .argPathLen, .argCycles, .key0, .key1, .key2, .key3, .clen, .ccap],
        ¬(regOffset r ≤ o ∧ o < regOffset r + 4) := fun r _ => hr r
    have hbufs : ∀ b ∈ [Buf.argHeader, .argCb, .argPath, .cbuf], ¬(bufBase b ≤ o ∧ o < bufBase b + bufSize b) :=
      fun b _ => hb b
    simp only [List.forall_mem_cons, regOffset] at hregs
    simp only [List.forall_mem_cons, bufBase, bufSize] at hbufs
    omega

theorem hostWrite_readWrite {s : State} (hp : s.pending = none) {o : Nat} (h4 : o % 4 = 0) (ho : o < 4096)
    (h : offsetReadWrite o) (v : Word) : windowWord (hostWrite o v s) o = v := by
  rw [hostWrite_idle hp]
  cases hl : locate o with
  | reg r =>
    obtain rfl := (locate_eq_reg h4 r).mp hl
    rw [writeWindow_reg, windowWord_reg, readReg_writeReg_self h]
  | buf b =>
    obtain ⟨h1, h2⟩ := (locate_eq_buf o b).mp hl
    rw [writeWindow_buf hl, if_pos (bufWritable_of_readWrite h1 h2 h), windowWord_buf hl, readWord_store_self]
  | reserved => exact absurd hl (not_reserved_of_readWrite h4 ho h)

theorem hostWrite_readOnly {s : State} (hp : s.pending = none) {o : Nat} (h4 : o % 4 = 0) (h : offsetReadOnly o)
    (v : Word) : hostWrite o v s = s := by
  rw [hostWrite_idle hp]
  cases hl : locate o with
  | reg r =>
    obtain rfl := (locate_eq_reg h4 r).mp hl
    rw [writeWindow_reg, writeReg_readOnly h]
  | buf b =>
    obtain ⟨h1, h2⟩ := (locate_eq_buf o b).mp hl
    rw [writeWindow_buf hl, bufWritable_of_readOnly h1 h2 h]
    rfl
  | reserved => exact writeWindow_reserved hl v s

/-- The step on a write the host makes to the window (rules R82, R83, R300). -/
theorem step_memWrite {s : State} {o : Nat} {v : Word} {rest : List Event}
    (hs : s.schedule = .access (memWrite o v) :: rest) (hr : s.resetLine = false) (h4 : o % 4 = 0) (ho : o < 4096) :
    step s = .next (hostWrite o v { s with schedule := rest, busData := none }) :=
  (step_cons hs).trans (hostAccess_memWrite v (s.withSchedule rest) hr h4 ho)

/-- Settles O46: `CTRL` and `ESTAT` by their registers, the rest by the access column of the address map. -/
theorem writeReadsBackByAccess : Obligations.WriteReadsBackByAccess := by
  intro s o v hp h4 ho
  refine ⟨fun rest hs hr => step_memWrite hs hr h4 ho, ?_, ?_, fun h => hostWrite_readWrite hp h4 ho h v,
    fun h => hostWrite_readOnly hp h4 h v, fun h => ?_⟩
  · rintro rfl
    rw [hostWrite_idle hp]
    exact (writeWindow_reg .estat v s).trans (writeEstat_eq v s)
  · rintro rfl
    rw [hostWrite_idle hp]
    exact (congrArg (windowWord · 0x004) (writeWindow_reg .ctrl v s)).trans (windowWord_reg _ .ctrl)
  · have hl := locate_of_reserved h4 h
    exact ⟨by rw [hostWrite_idle hp, writeWindow_reserved hl], windowWord_reserved hl⟩

/-- The write of the line `clrovr`: it is performed whether or not a command is pending (rules R35, R92). -/
theorem hostWrite_clearOvr (s : State) : hostWrite 0x008 0x00000002 s = { s with ovr := false } := by
  have hl : locate 0x008 = .reg .estat := locate_regOffset .estat
  rcases hostWrite_cases 0x008 0x00000002 s with ⟨-, -, e⟩ | ⟨-, h, -⟩ | ⟨-, e⟩
  · rw [e]; rfl
  · exact absurd hl h
  · rw [e, writeWindow, hl]; rfl

end Sys2Proof.Machine
end

section
/-! How `STATE` changes: the table of rule R67, one lemma per row. -/

namespace Sys2Proof.Machine

theorem beginEffect_status (cap : Nat) (s : State) :
    (beginEffect cap s).status = if s.argCbLen.toNat ≤ cap then .ready else s.status := by
  rcases beginEffect_cases cap s with ⟨h, e⟩ | ⟨h, e⟩ <;> rw [e]
  · rw [if_neg (by omega), setResult_status]
  · rw [if_pos h, beginScalars_status]

theorem initEffect_status (lead : Byte) (s : State) :
    (initEffect lead s).status =
      if s.status = .ready ∨ s.status = .invalid then
        (if s.argHeight.toNat ≤ 0xFFFFFF ∧ s.argPathLen.toNat ≤ 16 ∧
            4 ≤ compactExponent s.opBits ∧ compactExponent s.opBits ≤ 32 then .mining else .invalid)
      else s.status := by
  rcases initEffect_cases lead s with ⟨h1, h2, e⟩ | ⟨h, hn, e⟩ | ⟨h, t, ht, e⟩ <;> rw [e]
  · rw [if_neg (not_or.mpr ⟨h1, h2⟩), setResult_status]
  · rw [initTarget_eq_none] at hn
    rw [if_pos h, if_neg (by omega), failInit_status]
  · have hsome : ¬initTarget s = none := by rw [ht]; exact fun h => by cases h
    rw [initTarget_eq_none] at hsome
    rw [if_pos h, if_pos (by omega), initSession_status]

theorem mineEffect_status (dt : Nat) (s : State) :
    (s.status = .mining → (mineEffect dt s).status = .mining ∨ (mineEffect dt s).status = .done ∨
        (mineEffect dt s).status = .fail) ∧
      (s.status ≠ .mining → (mineEffect dt s).status = s.status) := by
  rcases mineEffect_cases dt s with ⟨hm, e⟩ | ⟨hm, e⟩ <;> rw [e]
  · refine ⟨fun _ => ?_, fun h => absurd hm h⟩
    rw [setResult_status, countDraw_status, addHashTime_status]
    rcases minePasses_position s.argCycles.toNat s hm with ⟨h, -⟩ | ⟨h, -⟩
    · exact .inl h
    · exact .inr h
  · exact ⟨fun h => absurd h hm, fun _ => setResult_status s _⟩

theorem encryptEffect_status (f : Key → Block → Block) (s : State) : (encryptEffect f s).status = s.status := by
  rcases encryptEffect_cases f s with ⟨-, e⟩ | ⟨-, e⟩ | ⟨-, -, -, e⟩ <;> rw [e] <;> simp

theorem decryptEffect_status (f : Key → Block → Block) (s : State) : (decryptEffect f s).status = s.status := by
  rcases decryptEffect_cases f s with ⟨-, e⟩ | ⟨-, -, -, e⟩ <;> rw [e] <;> simp

/-- The commands that are no session command of rule R67's table. -/
theorem exec_keeps_status {i : Instr} (hi : i = .report ∨ i = .encrypt ∨ i = .decrypt) {s t : State}
    (h : exec i s = .next t) : t.status = s.status := by
  rcases hi with rfl | rfl | rfl
  · rw [exec_report, Host.Outcome.next.injEq] at h; rw [← h, reportEffect_status]
  · rw [exec_encrypt, Host.Outcome.next.injEq] at h; rw [← h, encryptEffect_status]
  · rw [exec_decrypt, Host.Outcome.next.injEq] at h; rw [← h, decryptEffect_status]

/-- With `RSVD` = 0 a word is its opcode (rule R110). -/
theorem eq_opcField_of_rsvdField_zero {w : Word} (h : rsvdField w = 0) : w = (opcField w).setWidth 32 := by
  have hr := congrArg BitVec.toNat h
  have hw := w.isLt
  apply BitVec.eq_of_toNat_eq
  simp only [rsvdField, opcField, BitVec.extractLsb'_toNat, BitVec.toNat_setWidth, Nat.shiftRight_eq_div_pow,
    BitVec.ofNat_eq_ofNat, BitVec.toNat_ofNat] at hr ⊢
  omega

/-- The decoded opcode is the command's own (rule R111). -/
theorem opcodeOf_of_decodeOpcode {opc : Byte} {i : Instr} (h : decodeOpcode opc = .ok i) : opc = opcodeOf i := by
  unfold decodeOpcode at h
  split at h <;> cases h <;> exact BitVec.eq_of_toNat_eq (by assumption)

theorem encode_of_decode {w : Word} {i : Instr} (h : decode w = .ok i) : w = encode i := by
  unfold decode at h
  split at h
  · cases h
  · rename_i hr
    rw [encode, ← opcodeOf_of_decodeOpcode h]
    exact eq_opcField_of_rsvdField_zero (not_not.mp hr)

theorem engineStep_undefined_status {w : Word} (hw : ∀ i : Instr, w ≠ encode i) {s t : State}
    (h : engineStep w s = .next t) : t.status = s.status := by
  cases hd : decode w with
  | ok i => exact absurd (encode_of_decode hd) (hw i)
  | error r =>
    rw [engineStep_error hd, Host.Outcome.next.injEq] at h
    rw [← h, finishCommand_status, setResult_status]

theorem hostRead_status (o : Nat) (s : State) : (hostRead o s).status = s.status := by
  rcases hostRead_cases o s with ⟨-, e⟩ | ⟨-, e⟩ <;> rw [e]

theorem hostWrite_status (o : Nat) (v : Word) (s : State) : (hostWrite o v s).status = s.status := by
  obtain ⟨-, h, -⟩ := hostWrite_keeps o v s
  exact h

theorem hostAccess_status {a : Access} {s t : State} (h : hostAccess a s = .next t) : t.status = s.status := by
  rcases hostAccess_next h with e | ⟨o, -, -, e | ⟨v, e⟩⟩ <;> rw [e]
  · exact hostRead_status o s
  · exact hostWrite_status o v _

/-- Settles O59: each row of the table is the lemma of its command's effect. -/
theorem stateTransitions : Obligations.StateTransitions := by
  refine ⟨fun s t h => ?_, fun s t h => ?_, fun s t h => ?_, fun s t h => ?_, fun i s t hi h => exec_keeps_status hi h,
    fun s t w hw h => engineStep_undefined_status hw h, fun s t a h => hostAccess_status h⟩
  · rw [exec_begin, Host.Outcome.next.injEq] at h
    rw [← h, beginEffect_status]
  · rw [exec_init, Host.Outcome.next.injEq] at h
    rw [← h]
    exact initEffect_status Config.cbLead s
  · rw [exec_mine, Host.Outcome.next.injEq] at h
    rw [← h]
    exact mineEffect_status _ s
  · rw [exec_endSession, Host.Outcome.next.injEq] at h
    rw [← h, endEffect, setResult_status, setStatus_status]

end Sys2Proof.Machine
end

section
/-! The invariants: the reset state meets them, and every event and every command keeps them. -/

namespace Sys2Proof.Machine

/-! ### The reset state -/

/-- With nothing in memory a byte reads its reset value, where rule R301 fixes one. -/
theorem readByte_of_mem_nil {s : State} (hm : s.mem = []) {a : Nat} {b : Byte} (h : unlistedByte a = some b) :
    s.readByte a = b := by
  have hg : s.mem.get a = some b := by rw [hm]; exact h
  rw [State.readByte, hg]

/-- A buffer is a fill when each of its bytes is the fill's byte. -/
theorem buffer_eq_fill {s : State} {b : Buf} {v : Byte} (h : ∀ k, k < bufSize b → s.readByte (bufBase b + k) = v) :
    s.buffer b = fill (bufSize b) v := by
  apply eq_of_getD (by simp)
  intro k hk
  rw [buffer_length] at hk
  rw [buffer_getD _ _ _ hk, fill_getD _ _ _ hk, h k hk]

/-- The session buffers that are 0 at reset (rule R301). -/
theorem buffer_of_mem_nil {s : State} (hm : s.mem = []) {b : Buf}
    (hb : b ∈ [Buf.target, .header, .report, .coinbase, .path]) : s.buffer b = fill (bufSize b) 0 :=
  buffer_eq_fill fun k hk => readByte_of_mem_nil hm (unlistedByte_zero hb k hk)

/-- No hash is recorded at reset (rules R47, R301). -/
theorem bestHash_of_mem_nil {s : State} (hm : s.mem = []) : s.buffer .bestHash = noBest :=
  buffer_eq_fill fun k hk => readByte_of_mem_nil hm (unlistedByte_bestHash k hk)

theorem nonce_of_mem_nil {s : State} (hm : s.mem = []) : s.nonce = 0 := by
  rw [nonce_eq_le32At, buffer_of_mem_nil hm (by decide)]
  rfl

theorem reset_inv : State.reset.Inv where
  memory := Memory.wf_nil
  ctrl := rfl
  cmd := fun _ h => by cases h
  cbLen := Nat.zero_le _
  pathLen := Nat.zero_le _
  height := Nat.zero_le _
  target := fun h => by cases h
  fresh := fun h => by cases h
  best := fun h => by cases h
  bestNonce := .inl (bestHash_of_mem_nil rfl)
  solved := fun h => by cases h
  exhausted := fun h => by cases h
  tried := by rw [nonce_of_mem_nil rfl]; decide
  coinbase := fun k _ hk => readByte_of_mem_nil rfl (unlistedByte_zero (by decide) k hk)
  path := fun h => by cases h

/-- Settles O57: each invariant is read off the reset values, the buffers' bytes through what an unlisted byte holds. -/
theorem resetMeetsInvariant : Obligations.ResetMeetsInvariant := reset_inv

/-! ### Updates outside the session -/

/-- An update outside the session registers and outside memory keeps the invariants, if it respects `CTRL`'s reserved
bits and `CMD`'s read-back: the form in which most events use `State.Inv.congr`. -/
theorem State.Inv.of_mem_eq {s t : State} (h : s.Inv) (hm : t.mem = s.mem) (hd : t.resetDraw = s.resetDraw)
    (hctrl : t.ctrl &&& ~~~ctrlMask = 0) (hcmd : ∀ w, t.pending = some w → t.cmd = w)
    (hr : t.status = s.status ∧ t.height = s.height ∧ t.nonce2 = s.nonce2 ∧ t.startNonce = s.startNonce ∧
      t.bestNonce = s.bestNonce ∧ t.hashTime = s.hashTime ∧ t.cbLen = s.cbLen ∧ t.pathLen = s.pathLen) : t.Inv :=
  h.congr (hm ▸ h.memory) hctrl hcmd hr fun _ _ => readBytes_congr fun _ _ => by
    rw [State.readByte, State.readByte, hm, hd]

theorem State.Inv.setResult {s : State} (h : s.Inv) (r : ResultCode) : (s.setResult r).Inv :=
  h.of_mem_eq rfl rfl h.ctrl h.cmd (by simp)

theorem State.Inv.setCres {s : State} (h : s.Inv) (v : Word) : (s.setCres v).Inv :=
  h.of_mem_eq rfl rfl h.ctrl h.cmd (by simp)

theorem State.Inv.withSchedule {s : State} (h : s.Inv) (l : List Event) : (s.withSchedule l).Inv :=
  h.of_mem_eq rfl rfl h.ctrl h.cmd (by simp)

theorem State.Inv.finishCommand {s : State} (h : s.Inv) : (finishCommand s).Inv :=
  h.of_mem_eq rfl rfl h.ctrl (fun _ hw => by cases hw) (by simp)

theorem State.Inv.withBusData {s : State} (h : s.Inv) (d : Option Word) : ({ s with busData := d } : State).Inv :=
  h.of_mem_eq rfl rfl h.ctrl h.cmd (by simp)

/-- A write inside a buffer the invariants do not speak of keeps them. -/
theorem State.Inv.writeBuf {s : State} (h : s.Inv) {b : Buf} (hb : b ∉ sessionBufs) (k : Nat) (bs : List Byte)
    (hk : k + bs.length ≤ bufSize b) : (s.writeBuf b k bs).Inv :=
  h.congr (writeBuf_wf h.memory b k bs hk) h.ctrl h.cmd (by simp) fun _ hc =>
    buffer_writeBuf_other s k bs (fun e => hb (e ▸ hc)) hk

/-! ### Host accesses and the reset input -/

theorem hostRead_inv {s : State} (h : s.Inv) (o : Nat) : (hostRead o s).Inv := by
  rcases hostRead_cases o s with ⟨-, e⟩ | ⟨-, e⟩ <;> rw [e]
  · exact h.of_mem_eq rfl rfl h.ctrl h.cmd (by simp)
  · exact h.withBusData _

/-- A write of a register sets `CTRL` through its mask, sets `CMD` together with the pending word, or keeps both. -/
theorem writeReg_inv {s : State} (h : s.Inv) (r : Reg) (v : Word) : (writeReg r v s).Inv := by
  have hmask : v &&& ctrlMask &&& ~~~ctrlMask = 0 := by
    rw [BitVec.and_assoc, show ctrlMask &&& ~~~ctrlMask = 0 from rfl]
    exact BitVec.and_zero
  have hctrl : (writeReg r v s).ctrl &&& ~~~ctrlMask = 0 := by
    cases r
    case ctrl => exact hmask
    case estat => rw [writeReg, writeEstat_eq]; exact h.ctrl
    all_goals exact h.ctrl
  have hcmd : ∀ w, (writeReg r v s).pending = some w → (writeReg r v s).cmd = w := by
    cases r
    case cmd => exact fun w hw => Option.some.inj hw
    case estat => rw [writeReg, writeEstat_eq]; exact h.cmd
    all_goals exact h.cmd
  have hrest := writeReg_eq r v s
  generalize writeReg r v s = t at hctrl hcmd hrest
  exact h.of_mem_eq (by rw [hrest]) (by rw [hrest]) hctrl hcmd (by rw [hrest]; simp)

/-- A word stored at an offset of a buffer, as a write of that buffer. -/
theorem store_eq_writeBuf (s : State) {b : Buf} {o : Nat} (h : bufBase b ≤ o) (bs : List Byte) :
    ({ s with mem := s.mem.store o bs } : State) = s.writeBuf b (o - bufBase b) bs := by
  rw [State.writeBuf, Nat.add_sub_cancel' h]

theorem writeWindow_inv {s : State} (h : s.Inv) {o : Nat} (ho : o % 4 = 0) (v : Word) : (writeWindow o v s).Inv := by
  unfold writeWindow
  cases hl : locate o with
  | reg r => exact writeReg_inv h r v
  | buf b =>
    obtain ⟨h1, h2⟩ := (locate_eq_buf o b).mp hl
    have hm := bufBase_mod b
    by_cases hw : bufWritable b = true
    · have hb : b ∉ sessionBufs := by revert hw; cases b <;> decide
      dsimp only
      rw [if_pos hw, store_eq_writeBuf s h1]
      exact h.writeBuf hb _ _ (by rw [toLE32_length]; omega)
    · dsimp only
      rwa [if_neg hw]
  | reserved => exact h

theorem hostWrite_inv {s : State} (h : s.Inv) {o : Nat} (ho : o % 4 = 0) (v : Word) : (hostWrite o v s).Inv := by
  rcases hostWrite_cases o v s with ⟨-, -, e⟩ | ⟨-, -, e⟩ | ⟨-, e⟩ <;> rw [e]
  · exact writeReg_inv h .estat v
  · exact h.of_mem_eq rfl rfl h.ctrl h.cmd (by simp)
  · exact writeWindow_inv h ho v

theorem hostAccess_inv {s t : State} (h : s.Inv) (a : Access) (ht : hostAccess a s = .next t) : t.Inv := by
  rcases hostAccess_next ht with e | ⟨o, ho, -, e | ⟨v, e⟩⟩ <;> rw [e]
  · exact h.withBusData none
  · exact hostRead_inv h o
  · exact hostWrite_inv (h.withBusData none) ho v

theorem assertReset_inv {s : State} (h : s.Inv) : (assertReset s).Inv :=
  h.of_mem_eq rfl rfl h.ctrl h.cmd ⟨rfl, rfl, rfl, rfl, rfl, rfl, rfl, rfl⟩

/-- The release leaves the reset state but for the UNSPECIFIED buffers and the model's own fields, of which the
invariants do not speak. -/
theorem releaseReset_inv {s : State} (h : s.Inv) : (releaseReset s).Inv := by
  unfold releaseReset
  split
  · refine reset_inv.congr Memory.wf_nil reset_inv.ctrl (fun _ hw => by cases hw)
      ⟨rfl, rfl, rfl, rfl, rfl, rfl, rfl, rfl⟩ fun b hb => ?_
    by_cases hbest : b = .bestHash
    · rw [hbest, bestHash_of_mem_nil rfl, bestHash_of_mem_nil rfl]
    · have hz : b ∈ [Buf.target, .header, .report, .coinbase, .path] := by
        revert hb hbest; cases b <;> decide
      rw [buffer_of_mem_nil rfl hz, buffer_of_mem_nil rfl hz]
  · exact h

/-! ### The session commands -/

theorem beginEffect_inv {s : State} (h : s.Inv) : (beginEffect Config.cbCap s).Inv := by
  rcases beginEffect_cases Config.cbCap s with ⟨-, e⟩ | ⟨hcap, e⟩ <;> rw [e]
  · exact h.setResult _
  have hn : s.argCbLen.toNat ≤ 128 := hcap.trans cbCap_le
  have hbest : (beginScalars (beginBuffers s)).buffer .bestHash = noBest := by
    rw [beginScalars_buffer, beginBuffers_bestHash s hn, noBest]
  exact {
    memory := by rw [beginScalars_mem]; exact beginBuffers_wf h.memory hn
    ctrl := by simpa using h.ctrl
    cmd := by simpa using h.cmd
    cbLen := by simpa using hcap
    pathLen := by simp
    height := by simp
    target := fun hs => by rw [beginScalars_status] at hs; cases hs
    fresh := fun _ => ⟨hbest, by simp⟩
    best := fun hs => by rw [beginScalars_status] at hs; cases hs
    bestNonce := .inl hbest
    solved := fun hs => by rw [beginScalars_status] at hs; cases hs
    exhausted := fun hs => by rw [beginScalars_status] at hs; cases hs
    tried := by simp [beginBuffers_nonce s hn, noncesTried]
    coinbase := fun k h1 h2 => by
      rw [beginScalars_cbLen, beginBuffers_argCbLen] at h1
      rw [beginScalars_readByte, beginBuffers_coinbase_byte s k h2, if_neg (by omega)]
    path := fun hs => by rw [beginScalars_status] at hs; cases hs }

/-- Before a session's first successful INIT no nonce has been tried, whatever the header's nonce field holds. -/
theorem noncesTried_zero (nc : Word) : 0 ≤ noncesTried 0 nc 0 := by
  simp [noncesTried]

/-- INIT writes the coinbase prefix alone of the coinbase. -/
theorem initUntouched_coinbase {k : Nat} (h1 : 4 ≤ k) (h2 : k < 132) : initUntouched (bufBase .coinbase + k) := by
  simp only [initUntouched, bufBase]
  omega

theorem initUntouched_bestHash {k : Nat} (h : k < bufSize .bestHash) : initUntouched (bufBase .bestHash + k) := by
  simp only [initUntouched, bufBase]
  simp only [bufSize] at h
  omega

theorem failInit_inv {s : State} (h : s.Inv) (hs : s.status = .ready ∨ s.status = .invalid) : (failInit s).Inv := by
  obtain ⟨hbest, hn2, hstart, hbn, htime⟩ := h.fresh (by rcases hs with e | e <;> rw [e] <;> rfl)
  have hbest' : (failInit s).buffer .bestHash = noBest := by
    rw [← hbest]
    exact readBytes_congr fun k hk => failInit_frame s _ (initUntouched_bestHash hk)
  have hvac : ∀ {p : Prop}, (failInit s).status.initialised = true → p := fun hi => by
    rw [failInit_status] at hi; cases hi
  exact {
    memory := failInit_wf h.memory
    ctrl := by simpa using h.ctrl
    cmd := by simpa using h.cmd
    cbLen := by simpa using h.cbLen
    pathLen := (failInit_bounds s).2
    height := (failInit_bounds s).1
    target := hvac
    fresh := fun _ => ⟨hbest', by simp [hn2, hstart, hbn, htime]⟩
    best := fun hm => hvac (by rw [hm]; rfl)
    bestNonce := .inl hbest'
    solved := fun hm => hvac (by rw [hm]; rfl)
    exhausted := fun hm => hvac (by rw [hm]; rfl)
    tried := by rw [failInit_nonce2, failInit_startNonce, hn2, hstart]; exact noncesTried_zero _
    coinbase := fun k h1 h2 => by
      rw [failInit_cbLen] at h1
      rw [failInit_frame s _ (initUntouched_coinbase (by omega) h2), h.coinbase k h1 h2]
    path := hvac }

/-- The bits field of the header INIT stores is the argument's: neither form of the header touches bytes 72 to 75
(rule R197). -/
theorem le32At_initHeader_bits (s : State) : le32At (initHeader s) 72 = s.opBits := by
  have hop : le32At s.opHeader 72 = s.opBits := le32At_readBytes s _ _ _ (by decide)
  rw [← hop]
  unfold initHeader
  split
  · rfl
  · have hi : ∀ i, 68 ≤ i → i < 80 →
        (s.opHeader.take 36 ++ merkleFold s.storedCoinbase (s.pathEntries s.opPathLen) ++ s.opHeader.drop 68).getD i 0 =
          s.opHeader.getD i 0 := fun i h1 h2 => by
      rw [List.getD_append_right _ _ _ _ (by simp; omega)]
      simp [List.getD_eq_getElem?_getD, List.getElem?_drop]
      congr 2
      omega
    rw [le32At, hi _ (by decide) (by decide), hi _ (by decide) (by decide), hi _ (by decide) (by decide),
      hi _ (by decide) (by decide), le32At]

/-- `TARGET` after a successful INIT is the decoded bits field of `HEADER` (rules R66, R195). -/
theorem initSession_decodes {s : State} (lead : Byte) {t : List Byte} (ht : initTarget s = some t) :
    decodeTarget ((initSession lead t s).readWord bitsOffset) = some ((initSession lead t s).buffer .target) := by
  obtain ⟨-, hp, hd⟩ := initTarget_eq_some ht
  have hl := decodeTarget_length hd
  have hbits : (initStore lead s).opBits = s.opBits := readWord_congr fun i hi =>
    initStore_frame lead s _ hp (by simp only [bufBase]; omega) (by simp only [bufBase]; omega)
  rw [bitsWord_eq, initSession_header lead t s hl, le32At_initHeader_bits, hbits, initSession_target lead t s hl, hd]

/-- The path entries past the argument's are 0 after a successful INIT (rules R50, R197). -/
theorem initStore_path_tail (lead : Byte) (s : State) (hp : s.argPathLen.toNat ≤ 16) {k : Nat}
    (h1 : 32 * s.argPathLen.toNat ≤ k) (h2 : k < 512) : (initStore lead s).readByte (bufBase .path + k) = 0 := by
  have hlen : (s.opPathBytes s.opPathLen).length ≤ k := by rw [opPathBytes_length]; exact h1
  rw [← buffer_getD _ _ _ h2, initStore_path lead s hp, List.getD_append_right _ _ _ _ hlen]
  exact fill_zero_getD _ _

theorem initSession_inv {s : State} (h : s.Inv) (hs : s.status = .ready ∨ s.status = .invalid) {t : List Byte}
    (ht : initTarget s = some t) : (initSession Config.cbLead t s).Inv := by
  obtain ⟨hh, hp, hd⟩ := initTarget_eq_some ht
  have hl := decodeTarget_length hd
  obtain ⟨hbest, hn2, -⟩ := h.fresh (by rcases hs with e | e <;> rw [e] <;> rfl)
  have hbest' : (initSession Config.cbLead t s).buffer .bestHash = noBest := by
    rw [← hbest]
    exact readBytes_congr fun k hk => initSession_frame _ t s _ hp hl (initUntouched_bestHash hk)
  exact {
    memory := initSession_wf _ h.memory hp hl
    ctrl := by simpa using h.ctrl
    cmd := by simpa using h.cmd
    cbLen := by simpa using h.cbLen
    pathLen := by rw [initSession_pathLen]; exact hp
    height := by rw [initSession_height]; exact hh
    target := fun _ => initSession_decodes _ ht
    fresh := fun hu => by rw [initSession_status] at hu; cases hu
    best := fun _ => by rw [initSession_target _ t s hl, hbest']; exact decodeTarget_lt hd
    bestNonce := .inl hbest'
    solved := fun hu => by rw [initSession_status] at hu; cases hu
    exhausted := fun hu => by rw [initSession_status] at hu; cases hu
    tried := by rw [initSession_nonce2, hn2, initSession_startNonce]; simp [noncesTried]
    coinbase := fun k h1 h2 => by
      rw [initSession_cbLen] at h1
      rw [initSession_frame _ t s _ hp hl (initUntouched_coinbase (by omega) h2), h.coinbase k h1 h2]
    path := fun _ k h1 h2 => by
      rw [initSession_pathLen] at h1
      rw [initSession_stored _ t s _ hl (by simp only [bufBase]; omega), initStore_path_tail _ s hp h1 h2] }

theorem initEffect_inv {s : State} (h : s.Inv) : (initEffect Config.cbLead s).Inv := by
  rcases initEffect_cases Config.cbLead s with ⟨-, -, e⟩ | ⟨hs, -, e⟩ | ⟨hs, t, ht, e⟩ <;> rw [e]
  · exact h.setResult _
  · exact failInit_inv h hs
  · exact initSession_inv h hs ht

/-- IDLE promises nothing of its own: what is left of the invariants speaks of no status. -/
theorem State.Inv.setStatus_idle {s : State} (h : s.Inv) : (s.setStatus .idle).Inv where
  memory := h.memory
  ctrl := h.ctrl
  cmd := h.cmd
  cbLen := h.cbLen
  pathLen := h.pathLen
  height := h.height
  target := fun hs => by cases hs
  fresh := fun hs => by cases hs
  best := fun hs => by cases hs
  bestNonce := h.bestNonce
  solved := fun hs => by cases hs
  exhausted := fun hs => by cases hs
  tried := h.tried
  coinbase := h.coinbase
  path := fun hs => by cases hs

/-! ### MINE -/

/-- The nonces tried are how far the search position has moved on from the start nonce (rule R242). -/
theorem noncesTried_eq (s : State) :
    noncesTried s.nonce2 s.nonce s.startNonce = (searchPosition s : Int) - s.startNonce.toNat := by
  simp [noncesTried, searchPosition]

/-- A pass never leaves the initialised statuses. -/
theorem minePass_initialised {s : State} (hm : s.status = .mining) : (minePass s).status.initialised = true := by
  rcases minePass_position s hm with ⟨e, -⟩ | ⟨e | e, -⟩ <;> rw [e] <;> rfl

theorem Status.not_unmined_of_initialised {x : Status} (h : x.initialised = true) : x.unmined = false := by
  revert h; cases x <;> decide

/-- The pass that ends in DONE has just hashed the header that stays, and recorded it (rule R223). -/
theorem minePass_solved {s : State} (hm : s.status = .mining) (hd : (minePass s).status = .done) :
    (minePass s).nonce = (minePass s).bestNonce ∧
      (minePass s).buffer .bestHash = doubleHash ((minePass s).buffer .header) ∧
      le256 ((minePass s).buffer .bestHash) ((minePass s).buffer .target) = true := by
  have hmet : le256 (headerHash s) (s.buffer .target) = true := by
    rcases minePass_status s hm with ⟨h, -⟩ | ⟨-, e | ⟨e, -⟩⟩
    · exact h
    all_goals rw [hd] at e; cases e
  have hnonce : (minePass s).nonce = s.nonce := by
    rcases minePass_position s hm with ⟨e, -⟩ | ⟨-, h, -⟩
    · rw [hd] at e; cases e
    · exact h
  obtain ⟨-, hbest, hbn⟩ | ⟨hnot, -⟩ := minePass_best s
  · refine ⟨hnonce.trans hbn.symm, ?_, ?_⟩
    · rw [hbest, buffer_header_eq, hnonce, headerAt_minePass, headerHash_eq]
    · rw [hbest, minePass_target, hmet]
  · rw [hmet] at hnot; cases hnot

theorem minePass_exhausted {s : State} (hm : s.status = .mining) (hf : (minePass s).status = .fail) :
    (minePass s).nonce = Config.nonceMax := by
  rcases minePass_position s hm with ⟨e, -⟩ | ⟨-, hn, -⟩
  · rw [hf] at e; cases e
  rw [hn]
  rcases minePass_status s hm with ⟨-, e⟩ | ⟨-, e | ⟨-, h⟩⟩
  · rw [hf] at e; cases e
  · rw [hf] at e; cases e
  · exact h

/-- While the search goes on the best hash stays above the target: a recorded one did not meet it (rule R223). -/
theorem minePass_best_above {s : State} (h : s.Inv) (hm : s.status = .mining) (hm' : (minePass s).status = .mining) :
    be256 ((minePass s).buffer .target) < be256 ((minePass s).buffer .bestHash) := by
  have hnot : le256 (headerHash s) (s.buffer .target) = false := by
    rcases minePass_status s hm with ⟨-, e⟩ | ⟨h, -⟩
    · rw [hm'] at e; cases e
    · exact h
  rw [minePass_target]
  obtain ⟨-, hbest, -⟩ | ⟨-, -, hbest, -⟩ := minePass_best s <;> rw [hbest]
  · exact (le256_false_iff _ _).mp hnot
  · exact h.best hm

/-- `BEST_HASH` stays the hash at `BEST_NONCE`: a pass records both or neither (rules R42, R220). -/
theorem minePass_bestNonce {s : State} (h : s.Inv) :
    (minePass s).buffer .bestHash = noBest ∨
      (minePass s).buffer .bestHash = doubleHash (headerAt (minePass s) (minePass s).bestNonce) := by
  rw [headerAt_minePass]
  obtain ⟨-, hbest, hbn⟩ | ⟨-, -, hbest, hbn⟩ := minePass_best s <;> rw [hbest, hbn]
  · exact .inr (headerHash_eq s)
  · exact h.bestNonce

theorem minePass_tried {s : State} (h : s.Inv) (hm : s.status = .mining) :
    0 ≤ noncesTried (minePass s).nonce2 (minePass s).nonce (minePass s).startNonce := by
  have htried := h.tried
  rw [noncesTried_eq] at htried
  have hpos : searchPosition s ≤ searchPosition (minePass s) := by
    rcases minePass_position s hm with ⟨-, e⟩ | ⟨-, hn, hn2⟩
    · omega
    · rw [searchPosition, searchPosition, hn, hn2]
  rw [noncesTried_eq, minePass_startNonce]
  omega

theorem minePass_inv {s : State} (hm : s.status = .mining) (h : s.Inv) : (minePass s).Inv := by
  have hi : s.status.initialised = true := by rw [hm]; rfl
  have hbits : (minePass s).readWord bitsOffset = s.readWord bitsOffset := readWord_congr fun i hi =>
    minePass_readByte s _ (by simp only [bitsOffset, bufBase]; omega) (by simp only [bitsOffset, bufBase]; omega)
  have hbyte : ∀ k, (minePass s).readByte (bufBase .coinbase + k) = s.readByte (bufBase .coinbase + k) := fun k =>
    minePass_readByte s _ (by simp only [bufBase]; omega) (by simp only [bufBase]; omega)
  have hpath : ∀ k, (minePass s).readByte (bufBase .path + k) = s.readByte (bufBase .path + k) := fun k =>
    minePass_readByte s _ (by simp only [bufBase]; omega) (by simp only [bufBase]; omega)
  exact {
    memory := minePass_wf h.memory
    ctrl := by simpa using h.ctrl
    cmd := by simpa using h.cmd
    cbLen := by simpa using h.cbLen
    pathLen := by simpa using h.pathLen
    height := by simpa using h.height
    target := fun _ => by rw [hbits, minePass_target]; exact h.target hi
    fresh := fun hu => by rw [Status.not_unmined_of_initialised (minePass_initialised hm)] at hu; cases hu
    best := minePass_best_above h hm
    bestNonce := minePass_bestNonce h
    solved := minePass_solved hm
    exhausted := minePass_exhausted hm
    tried := minePass_tried h hm
    coinbase := fun k h1 h2 => by rw [minePass_cbLen] at h1; rw [hbyte, h.coinbase k h1 h2]
    path := fun _ k h1 h2 => by rw [minePass_pathLen] at h1; rw [hpath, h.path hi k h1 h2] }

/-- Once a session is initialised the elapsed time is bound by no invariant. -/
theorem State.Inv.addHashTime {s : State} (h : s.Inv) (hi : s.status.initialised = true) (dt : Nat) :
    (addHashTime dt s).Inv where
  memory := h.memory
  ctrl := h.ctrl
  cmd := h.cmd
  cbLen := h.cbLen
  pathLen := h.pathLen
  height := h.height
  target := h.target
  fresh := fun hu => by
    rw [addHashTime_status, Status.not_unmined_of_initialised hi] at hu; cases hu
  best := h.best
  bestNonce := h.bestNonce
  solved := h.solved
  exhausted := h.exhausted
  tried := h.tried
  coinbase := h.coinbase
  path := h.path

theorem State.Inv.countDraw {s : State} (h : s.Inv) : s.countDraw.Inv :=
  h.of_mem_eq rfl rfl h.ctrl h.cmd (by simp)

/-- The passes of a MINE keep the invariants and stay initialised. -/
theorem minePasses_inv {s : State} (h : s.Inv) (hm : s.status = .mining) (c : Nat) :
    (minePasses c s).Inv ∧ (minePasses c s).status.initialised = true :=
  minePasses_keeps (P := fun t => t.Inv ∧ t.status.initialised = true)
    (fun _ hm ⟨ht, _⟩ => ⟨minePass_inv hm ht, minePass_initialised hm⟩) c s ⟨h, by rw [hm]; rfl⟩

theorem mineEffect_inv {s : State} (h : s.Inv) (dt : Nat) : (mineEffect dt s).Inv := by
  rcases mineEffect_cases dt s with ⟨hm, e⟩ | ⟨-, e⟩ <;> rw [e]
  · obtain ⟨hinv, hi⟩ := minePasses_inv h hm s.argCycles.toNat
    exact ((hinv.addHashTime hi dt).countDraw).setResult _
  · exact h.setResult _

/-! ### The other commands, and one step -/

theorem encryptEffect_inv {s : State} (h : s.Inv) (f : Key → Block → Block) : (encryptEffect f s).Inv := by
  rcases encryptEffect_cases f s with ⟨-, e⟩ | ⟨-, e⟩ | ⟨-, -, hn, e⟩ <;> rw [e]
  · exact (h.setCres _).setResult _
  · exact (h.setCres _).setResult _
  · refine ((h.writeBuf (by decide) 0 _ ?_).setCres _).setResult _
    rw [encryptedRegion_length, Nat.zero_add]
    exact hn

theorem decryptEffect_inv {s : State} (h : s.Inv) (f : Key → Block → Block) : (decryptEffect f s).Inv := by
  rcases decryptEffect_cases f s with ⟨-, e⟩ | ⟨-, hm, hn, e⟩ <;> rw [e]
  · exact (h.setCres _).setResult _
  · refine ((h.writeBuf (by decide) 0 _ ?_).setCres _).setResult _
    rw [decryptedRegion_length _ _ _ hm, Nat.zero_add]
    exact hn

/-- Every command keeps the invariants. -/
theorem exec_inv {i : Instr} {s t : State} (h : s.Inv) (ht : exec i s = .next t) : t.Inv := by
  cases i
  case begin => rw [exec_begin, Host.Outcome.next.injEq] at ht; exact ht ▸ beginEffect_inv h
  case init => rw [exec_init, Host.Outcome.next.injEq] at ht; exact ht ▸ initEffect_inv h
  case mine => rw [exec_mine, Host.Outcome.next.injEq] at ht; exact ht ▸ mineEffect_inv h _
  case endSession => rw [exec_endSession, Host.Outcome.next.injEq] at ht; exact ht ▸ h.setStatus_idle.setResult _
  case report =>
    rw [exec_report, Host.Outcome.next.injEq] at ht
    exact ht ▸ (h.writeBuf (by decide) 0 _ (by simp [bufSize])).setResult _
  case encrypt => rw [exec_encrypt, Host.Outcome.next.injEq] at ht; exact ht ▸ encryptEffect_inv h _
  case decrypt => rw [exec_decrypt, Host.Outcome.next.injEq] at ht; exact ht ▸ decryptEffect_inv h _

theorem engineTurn_inv {s t : State} (h : s.Inv) (ht : engineTurn s = .next t) : t.Inv := by
  rcases engineTurn_cases s with ⟨-, e⟩ | ⟨-, w, i, u, -, -, hu, e⟩ | ⟨-, w, r, -, -, e⟩ <;>
    rw [e, Host.Outcome.next.injEq] at ht <;> rw [← ht]
  · exact h
  · exact (exec_inv h hu).finishCommand
  · exact (h.setResult _).finishCommand

theorem handleEvent_inv {e : Event} {s t : State} (h : s.Inv) (ht : handleEvent e s = .next t) : t.Inv := by
  cases e with
  | access a => exact hostAccess_inv h a ht
  | engine => exact engineTurn_inv h ht
  | resetAssert => exact (Host.Outcome.next.inj ht) ▸ assertReset_inv h
  | resetRelease => exact (Host.Outcome.next.inj ht) ▸ releaseReset_inv h

/-- Settles O58: by what comes next in the schedule; the engine's turn by command, MINE by induction on its passes. -/
theorem stepKeepsInvariant : Obligations.StepKeepsInvariant := by
  intro s t h ht
  cases hs : s.schedule with
  | nil => rw [step_nil hs] at ht; exact engineTurn_inv h ht
  | cons e rest => rw [step_cons hs] at ht; exact handleEvent_inv (h.withSchedule rest) ht

end Sys2Proof.Machine
end

section
/-! Runs of the host's pseudo-instructions: what the events of a run do one by one, and that every whole run of a
command line contains exactly the engine step on its word. -/

namespace Sys2Proof.Machine

/-! ### The steps a run is made of -/

theorem writeReg_withSchedule (r : Reg) (v : Word) (s : State) (l : List Event) :
    writeReg r v (s.withSchedule l) = (writeReg r v s).withSchedule l := by
  cases r
  case estat => simp only [writeReg, writeEstat_eq, State.withSchedule]
  all_goals rfl

theorem withSchedule_of_schedule_eq {s : State} {l : List Event} (h : s.schedule = l) : s.withSchedule l = s := by
  rw [State.withSchedule, ← h]

theorem step_withSchedule (s : State) (e : Event) (rest : List Event) :
    step (s.withSchedule (e :: rest)) = handleEvent e (s.withSchedule rest) := step_cons rfl

/-- A write of a register while `BUSY` = 0. -/
theorem step_writeReg {s : State} (hp : s.pending = none) (hr : s.resetLine = false) (r : Reg) (v : Word)
    (rest : List Event) :
    step (s.withSchedule (.access (memWrite (regOffset r) v) :: rest)) =
      .next ((writeReg r v { s with busData := none }).withSchedule rest) := by
  have h := step_memWrite (s := s.withSchedule (_ :: rest)) (v := v) rfl hr (regOffset_mod r) (regOffset_lt r)
  rw [h, ← writeReg_withSchedule]
  have hidle : (({ s with busData := none } : State).withSchedule rest).pending = none := hp
  exact congrArg _ ((hostWrite_idle hidle _ v).trans (writeWindow_reg r v _))

/-- The read a `poll` makes. -/
theorem step_pollRead {s : State} (hr : s.resetLine = false) (rest : List Event) :
    step (s.withSchedule (.access (memRead 0x008) :: rest)) =
      .next (({ s with busData := some s.estatWord } : State).withSchedule rest) := by
  have h := hostAccess_memRead (o := 0x008) (s.withSchedule rest) hr rfl (by decide)
  rw [hostRead_estat] at h
  exact (step_withSchedule s _ rest).trans h

theorem step_engine_idle {s : State} (hp : s.pending = none) (rest : List Event) :
    step (s.withSchedule (.engine :: rest)) = .next (s.withSchedule rest) := by
  refine (step_withSchedule s _ rest).trans (?_ : engineTurn (s.withSchedule rest) = _)
  rcases engineTurn_cases (s.withSchedule rest) with ⟨-, e⟩ | ⟨-, w, -, -, h, -⟩ | ⟨-, w, -, h, -⟩
  · exact e
  all_goals rw [withSchedule_pending, hp] at h; cases h

theorem step_engine_busy {s : State} {w : Word} (hp : s.pending = some w) (hr : s.resetLine = false)
    (rest : List Event) : step (s.withSchedule (.engine :: rest)) = engineStep w (s.withSchedule rest) := by
  refine (step_withSchedule s _ rest).trans (?_ : engineTurn (s.withSchedule rest) = _)
  rw [engineTurn, withSchedule_resetLine, hr, withSchedule_pending, hp]
  rfl

/-- The engine step finishes the command and leaves the reset input and the schedule (rule R91). -/
theorem engineStep_next (w : Word) (s : State) :
    ∃ v, engineStep w s = .next v ∧ v.pending = none ∧ v.resetLine = s.resetLine ∧ v.schedule = s.schedule := by
  cases hd : decode w with
  | ok i =>
    obtain ⟨t, ht⟩ := exec_next i s
    obtain ⟨-, -, -, -, -, -, -, -, -, -, -, -, -, -, hr, hs, -⟩ := exec_keeps ht
    exact ⟨_, engineStep_ok hd s t ht, rfl, hr, hs⟩
  | error r => exact ⟨_, engineStep_error hd s, rfl, rfl, rfl⟩

/-! ### What `isRun` says about its first event -/

theorem isRun_of_step {e : Event} {rest : List Event} {todo left : List HostAction} {s t : State}
    (hs : step (s.withSchedule (e :: rest)) = .next t) (ha : actionsAfter e t todo = some left) :
    isRun (e :: rest) todo s = isRun rest left t := by
  have hs' : step { s with schedule := e :: rest } = .next t := hs
  rw [isRun, hs']
  dsimp only
  rw [ha]

/-- Whether events are a run does not depend on what is scheduled in the state they start from. -/
theorem isRun_withSchedule (events : List Event) (todo : List HostAction) (s : State) (l : List Event) :
    isRun events todo (s.withSchedule l) = isRun events todo s := by
  cases events <;> rfl

/-- A run's access is the one its first action makes; with nothing left to do there is none. -/
theorem eq_actionAccess_of_isRun {a : Access} {rest : List Event} {todo : List HostAction} {s : State}
    (h : isRun (.access a :: rest) todo s = true) : ∃ x left, todo = x :: left ∧ a = actionAccess x := by
  obtain ⟨t, left, -, ha, -⟩ := isRun_cons.mp h
  obtain ⟨x, rest', e, hx, -⟩ := actionsAfter_access ha
  exact ⟨x, rest', e, hx⟩

section FirstEvent

variable {s : State} {rest : List Event} {todo : List HostAction}

theorem isRun_writeReg (hp : s.pending = none) (hr : s.resetLine = false) (r : Reg) (v : Word) :
    isRun (.access (memWrite (regOffset r) v) :: rest) (writeReg32 r v :: todo) s =
      isRun rest todo (writeReg r v { s with busData := none }) := by
  rw [isRun_of_step (step_writeReg hp hr r v rest) (actionsAfter_self (writeReg32 r v) todo _), isRun_withSchedule]
  rfl

/-- A read of `ESTAT` ends a `poll` exactly when `BUSY` = 0. -/
theorem isRun_pollRead (hr : s.resetLine = false) :
    isRun (.access (memRead 0x008) :: rest) (.poll :: todo) s =
      isRun rest (if s.busy then .poll :: todo else todo) { s with busData := some s.estatWord } := by
  rw [isRun_of_step (step_pollRead hr rest) (actionsAfter_self .poll todo _), isRun_withSchedule]
  have hover : actionOver .poll (({ s with busData := some s.estatWord } : State).withSchedule rest) = !s.busy :=
    readIdle_estat s
  rw [hover]
  cases s.busy <;> rfl

theorem isRun_engine_idle (hp : s.pending = none) : isRun (.engine :: rest) todo s = isRun rest todo s := by
  rw [isRun_of_step (step_engine_idle hp rest) rfl, isRun_withSchedule]

end FirstEvent

theorem busy_of_pending_some {s : State} {w : Word} (h : s.pending = some w) : s.busy = true := by
  rw [State.busy, h]; rfl

/-! ### A whole run of a command line -/

/-- The events of a run without a reset: engine's turns and accesses. -/
def withoutReset (events : List Event) : Prop := ∀ e ∈ events, e = .engine ∨ ∃ a, e = .access a

/-- Running `events` from `s` performs the engine step on `w` from a state that is `base` but for the schedule and the
bus data, and ends with `BUSY` read as 0 and nothing else changed (rule R116). -/
def CompletesFrom (base : State) (w : Word) (events : List Event) (s : State) : Prop :=
  ∃ t u v : State, core.run events.length (s.withSchedule events) = .next t ∧
    u = { base with busData := u.busData, schedule := u.schedule } ∧
    engineStep w u = .next v ∧ t = { v with busData := t.busData, schedule := [] } ∧ t.busy = false ∧
    ∃ x, t.busData = some x ∧ x.getLsbD 0 = false

theorem CompletesFrom.cons {base s t : State} {w : Word} {e : Event} {rest : List Event}
    (hs : step (s.withSchedule (e :: rest)) = .next (t.withSchedule rest)) (h : CompletesFrom base w rest t) :
    CompletesFrom base w (e :: rest) s := by
  obtain ⟨t', u, v, hrun, h⟩ := h
  exact ⟨t', u, v, (core_run_succ rest.length hs).trans hrun, h⟩

/-- What the base state has as bus data and schedule does not matter. -/
theorem CompletesFrom.of_base {base base' s : State} {w : Word} {events : List Event} (d : Option Word) (l : List Event)
    (hb : base = { base' with busData := d, schedule := l }) (h : CompletesFrom base w events s) :
    CompletesFrom base' w events s := by
  obtain ⟨t, u, v, hrun, hu, h⟩ := h
  rw [hb] at hu
  exact ⟨t, u, v, hrun, hu, h⟩

/-- With nothing left to do and nothing pending only idle turns of the engine are left. -/
theorem run_nothing_left {events : List Event} {s : State} (he : withoutReset events) (hp : s.pending = none)
    (h : isRun events [] s = true) : core.run events.length (s.withSchedule events) = .next (s.withSchedule []) := by
  induction events with
  | nil => rfl
  | cons e rest ih =>
    obtain ⟨hhead, htail⟩ := List.forall_mem_cons.mp he
    rcases hhead with rfl | ⟨a, rfl⟩
    · rw [isRun_engine_idle hp] at h
      exact (core_run_succ rest.length (step_engine_idle hp rest)).trans (ih htail h)
    · obtain ⟨x, left, e, -⟩ := eq_actionAccess_of_isRun h
      cases e

/-- A `poll` with nothing pending ends at its first read and leaves `ESTAT` on the bus. -/
theorem run_poll_idle {events : List Event} {s : State} (he : withoutReset events) (hp : s.pending = none)
    (hr : s.resetLine = false) (h : isRun events [.poll] s = true) :
    core.run events.length (s.withSchedule events) =
      .next (({ s with busData := some s.estatWord } : State).withSchedule []) := by
  induction events with
  | nil => cases h
  | cons e rest ih =>
    obtain ⟨hhead, htail⟩ := List.forall_mem_cons.mp he
    rcases hhead with rfl | ⟨a, rfl⟩
    · rw [isRun_engine_idle hp] at h
      exact (core_run_succ rest.length (step_engine_idle hp rest)).trans (ih htail h)
    · obtain ⟨x, left, e, rfl⟩ := eq_actionAccess_of_isRun h
      cases e
      have h : isRun (.access (memRead 0x008) :: rest) [.poll] s = true := h
      rw [isRun_pollRead hr, busy_of_pending_none hp] at h
      exact (core_run_succ rest.length (step_pollRead hr rest)).trans (run_nothing_left htail hp h)

/-- A `poll` with a command pending reads busy until the engine has had its turn. -/
theorem run_poll_busy {events : List Event} {s : State} {w : Word} (he : withoutReset events)
    (hp : s.pending = some w) (hr : s.resetLine = false) (h : isRun events [.poll] s = true) :
    CompletesFrom s w events s := by
  induction events generalizing s with
  | nil => cases h
  | cons e rest ih =>
    obtain ⟨hhead, htail⟩ := List.forall_mem_cons.mp he
    rcases hhead with rfl | ⟨a, rfl⟩
    · obtain ⟨v, hv, hvp, hvr, hvs⟩ := engineStep_next w (s.withSchedule rest)
      have hstep := (step_engine_busy hp hr rest).trans hv
      rw [isRun_of_step hstep rfl] at h
      have hrun := run_poll_idle htail hvp (hvr.trans hr) h
      rw [withSchedule_of_schedule_eq (l := rest) hvs] at hrun
      refine ⟨_, s.withSchedule rest, v, (core_run_succ rest.length hstep).trans hrun, rfl, hv, rfl, ?_, _, rfl, ?_⟩
      · exact busy_of_pending_none hvp
      · rw [estatWord_bit0, busy_of_pending_none hvp]
    · obtain ⟨x, left, e, rfl⟩ := eq_actionAccess_of_isRun h
      cases e
      have h : isRun (.access (memRead 0x008) :: rest) [.poll] s = true := h
      rw [isRun_pollRead hr, busy_of_pending_some hp] at h
      have hrest := ih (s := { s with busData := some s.estatWord }) htail hp hr h
      exact (hrest.of_base _ _ rfl).cons (step_pollRead hr rest)

/-- A run that starts with a write of a register while `BUSY` = 0: the write is performed after idle turns of the
engine, and the rest of the events are a run of the rest of the actions. -/
theorem run_writeReg_first {events : List Event} {s : State} {r : Reg} {v : Word} {todo : List HostAction}
    (he : withoutReset events) (hp : s.pending = none) (hr : s.resetLine = false)
    (h : isRun events (writeReg32 r v :: todo) s = true) :
    ∃ rest, withoutReset rest ∧ isRun rest todo (writeReg r v { s with busData := none }) = true ∧
      ∀ base w, CompletesFrom base w rest (writeReg r v { s with busData := none }) → CompletesFrom base w events s := by
  induction events with
  | nil => cases h
  | cons e rest ih =>
    obtain ⟨hhead, htail⟩ := List.forall_mem_cons.mp he
    rcases hhead with rfl | ⟨a, rfl⟩
    · rw [isRun_engine_idle hp] at h
      obtain ⟨rest', he', h', hc⟩ := ih htail h
      exact ⟨rest', he', h', fun base w hb => (hc base w hb).cons (step_engine_idle hp rest)⟩
    · obtain ⟨x, left, e, rfl⟩ := eq_actionAccess_of_isRun h
      cases e
      have h : isRun (.access (memWrite (regOffset r) v) :: rest) (writeReg32 r v :: todo) s = true := h
      rw [isRun_writeReg hp hr] at h
      exact ⟨rest, htail, h, fun base w hb => hb.cons (step_writeReg hp hr r v rest)⟩

/-- Every run of `wr CMD, w` and `poll` has the complete effect of the command (rules R90, R91, R116). -/
theorem run_commandActions {events : List Event} {s : State} {w : Word} (he : withoutReset events)
    (hp : s.pending = none) (hr : s.resetLine = false) (h : isRun events (commandActions w) s = true) :
    CompletesFrom { s with cmd := w, pending := some w } w events s := by
  obtain ⟨rest, he', h', hc⟩ := run_writeReg_first he hp hr h
  exact (hc _ w (run_poll_busy he' rfl hr h')).of_base none s.schedule rfl

/-- Every run of `mine n` sets `ARG_CYCLES` and then has the complete effect of MINE (rule R116). -/
theorem run_mineActions {events : List Event} {s : State} {c : Word} (he : withoutReset events)
    (hp : s.pending = none) (hr : s.resetLine = false)
    (h : isRun events (hostLineActions (.mine c)) s = true) :
    CompletesFrom { s with argCycles := c, cmd := encode .mine, pending := some (encode .mine) } (encode .mine) events
      s := by
  obtain ⟨rest, he', h', hc⟩ := run_writeReg_first he hp hr h
  exact (hc _ _ (run_commandActions he' hp hr h')).of_base none s.schedule rfl

/-! ### Runs with any number of busy reads -/

/-- `k` reads of `ESTAT`, the engine's turn, and one more read. -/
def pollEvents (k : Nat) : List Event :=
  List.replicate k (.access (memRead 0x008)) ++ [.engine, .access (memRead 0x008)]

theorem isRun_pollEvents (k : Nat) {s : State} {w : Word} (hp : s.pending = some w) (hr : s.resetLine = false) :
    isRun (pollEvents k) [.poll] s = true := by
  induction k generalizing s with
  | zero =>
    obtain ⟨v, hv, hvp, hvr, -⟩ := engineStep_next w (s.withSchedule [.access (memRead 0x008)])
    have hrun : isRun [.engine, .access (memRead 0x008)] [.poll] s = isRun [.access (memRead 0x008)] [.poll] v :=
      isRun_of_step ((step_engine_busy hp hr _).trans hv) rfl
    refine hrun.trans ?_
    rw [isRun_pollRead (hvr.trans hr), busy_of_pending_none hvp]
    rfl
  | succ k ih =>
    have hrun : isRun (.access (memRead 0x008) :: pollEvents k) [.poll] s = _ := isRun_pollRead hr
    rw [busy_of_pending_some hp] at hrun
    exact hrun.trans (ih hp hr)

theorem isRun_commandActions (k : Nat) {s : State} (hp : s.pending = none) (hr : s.resetLine = false) (w : Word) :
    isRun (.access (memWrite (regOffset .cmd) w) :: pollEvents k) (commandActions w) s = true := by
  rw [commandActions, isRun_writeReg hp hr]
  exact isRun_pollEvents k rfl hr

theorem isRun_mineActions (k : Nat) {s : State} (hp : s.pending = none) (hr : s.resetLine = false) (c : Word) :
    isRun (.access (memWrite (regOffset .argCycles) c) :: .access (memWrite (regOffset .cmd) (encode .mine)) ::
      pollEvents k) (hostLineActions (.mine c)) s = true := by
  rw [hostLineActions, isRun_writeReg hp hr]
  exact isRun_commandActions k (s := writeReg .argCycles c { s with busData := none }) hp hr _

/-- The actions of `cmd X` and `cmd.raw w` are those of their word (rule R116). -/
theorem hostLineActions_command {l : HostLine} {w : Word} (h : l = .cmdRaw w ∨ ∃ i, l = .cmd i ∧ w = encode i) :
    hostLineActions l = commandActions w := by
  rcases h with rfl | ⟨i, rfl, rfl⟩ <;> rfl

/-- Settles O60: `clrovr` by the write rule of `ESTAT`; a run of a command line by induction on its events, phase by
phase (before the writes, polling busy, polling idle); the runs with `k` busy reads by induction on `k`. -/
theorem pseudoLinesTakeEffect : Obligations.PseudoLinesTakeEffect := by
  refine ⟨fun s rest hs hr => ?_, fun s l w c hr hp hl => ⟨fun events he h => ?_, fun k => ?_⟩⟩
  · have hs : s.schedule = .access (memWrite 0x008 0x00000002) :: rest := hs
    rw [step_memWrite hs hr rfl (by decide), hostWrite_clearOvr]
  · rcases hl with ⟨hl, rfl⟩ | ⟨rfl, rfl⟩
    · rw [hostLineActions_command hl] at h
      exact run_commandActions he hp hr h
    · exact run_mineActions he hp hr h
  · rw [List.append_assoc]
    rcases hl with ⟨hl, -⟩ | ⟨rfl, -⟩
    · rw [hostLineActions_command hl]
      exact isRun_commandActions k hp hr w
    · exact isRun_mineActions k hp hr c

end Sys2Proof.Machine
end

section
/-! The write sets of rule R93: what a command changes lies in the command's write set. -/

namespace Sys2Proof.Machine

/-- Outside the locations `ws` the state `t` reads as `s`, register by register and buffer by buffer. -/
def KeepsOutside (ws : List Loc) (s t : State) : Prop :=
  (∀ r, Loc.reg r ∉ ws → readReg t r = readReg s r) ∧ ∀ b, Loc.buf b ∉ ws → t.buffer b = s.buffer b

/-- Where a location outside the set stands, the bus reads the same word (rule R87). -/
theorem KeepsOutside.windowWord_eq {ws : List Loc} {s t : State} (h : KeepsOutside ws s t) {o : Nat} (ho : o % 4 = 0)
    (hl : locate o ∉ ws) : windowWord t o = windowWord s o := by
  obtain ⟨hreg, hbuf⟩ := h
  exact windowWord_congr ho (fun r hr => hreg r (hr ▸ hl)) (fun b hb => hbuf b (hb ▸ hl))

theorem KeepsOutside.refl (ws : List Loc) (s : State) : KeepsOutside ws s s := ⟨fun _ _ => rfl, fun _ _ => rfl⟩

/-! ### One rule per state operation -/

section Operations

variable {ws : List Loc} {s t : State} (h : KeepsOutside ws s t)
include h

/-- An update of registers in the set. `NONCE` is no field of its own, so it needs no argument (rule R39). -/
theorem KeepsOutside.setRegs {u : State} (hm : u.mem = t.mem) (hd : u.resetDraw = t.resetDraw)
    (hr : ∀ r, Loc.reg r ∉ ws → r ≠ .nonce → readReg u r = readReg t r) : KeepsOutside ws s u := by
  obtain ⟨hreg, hbuf⟩ := h
  have hbyte : ∀ a, u.readByte a = t.readByte a := fun a => by rw [State.readByte, State.readByte, hm, hd]
  refine ⟨fun r hws => ?_, fun b hws => (readBytes_congr fun i _ => hbyte _).trans (hbuf b hws)⟩
  by_cases hn : r = .nonce
  · subst hn
    exact (readWord_congr fun i _ => hbyte _ : u.nonce = t.nonce).trans (hreg .nonce hws)
  · exact (hr r hws hn).trans (hreg r hws)

/-- A write inside a buffer of the set; with `HEADER` the set must hold `NONCE`, which is a view of it (rule R39). -/
theorem KeepsOutside.writeBuf {b : Buf} (hb : Loc.buf b ∈ ws) (hn : b = .header → Loc.reg .nonce ∈ ws) (k : Nat)
    (bs : List Byte) (hk : k + bs.length ≤ bufSize b) : KeepsOutside ws s (t.writeBuf b k bs) := by
  obtain ⟨hreg, hbuf⟩ := h
  refine ⟨fun r hws => (?_ : _ = readReg t r).trans (hreg r hws), fun c hws => ?_⟩
  · cases r
    case nonce => exact nonce_writeBuf_other t k bs (fun e => hws (hn e)) hk
    all_goals rfl
  · have hbc : b ≠ c := fun e => hws (e ▸ hb)
    rw [buffer_writeBuf_other t k bs hbc hk, hbuf c hws]

theorem KeepsOutside.setResult (hw : Loc.reg .result ∈ ws) (x : ResultCode) : KeepsOutside ws s (t.setResult x) :=
  h.setRegs rfl rfl fun r hr _ => by
    cases r
    case result => exact absurd hw hr
    all_goals rfl

theorem KeepsOutside.setStatus (hw : Loc.reg .state ∈ ws) (x : Status) : KeepsOutside ws s (t.setStatus x) :=
  h.setRegs rfl rfl fun r hr _ => by
    cases r
    case state => exact absurd hw hr
    all_goals rfl

theorem KeepsOutside.setCres (hw : Loc.reg .cres ∈ ws) (v : Word) : KeepsOutside ws s (t.setCres v) :=
  h.setRegs rfl rfl fun r hr _ => by
    cases r
    case cres => exact absurd hw hr
    all_goals rfl

theorem KeepsOutside.setNonce2 (hw : Loc.reg .nonce2 ∈ ws) (v : Word) : KeepsOutside ws s (t.setNonce2 v) :=
  h.setRegs rfl rfl fun r hr _ => by
    cases r
    case nonce2 => exact absurd hw hr
    all_goals rfl

theorem KeepsOutside.addHashTime (hw : Loc.reg .hashTime ∈ ws) (dt : Nat) : KeepsOutside ws s (addHashTime dt t) :=
  h.setRegs rfl rfl fun r hr _ => by
    cases r
    case hashTime => exact absurd hw hr
    all_goals rfl

/-- The count of draws is no location of the window. -/
theorem KeepsOutside.countDraw : KeepsOutside ws s t.countDraw :=
  h.setRegs rfl rfl fun r _ _ => by cases r <;> rfl

theorem KeepsOutside.setNonce (hw : Loc.buf .header ∈ ws) (hn : Loc.reg .nonce ∈ ws) (v : Word) :
    KeepsOutside ws s (t.setNonce v) :=
  h.writeBuf hw (fun _ => hn) 76 (toLE32 v) (by simp [bufSize])

theorem KeepsOutside.recordBest (hb : Loc.buf .bestHash ∈ ws) (hw : Loc.reg .bestNonce ∈ ws) {hash : List Byte}
    (hl : hash.length = 32) (nc : Word) : KeepsOutside ws s (t.recordBest hash nc) :=
  (h.writeBuf hb (fun e => by cases e) 0 hash (by rw [hl]; decide)).setRegs rfl rfl fun r hr _ => by
    cases r
    case bestNonce => exact absurd hw hr
    all_goals rfl

end Operations

/-! ### The session commands -/

theorem beginBuffers_keepsOutside {s : State} (hn : s.argCbLen.toNat ≤ 128) :
    KeepsOutside (writeSet (some .begin)) s (beginBuffers s) := by
  have hbest := (KeepsOutside.refl (writeSet (some .begin)) s).writeBuf (b := .bestHash) (by decide) (by decide) 0
    (fill 32 0xFF) (by simp [bufSize])
  have htarget := hbest.writeBuf (b := .target) (by decide) (by decide) 0 (fill 32 0) (by simp [bufSize])
  have hheader := htarget.writeBuf (b := .header) (by decide) (by decide) 0 (fill 80 0) (by simp [bufSize])
  have hpath := hheader.writeBuf (b := .path) (by decide) (by decide) 0 (fill 512 0) (by simp [bufSize])
  have hcoinbase := hpath.writeBuf (b := .coinbase) (by decide) (by decide) 0 (fill 132 0) (by simp [bufSize])
  exact hcoinbase.writeBuf (b := .coinbase) (by decide) (by decide) 4 s.opFragment (by simp [bufSize]; omega)

theorem beginEffect_keepsOutside (s : State) :
    KeepsOutside (writeSet (some .begin)) s (beginEffect Config.cbCap s) := by
  rcases beginEffect_cases Config.cbCap s with ⟨-, e⟩ | ⟨hcap, e⟩ <;> rw [e]
  · exact (KeepsOutside.refl _ s).setResult (by decide) _
  refine (beginBuffers_keepsOutside (hcap.trans cbCap_le)).setRegs (beginScalars_mem _) (beginScalars_resetDraw _)
    fun r hr _ => ?_
  generalize beginBuffers s = t
  cases r
  case state | result | height | nonce2 | startNonce | bestNonce | hashTime | cbLen | pathLen =>
    exact absurd (by decide) hr
  all_goals rfl

theorem failInit_keepsOutside (s : State) : KeepsOutside (writeSet (some .init)) s (failInit s) := by
  have hcoinbase := (KeepsOutside.refl (writeSet (some .init)) s).writeBuf (b := .coinbase) (by decide) (by decide) 0
    (drawnBytes s.draws (bufBase .coinbase) 4) (by simp [bufSize])
  have hpath := hcoinbase.writeBuf (b := .path) (by decide) (by decide) 0 (drawnBytes s.draws (bufBase .path) 512)
    (by simp [bufSize])
  have hheader := hpath.writeBuf (b := .header) (by decide) (by decide) 0 (drawnBytes s.draws (bufBase .header) 80)
    (by simp [bufSize])
  have htarget := hheader.writeBuf (b := .target) (by decide) (by decide) 0 (drawnBytes s.draws (bufBase .target) 32)
    (by simp [bufSize])
  refine htarget.setRegs (failInit_mem s) (by simp) fun r hr _ => ?_
  cases r
  case state | result | height | nonce | pathLen => exact absurd (by decide) hr
  case estat => exact estatWord_congr (by simp) (by simp)
  all_goals simp [readReg]

theorem initSession_keepsOutside (lead : Byte) {t : List Byte} (ht : t.length = 32) {s : State}
    (hp : s.argPathLen.toNat ≤ 16) : KeepsOutside (writeSet (some .init)) s (initSession lead t s) := by
  have hop : s.opPathLen = s.argPathLen.toNat := rfl
  have hstore : KeepsOutside (writeSet (some .init)) s (initStore lead s) :=
    ((KeepsOutside.refl _ s).writeBuf (by decide) (by decide) 0 _ (by simp [bufSize])).writeBuf (by decide) (by decide)
      0 _ (by simp [bufSize, hop]; omega)
  have hbufs := (hstore.writeBuf (b := .header) (by decide) (by decide) 0 (initHeader (initStore lead s))
    (by simp [bufSize])).writeBuf (b := .target) (by decide) (by decide) 0 t (by simp [bufSize, ht])
  refine hbufs.setRegs (initSession_mem lead t s) (by simp) fun r hr _ => ?_
  cases r
  case state | result | height | nonce | pathLen | startNonce => exact absurd (by decide) hr
  case estat => exact estatWord_congr (by simp) (by simp)
  all_goals simp [readReg]

theorem initEffect_keepsOutside (lead : Byte) (s : State) :
    KeepsOutside (writeSet (some .init)) s (initEffect lead s) := by
  rcases initEffect_cases lead s with ⟨-, -, e⟩ | ⟨-, -, e⟩ | ⟨-, t, ht, e⟩ <;> rw [e]
  · exact (KeepsOutside.refl _ s).setResult (by decide) _
  · exact failInit_keepsOutside s
  · obtain ⟨-, hp, hdec⟩ := initTarget_eq_some ht
    exact initSession_keepsOutside lead (decodeTarget_length hdec) hp

theorem endEffect_keepsOutside (s : State) : KeepsOutside (writeSet (some .endSession)) s (endEffect s) :=
  ((KeepsOutside.refl _ s).setStatus (by decide) _).setResult (by decide) _

theorem reportEffect_keepsOutside (s : State) : KeepsOutside (writeSet (some .report)) s (reportEffect s) :=
  ((KeepsOutside.refl _ s).writeBuf (by decide) (by decide) 0 (reportBytes s) (by simp [bufSize])).setResult
    (by decide) _

/-! ### The nonce search -/

theorem trackBest_keepsOutside {s t : State} (h : KeepsOutside (writeSet (some .mine)) s t) {hash : List Byte}
    (hl : hash.length = 32) (nc : Word) : KeepsOutside (writeSet (some .mine)) s (trackBest hash nc t) := by
  rcases trackBest_cases hash nc t with ⟨-, e⟩ | ⟨-, e⟩ <;> rw [e]
  · exact h.recordBest (by decide) (by decide) hl nc
  · exact h

theorem minePass_keepsOutside {s t : State} (h : KeepsOutside (writeSet (some .mine)) s t) :
    KeepsOutside (writeSet (some .mine)) s (minePass t) := by
  have hl := headerHash_length t
  have hbest := trackBest_keepsOutside h hl t.nonce
  rcases minePass_cases t with ⟨-, e⟩ | ⟨-, -, -, e⟩ | ⟨-, -, -, -, e⟩ | ⟨-, -, e⟩ <;> rw [e]
  · exact (h.recordBest (by decide) (by decide) hl _).setStatus (by decide) _
  · exact hbest.setStatus (by decide) _
  · exact (hbest.setNonce2 (by decide) _).setNonce (by decide) (by decide) _
  · exact hbest.setNonce (by decide) (by decide) _

theorem mineEffect_keepsOutside (dt : Nat) (s : State) :
    KeepsOutside (writeSet (some .mine)) s (mineEffect dt s) := by
  have h := KeepsOutside.refl (writeSet (some .mine)) s
  rcases mineEffect_cases dt s with ⟨-, e⟩ | ⟨-, e⟩ <;> rw [e]
  · have hpasses := minePasses_keeps (P := KeepsOutside (writeSet (some .mine)) s)
      (fun _ _ ht => minePass_keepsOutside ht) s.argCycles.toNat s h
    exact ((hpasses.addHashTime (by decide) dt).countDraw).setResult (by decide) _
  · exact h.setResult (by decide) _

/-! ### The cipher commands -/

theorem encryptEffect_keepsOutside (f : Key → Block → Block) (s : State) :
    KeepsOutside (writeSet (some .encrypt)) s (encryptEffect f s) := by
  have h := KeepsOutside.refl (writeSet (some .encrypt)) s
  rcases encryptEffect_cases f s with ⟨-, e⟩ | ⟨-, e⟩ | ⟨-, -, hn, e⟩ <;> rw [e]
  · exact (h.setCres (by decide) _).setResult (by decide) _
  · exact (h.setCres (by decide) _).setResult (by decide) _
  · refine ((h.writeBuf (by decide) (by decide) 0 _ ?_).setCres (by decide) _).setResult (by decide) _
    rw [encryptedRegion_length, Nat.zero_add]
    exact hn

theorem decryptEffect_keepsOutside (f : Key → Block → Block) (s : State) :
    KeepsOutside (writeSet (some .decrypt)) s (decryptEffect f s) := by
  have h := KeepsOutside.refl (writeSet (some .decrypt)) s
  rcases decryptEffect_cases f s with ⟨-, e⟩ | ⟨-, hm, hn, e⟩ <;> rw [e]
  · exact (h.setCres (by decide) _).setResult (by decide) _
  · refine ((h.writeBuf (by decide) (by decide) 0 _ ?_).setCres (by decide) _).setResult (by decide) _
    rw [decryptedRegion_length _ _ _ hm, Nat.zero_add]
    exact hn

theorem exec_keepsOutside {i : Instr} {s t : State} (ht : exec i s = .next t) :
    KeepsOutside (writeSet (some i)) s t := by
  cases i
  case begin => rw [exec_begin, Host.Outcome.next.injEq] at ht; exact ht ▸ beginEffect_keepsOutside s
  case init => rw [exec_init, Host.Outcome.next.injEq] at ht; exact ht ▸ initEffect_keepsOutside _ s
  case mine => rw [exec_mine, Host.Outcome.next.injEq] at ht; exact ht ▸ mineEffect_keepsOutside _ s
  case endSession => rw [exec_endSession, Host.Outcome.next.injEq] at ht; exact ht ▸ endEffect_keepsOutside s
  case report => rw [exec_report, Host.Outcome.next.injEq] at ht; exact ht ▸ reportEffect_keepsOutside s
  case encrypt => rw [exec_encrypt, Host.Outcome.next.injEq] at ht; exact ht ▸ encryptEffect_keepsOutside _ s
  case decrypt => rw [exec_decrypt, Host.Outcome.next.injEq] at ht; exact ht ▸ decryptEffect_keepsOutside _ s

/-- Settles O49: each effect is a chain of state operations inside its write set; MINE by induction on its passes. -/
theorem commandStaysInWriteSet : Obligations.CommandStaysInWriteSet := by
  intro i s t o ht ho _ hl
  exact (exec_keepsOutside ht).windowWord_eq ho hl

end Sys2Proof.Machine
end

section
/-! One step: what a single event does, when it stops, and that a pending command completes (20_memory.md). -/

namespace Sys2Proof.Machine

/-! ### The engine's turn -/

theorem engineTurn_pending {s : State} {w : Word} (hr : s.resetLine = false) (hp : s.pending = some w) :
    engineTurn s = engineStep w s := by
  rw [engineTurn, hr, hp]
  rfl

/-- Outside reset the engine's turn leaves `BUSY` = 0 (rule R91). -/
theorem engineTurn_not_busy {s : State} (hr : s.resetLine = false) :
    ∃ t, engineTurn s = .next t ∧ t.busy = false := by
  rcases engineTurn_cases s with ⟨h, e⟩ | ⟨-, w, i, t, -, -, -, e⟩ | ⟨-, w, x, -, -, e⟩
  · rcases h with h | h
    · rw [hr] at h; cases h
    · exact ⟨s, e, busy_of_pending_none h⟩
  · exact ⟨_, e, rfl⟩
  · exact ⟨_, e, rfl⟩

/-- Settles O5: both clauses are the engine's turn on the decoded word. -/
theorem stepRunsDecodedCommand : Obligations.StepRunsDecodedCommand := by
  intro s w i hr hp hd
  refine ⟨fun rest hs => ?_, fun hs => ?_⟩
  · obtain ⟨t, ht⟩ := exec_next i (s.withSchedule rest)
    have hturn : engineTurn (s.withSchedule rest) = _ := engineTurn_pending hr hp
    exact ⟨t, ht, (step_cons hs).trans (hturn.trans (engineStep_ok hd _ t ht))⟩
  · obtain ⟨t, ht⟩ := exec_next i s
    exact ⟨t, ht, (step_nil hs).trans ((engineTurn_pending hr hp).trans (engineStep_ok hd s t ht))⟩

/-! ### Which events stop a step -/

/-- A host access is answered, or it is ill formed and gets the bus error (rules R82, R83, R300). -/
theorem hostAccess_next_or_fault (a : Access) (s : State) :
    (∃ t, hostAccess a s = .next t) ∨
      (a.wellFormed = false ∧ s.resetLine = false ∧ hostAccess a s = .fault (.busError a.addr)) := by
  by_cases hr : s.resetLine = true
  · exact .inl ⟨_, by rw [hostAccess, if_pos hr]⟩
  have hr := Bool.eq_false_iff.mpr hr
  rcases hostAccess_cases a s hr with ⟨o, -, -, -, ⟨-, e⟩ | ⟨v, -, e⟩⟩ | ⟨hw, -, e⟩ | ⟨-, e⟩
  · exact .inl ⟨_, e⟩
  · exact .inl ⟨_, e⟩
  · exact .inr ⟨hw, hr, e⟩
  · exact .inl ⟨_, e⟩

/-- A step has a next state, or the next event is an ill-formed access outside reset (rules R280, R283). -/
theorem step_next_or_fault (s : State) :
    (∃ t, step s = .next t) ∨
      ∃ a rest, s.schedule = .access a :: rest ∧ a.wellFormed = false ∧ s.resetLine = false ∧
        step s = .fault (.busError a.addr) := by
  cases hs : s.schedule with
  | nil => rw [step_nil hs]; exact .inl (engineTurn_next s)
  | cons e rest =>
    rw [step_cons hs]
    cases e with
    | access a =>
      rcases hostAccess_next_or_fault a (s.withSchedule rest) with h | ⟨hw, hr, h⟩
      · exact .inl h
      · exact .inr ⟨a, rest, rfl, hw, hr, h⟩
    | engine => exact .inl (engineTurn_next _)
    | resetAssert => exact .inl ⟨_, rfl⟩
    | resetRelease => exact .inl ⟨_, rfl⟩

/-- Settles O9: by the two outcomes of a step. -/
theorem stepStopsOnlyOnBusError : Obligations.StepStopsOnlyOnBusError := by
  intro s
  rcases step_next_or_fault s with ⟨t, ht⟩ | ⟨a, rest, hs, hw, hr, hf⟩
  · rw [ht]
    exact ⟨nofun, nofun⟩
  · rw [hf]
    exact ⟨nofun, fun f h => ⟨a, rest, hs, (Host.Outcome.fault.inj h).symm, hw, hr⟩⟩

/-- Settles O43: neither a well-formed access nor one elsewhere, so the third kind of access. -/
theorem illFormedAccessFaults : Obligations.IllFormedAccessFaults := by
  intro s a rest hs hr h1 h2 hbad
  rw [step_cons hs]
  rcases hostAccess_cases a (s.withSchedule rest) hr with ⟨o, ha, -, hw, -⟩ | ⟨-, -, e⟩ | ⟨hn, -⟩
  · have hbase := base_add_mod o
    simp only [Access.wellFormed, Bool.and_eq_true, beq_iff_eq] at hw
    omega
  · exact e
  · rw [windowOffset_eq_none] at hn
    omega

/-- An access outside the window is no access to the MWE, in reset or not (rule R82). -/
theorem hostAccess_elsewhere {a : Access} (h : windowOffset a.addr = none) (s : State) :
    hostAccess a s = .next { s with busData := none } := by
  rw [hostAccess, h]
  split <;> rfl

/-- Settles O52: the address selects no offset of the window. -/
theorem accessElsewhereDoesNothing : Obligations.AccessElsewhereDoesNothing := by
  intro s a rest hs ha
  exact (step_cons hs).trans (hostAccess_elsewhere ((windowOffset_eq_none _).mpr ha) _)

/-! ### Completion -/

/-- A host access leaves the reset input and what is scheduled. -/
theorem hostAccess_keeps_schedule {a : Access} {s t : State} (h : hostAccess a s = .next t) :
    t.resetLine = s.resetLine ∧ t.schedule = s.schedule := by
  rcases hostAccess_next h with e | ⟨o, -, -, e | ⟨v, e⟩⟩ <;> rw [e]
  · exact ⟨rfl, rfl⟩
  · rcases hostRead_cases o s with ⟨-, e⟩ | ⟨-, e⟩ <;> rw [e] <;> exact ⟨rfl, rfl⟩
  · obtain ⟨-, -, -, -, -, -, -, -, -, -, hr, hs, -⟩ := hostWrite_keeps o v { s with busData := none }
    exact ⟨hr, hs⟩

/-- Settles O7: by induction on the schedule; the engine's turn ends the wait, an access leaves one event less. -/
theorem acceptedCommandCompletes : Obligations.AcceptedCommandCompletes := by
  intro s hr he
  generalize hs : s.schedule = events at he
  induction events generalizing s with
  | nil =>
    obtain ⟨t, ht, hb⟩ := engineTurn_not_busy hr
    exact ⟨1, t, by simp, core_run_succ 0 ((step_nil hs).trans ht), hb⟩
  | cons e rest ih =>
    obtain ⟨hhead, htail⟩ := List.forall_mem_cons.mp he
    rcases hhead with rfl | ⟨a, rfl, hw⟩
    · obtain ⟨t, ht, hb⟩ := engineTurn_not_busy (s := s.withSchedule rest) hr
      exact ⟨1, t, by simp, core_run_succ 0 ((step_cons hs).trans ht), hb⟩
    · rcases hostAccess_next_or_fault a (s.withSchedule rest) with ⟨t, ht⟩ | ⟨hf, -⟩
      · obtain ⟨htr, hts⟩ := hostAccess_keeps_schedule ht
        obtain ⟨k, u, hk, hrun, hb⟩ := ih t (htr.trans hr) hts htail
        refine ⟨k + 1, u, ?_, (core_run_succ k ((step_cons hs).trans ht)).trans hrun, hb⟩
        rw [List.length_cons]
        omega
      · rw [hw] at hf; cases hf

end Sys2Proof.Machine
end

section
/-! Host reads and writes: the busy rules, the draws of rule R93, and that a write changes one location. -/

namespace Sys2Proof.Machine

/-- Settles O44: offset 0 is `CMD`. -/
theorem commandWriteIsAccepted : Obligations.CommandWriteIsAccepted := by
  intro s w rest hs hr hp
  have hidle : ({ s with schedule := rest, busData := none } : State).pending = none := hp
  rw [step_memWrite hs hr rfl (by decide), hostWrite_idle hidle]
  exact congrArg _ (writeWindow_reg .cmd w _)

/-- Settles O45: by the two branches of a write while `BUSY` = 1, `ESTAT` being the register at 0x008. -/
theorem writeWhileBusyIsDropped : Obligations.WriteWhileBusyIsDropped := by
  intro s o v rest hs hr hb h4 ho
  have hestat : locate o = .reg .estat ↔ o = 0x008 := locate_eq_reg h4 .estat
  rw [step_memWrite hs hr h4 ho]
  rcases hostWrite_cases o v { s with schedule := rest, busData := none } with ⟨-, hl, e⟩ | ⟨-, hl, e⟩ | ⟨hidle, -⟩
  · rw [e, if_pos (hestat.mp hl), writeEstat_eq]
  · rw [e, if_neg (fun h => hl (hestat.mpr h))]
  · have hidle : s.busy = false := hidle
    rw [hb] at hidle
    cases hidle

/-- The step on a read the host makes of the window (rules R82, R83, R300). -/
theorem step_memRead {s : State} {o : Nat} {rest : List Event} (hs : s.schedule = .access (memRead o) :: rest)
    (hr : s.resetLine = false) (h4 : o % 4 = 0) (ho : o < 4096) :
    step s = .next (hostRead o (s.withSchedule rest)) :=
  (step_cons hs).trans (hostAccess_memRead (s.withSchedule rest) hr h4 ho)

/-- Settles O48: the two outcomes of a read, of which each clause's premise excludes the other. -/
theorem readReturnsWordOrDraw : Obligations.ReadReturnsWordOrDraw := by
  intro s o rest hs hr h4 ho
  rw [step_memRead hs hr h4 ho]
  rcases hostRead_cases o (s.withSchedule rest) with ⟨⟨w, hp, hin⟩, e⟩ | ⟨hout, e⟩ <;> rw [e]
  · exact ⟨fun _ => rfl, fun h => absurd hin (h w hp)⟩
  · exact ⟨fun ⟨w, hp, hin⟩ => absurd hin (hout w hp), fun _ => rfl⟩

/-! ### Byte lanes -/

/-- Byte `i` of a word's little-endian form is its bits [8i+7:8i] (rules R10, R84). -/
theorem toLE32_getD (v : Word) {i : Nat} (hi : i < 4) : (toLE32 v).getD i 0 = v.extractLsb' (8 * i) 8 := by
  match i, hi with
  | 0, _ => rfl
  | 1, _ => rfl
  | 2, _ => rfl
  | 3, _ => rfl

theorem readWord_extractLsb' (s : State) (a : Nat) {i : Nat} (hi : i < 4) :
    (s.readWord a).extractLsb' (8 * i) 8 = s.readByte (a + i) := by
  rw [← toLE32_getD _ hi, toLE32_readWord, readBytes_getD _ _ _ _ hi]

/-- Settles O50: a buffer's word is the word of its four bytes, and `NONCE` the word at 0x0CC. -/
theorem lanesAreLittleEndian : Obligations.LanesAreLittleEndian := by
  intro s
  have hheader : locate 0x0CC = .buf .header := (locate_eq_buf _ _).mpr (by decide)
  refine ⟨fun b k h4 hk => ?_, windowWord_buf hheader, windowWord_reg s .nonce⟩
  obtain ⟨hbase, -⟩ := bufBase_mod b
  have hl : locate (bufBase b + k) = .buf b := (locate_eq_buf _ b).mpr (by omega)
  rw [windowWord_buf hl]
  refine ⟨fun i hi => readWord_extractLsb' s _ hi, ?_⟩
  rw [readWord_of_buffer s b _ (by omega) (by omega) (by omega), Nat.add_sub_cancel_left]

/-! ### A write changes one location -/

/-- A write of a register changes what no other register reads, but that a write of `CMD` raises `BUSY` in `ESTAT`
(rules R86, R90). -/
theorem readReg_writeReg_other {r q : Reg} (hne : q ≠ r) (hcmd : r = .cmd → q ≠ .estat) (v : Word) (s : State) :
    readReg (writeReg r v s) q = readReg s q := by
  cases r
  case result | state | height | nonce | nonce2 | startNonce | bestNonce | hashTime | cbLen | pathLen | cres => rfl
  case estat =>
    rw [writeReg, writeEstat_eq]
    cases q
    case estat => exact absurd rfl hne
    all_goals rfl
  all_goals cases q
  case cmd.estat => exact absurd rfl (hcmd rfl)
  case cmd.cmd | ctrl.ctrl | argCbLen.argCbLen | argHeight.argHeight | argPathLen.argPathLen | argCycles.argCycles |
    key0.key0 | key1.key1 | key2.key2 | key3.key3 | clen.clen | ccap.ccap => exact absurd rfl hne
  all_goals rfl

/-- No register write reaches a buffer. -/
theorem buffer_writeReg (r : Reg) (v : Word) (s : State) (b : Buf) : (writeReg r v s).buffer b = s.buffer b := by
  rw [writeReg_eq]
  rfl

theorem writeReg_changes_one {r : Reg} {x : Nat} (hx : x % 4 = 0) (hne : x ≠ regOffset r)
    (hcmd : r = .cmd → x ≠ 0x008) (v : Word) (s : State) : windowWord (writeReg r v s) x = windowWord s x := by
  refine windowWord_congr hx (fun q hq => ?_) fun b _ => buffer_writeReg r v s b
  have hq := (locate_eq_reg hx q).mp hq
  refine readReg_writeReg_other (fun e => hne (hq.trans (congrArg regOffset e))) (fun hr e => hcmd hr ?_) v s
  rw [hq, e]
  rfl

/-- A word stored in a writable buffer leaves every register; `HEADER`, which `NONCE` is a view of, is read-only. -/
theorem readReg_store {o : Nat} {b : Buf} (hl : locate o = .buf b) (h4 : o % 4 = 0) (hw : bufWritable b = true)
    (v : Word) (s : State) (q : Reg) :
    readReg ({ s with mem := s.mem.store o (toLE32 v) } : State) q = readReg s q := by
  obtain ⟨h1, h2⟩ := (locate_eq_buf o b).mp hl
  have hm := bufBase_mod b
  rw [store_eq_writeBuf s h1]
  cases q
  case nonce =>
    exact nonce_writeBuf_other s _ _ (fun e => by rw [e] at hw; cases hw) (by rw [toLE32_length]; omega)
  all_goals rfl

theorem store_changes_one {o x : Nat} {b : Buf} (hl : locate o = .buf b) (h4 : o % 4 = 0) (hw : bufWritable b = true)
    (hx : x % 4 = 0) (hne : x ≠ o) (v : Word) (s : State) :
    windowWord ({ s with mem := s.mem.store o (toLE32 v) } : State) x = windowWord s x := by
  cases hlx : locate x with
  | reg q =>
    obtain rfl := (locate_eq_reg hx q).mp hlx
    rw [windowWord_reg, windowWord_reg, readReg_store hl h4 hw]
  | buf c =>
    rw [windowWord_buf hlx, windowWord_buf hlx]
    refine readWord_congr fun i hi => ?_
    rw [readByte_store, toLE32_length, if_neg (by omega)]
  | reserved => rw [windowWord_reserved hlx, windowWord_reserved hlx]

/-- Settles O47: by what stands at the written offset. -/
theorem writeChangesOneLocation : Obligations.WriteChangesOneLocation := by
  intro s o x v hp ho hx _ _ hne hcmd
  rw [hostWrite_idle hp]
  cases hl : locate o with
  | reg r =>
    obtain rfl := (locate_eq_reg ho r).mp hl
    rw [writeWindow_reg]
    exact writeReg_changes_one hx hne (fun hr => hcmd (hr ▸ rfl)) v s
  | buf b =>
    rw [writeWindow_buf hl]
    split
    · exact store_changes_one hl ho (by assumption) hx hne v s
    · rfl
  | reserved => rw [writeWindow_reserved hl]

/-! ### A write beside the engine's turn -/

/-- The state a write of `CMD` with MINE leaves, but for what is scheduled (rule R90). -/
def mineAccepted (s : State) : State :=
  { s with cmd := encode .mine, pending := some (encode .mine), busData := none }

theorem step_acceptMine {s : State} (hr : s.resetLine = false) (hp : s.pending = none) {rest : List Event}
    (hs : s.schedule = .access (memWrite 0x000 (encode .mine)) :: rest) :
    step s = .next ((mineAccepted s).withSchedule rest) :=
  commandWriteIsAccepted s _ rest hs hr hp

/-- The engine's turn on an accepted MINE. -/
theorem step_engine_mine {s m : State} {rest : List Event} (hr : s.resetLine = false)
    (hp : s.pending = some (encode .mine)) (hm : exec .mine (s.withSchedule rest) = .next m) :
    step (s.withSchedule (.engine :: rest)) = .next (finishCommand m) :=
  (step_engine_busy hp hr rest).trans (engineStep_ok (by decide) _ m hm)

/-- Settles O8: the three events one by one, in both orders. -/
theorem writeRacesEngineBothWays : Obligations.WriteRacesEngineBothWays := by
  intro s v hr hp
  refine ⟨fun hs => ?_, fun hs => ?_⟩
  · obtain ⟨m, hm⟩ := exec_next .mine ((mineAccepted s).withSchedule [.access (memWrite 0x11C v)])
    obtain ⟨-, -, -, hovr, -, -, -, -, -, -, -, -, -, -, hmr, hms, -⟩ := exec_keeps hm
    have hmine := step_engine_mine (s := mineAccepted s) hr rfl hm
    have hwrite := step_memWrite (s := finishCommand m) (o := 0x11C) hms (hmr.trans hr) rfl (by decide)
    have hlast : hostWrite 0x11C v { finishCommand m with schedule := [], busData := none } =
        writeReg .argCycles v { finishCommand m with schedule := [], busData := none } :=
      (hostWrite_idle rfl _ v).trans (writeWindow_reg .argCycles v _)
    rw [hlast] at hwrite
    have hrun := ((core_run_succ 2 (step_acceptMine hr hp hs)).trans (core_run_succ 1 hmine)).trans
      (core_run_succ 0 hwrite)
    exact ⟨m, _, hm, hrun, rfl, hovr, rfl, rfl⟩
  · have hdrop := writeWhileBusyIsDropped ((mineAccepted s).withSchedule [.access (memWrite 0x11C v), .engine]) 0x11C v
      [.engine] rfl hr rfl rfl (by decide)
    obtain ⟨m, hm⟩ := exec_next .mine (({ mineAccepted s with ovr := true } : State).withSchedule [])
    obtain ⟨-, -, -, hovr, -, -, -, hcycles, -⟩ := exec_keeps hm
    have hmine := step_engine_mine (s := { mineAccepted s with ovr := true }) hr rfl hm
    have hrun := ((core_run_succ 2 (step_acceptMine hr hp hs)).trans (core_run_succ 1 hdrop)).trans
      (core_run_succ 0 hmine)
    exact ⟨_, hrun, hcycles, hovr, rfl⟩

end Sys2Proof.Machine
end

section
/-! Command words: the decoder against the table of rule R111, the disassembler, and the step on an undefined word. -/

namespace Sys2Proof.Machine

/-! ### The decoder -/

@[simp] theorem rsvdField_setWidth (opc : Byte) : rsvdField (opc.setWidth 32) = 0 := by
  have hlt := opc.isLt
  apply BitVec.eq_of_toNat_eq
  simp only [rsvdField, BitVec.extractLsb'_toNat, BitVec.toNat_setWidth, Nat.shiftRight_eq_div_pow,
    BitVec.ofNat_eq_ofNat, BitVec.toNat_ofNat]
  omega

@[simp] theorem opcField_setWidth (opc : Byte) : opcField (opc.setWidth 32) = opc := by
  have hlt := opc.isLt
  apply BitVec.eq_of_toNat_eq
  simp only [opcField, BitVec.extractLsb'_toNat, BitVec.toNat_setWidth, Nat.shiftRight_zero]
  omega

/-- The rows of rule R111's table, read from the opcode column. -/
theorem decodeOpcode_opcodeOf (i : Instr) : decodeOpcode (opcodeOf i) = .ok i := by
  cases i <;> rfl

theorem decode_encode (i : Instr) : decode (encode i) = .ok i := by
  rw [decode, encode, rsvdField_setWidth, opcField_setWidth, if_neg (not_not.mpr rfl), decodeOpcode_opcodeOf]

/-- Settles O2: the decoder answers only a command whose word it is (`encode_of_decode`), and every command on its own
word (`decode_encode`). -/
theorem decodeAcceptsExactlyTheTable : Obligations.DecodeAcceptsExactlyTheTable := by
  intro w i
  constructor
  · exact encode_of_decode
  · rintro rfl
    exact decode_encode i

/-- Settles O1: each literal is its command's `encode`. -/
theorem commandWordsDecode : Obligations.CommandWordsDecode :=
  ⟨decode_encode .begin, decode_encode .init, decode_encode .mine, decode_encode .endSession, decode_encode .report,
    decode_encode .encrypt, decode_encode .decrypt⟩

/-- A word that is no command's is rejected (rule R113). -/
theorem decode_error_of_undefined {w : Word} (hw : ∀ i : Instr, w ≠ encode i) : ∃ e, decode w = .error e := by
  cases hd : decode w with
  | ok i => exact absurd (encode_of_decode hd) (hw i)
  | error e => exact ⟨e, rfl⟩

/-! ### The disassembler -/

theorem disassemble_encode (i : Instr) : disassemble (encode i) = mnemonic i := by
  rw [disassemble, decode_encode]

theorem disassemble_undefined {w : Word} (hw : ∀ i : Instr, w ≠ encode i) :
    disassemble w = ".undef 0x" ++ hexWord w := by
  obtain ⟨e, he⟩ := decode_error_of_undefined hw
  rw [disassemble, he]

/-- No two commands share a mnemonic, so each is found by its own. -/
theorem assemble_mnemonic (i : Instr) : assemble (mnemonic i) = some (encode i) := by
  cases i <;> decide

/-- Settles O3: `disassemble` follows `decode`, so both parts come from the decoder's lemmas. -/
theorem disassemblyIsInverse : Obligations.DisassemblyIsInverse := by
  refine ⟨fun i => ?_, fun w hw => disassemble_undefined hw⟩
  rw [disassemble_encode]
  exact ⟨rfl, assemble_mnemonic i⟩

/-! ### An undefined word -/

/-- The engine's turn on an undefined word (rule R113). -/
theorem step_engine_undefined {s : State} {w : Word} {rest : List Event} (hs : s.schedule = .engine :: rest)
    (hr : s.resetLine = false) (hp : s.pending = some w) (hw : ∀ i : Instr, w ≠ encode i) :
    step s = .next { s with pending := none, result := .eopc, schedule := rest } := by
  obtain ⟨e, he⟩ := decode_error_of_undefined hw
  have hturn : engineTurn (s.withSchedule rest) = engineStep w (s.withSchedule rest) := engineTurn_pending hr hp
  exact (step_cons hs).trans (hturn.trans (engineStep_error he _))

/-- Settles O4: the write is accepted as any other (`commandWriteIsAccepted`), the engine's turn sets EOPC. -/
theorem undefinedWordSetsOnlyEopc : Obligations.UndefinedWordSetsOnlyEopc := by
  intro s w rest hr hp hs hw
  have hwrite := commandWriteIsAccepted s w (.engine :: rest) hs hr hp
  have hengine := step_engine_undefined
    (s := { s with cmd := w, pending := some w, schedule := .engine :: rest, busData := none }) rfl hr rfl hw
  exact ⟨core_run_succ 0 hwrite, (core_run_succ 1 hwrite).trans (core_run_succ 0 hengine)⟩

end Sys2Proof.Machine
end

section
/-! Lines of a host program (rule R115): where the accesses of a well-formed line stand. -/

namespace Sys2Proof.Machine

theorem inBuffer_iff (b : Buf) (k n : Nat) : inBuffer b k n = true ↔ k % 4 = 0 ∧ k + n ≤ bufSize b := by
  simp [inBuffer]

/-- The words of an aligned part of a buffer are aligned and in that buffer. -/
theorem offset_of_inBuffer {b : Buf} {k n j : Nat} (h : inBuffer b k n = true) (hj : 4 * j < n) :
    (bufBase b + k + 4 * j) % 4 = 0 ∧ locate (bufBase b + k + 4 * j) = .buf b := by
  obtain ⟨hk, hn⟩ := (inBuffer_iff b k n).mp h
  obtain ⟨hbase, -⟩ := bufBase_mod b
  exact ⟨by omega, (locate_eq_buf _ b).mpr ⟨by omega, by omega⟩⟩

theorem mem_writesFrom {a : Access} {o : Nat} {ws : List Word} (h : a ∈ writesFrom o ws) :
    ∃ j v, j < ws.length ∧ a = memWrite (o + 4 * j) v := by
  induction ws generalizing o with
  | nil => cases h
  | cons w ws ih =>
    rcases List.mem_cons.mp h with rfl | h
    · exact ⟨0, w, by simp, rfl⟩
    · obtain ⟨j, v, hj, rfl⟩ := ih h
      exact ⟨j + 1, v, by simpa using hj, by rw [Nat.mul_succ, Nat.add_assoc, Nat.add_comm 4]⟩

theorem bytesToWords_padToWords_length (bs : List Byte) :
    (bytesToWords (padToWords bs)).length = (bs.length + 3) / 4 := by
  rw [bytesToWords_length, padToWords, List.length_append, fill_length]
  omega

/-- The access is 32 bits wide, aligned, and at an offset of the buffer. -/
def IsBufferAccess (b : Buf) (a : Access) : Prop :=
  a.wellFormed = true ∧ ∃ o, a.addr = Config.base + o ∧ locate o = .buf b

theorem isBufferAccess_memWrite {b : Buf} {k n j : Nat} (h : inBuffer b k n = true) (hj : 4 * j < n) (v : Word) :
    IsBufferAccess b (memWrite (bufBase b + k + 4 * j) v) := by
  obtain ⟨hm, hl⟩ := offset_of_inBuffer h hj
  exact ⟨memWrite_wellFormed v hm, _, rfl, hl⟩

theorem isBufferAccess_memRead {b : Buf} {k n j : Nat} (h : inBuffer b k n = true) (hj : 4 * j < n) :
    IsBufferAccess b (memRead (bufBase b + k + 4 * j)) := by
  obtain ⟨hm, hl⟩ := offset_of_inBuffer h hj
  exact ⟨memRead_wellFormed hm, _, rfl, hl⟩

/-- `wr`, `wrbytes` and `rdbytes` on a buffer (rule R115). -/
theorem bufferLine_access {l : HostLine} {b : Buf} (hw : l.wellFormed = true)
    (hl : (∃ k v, l = .wrBuf b k v) ∨ (∃ k bs, l = .wrBytes b k bs) ∨ ∃ n, l = .rdBytes b n) {x : HostAction}
    (hx : x ∈ hostLineActions l) : IsBufferAccess b (actionAccess x) := by
  rcases hl with ⟨k, v, rfl⟩ | ⟨k, bs, rfl⟩ | ⟨n, rfl⟩
  · obtain rfl := List.mem_singleton.mp hx
    exact isBufferAccess_memWrite (j := 0) hw (by decide) v
  · obtain ⟨a, ha, rfl⟩ := List.mem_map.mp hx
    obtain ⟨j, v, hj, rfl⟩ := mem_writesFrom ha
    rw [bytesToWords_padToWords_length] at hj
    exact isBufferAccess_memWrite hw (by omega) v
  · obtain ⟨j, hj, rfl⟩ := List.mem_map.mp hx
    rw [List.mem_range] at hj
    exact isBufferAccess_memRead (k := 0) hw (by omega)

theorem writeReg32_wellFormed (r : Reg) (v : Word) : (actionAccess (writeReg32 r v)).wellFormed = true :=
  memWrite_wellFormed v (regOffset_mod r)

theorem poll_wellFormed : (actionAccess .poll).wellFormed = true := memRead_wellFormed (regOffset_mod .estat)

theorem commandActions_wellFormed {w : Word} {x : HostAction} (hx : x ∈ commandActions w) :
    (actionAccess x).wellFormed = true := by
  rcases List.mem_pair.mp hx with rfl | rfl
  · exact writeReg32_wellFormed .cmd w
  · exact poll_wellFormed

/-- Settles O53: a line on a buffer by `bufferLine_access`, every other line because register offsets are aligned. -/
theorem hostLinesAreAligned : Obligations.HostLinesAreAligned := by
  intro l hw
  refine ⟨fun x hx => ?_, fun b hl x hx => (bufferLine_access hw hl hx).2⟩
  cases l with
  | wr r v => rw [List.mem_singleton.mp hx]; exact writeReg32_wellFormed r v
  | wrBuf b k v => exact (bufferLine_access hw (.inl ⟨k, v, rfl⟩) hx).1
  | wrBytes b k bs => exact (bufferLine_access hw (.inr (.inl ⟨k, bs, rfl⟩)) hx).1
  | rd r => rw [List.mem_singleton.mp hx]; exact memRead_wellFormed (regOffset_mod r)
  | rdBytes b n => exact (bufferLine_access hw (.inr (.inr ⟨n, rfl⟩)) hx).1
  | poll => rw [List.mem_singleton.mp hx]; exact poll_wellFormed
  | cmd i => exact commandActions_wellFormed hx
  | cmdRaw w => exact commandActions_wellFormed hx
  | mine cycles =>
    rcases List.mem_cons.mp hx with rfl | hx
    · exact writeReg32_wellFormed .argCycles cycles
    · exact commandActions_wellFormed hx
  | clrOvr => rw [List.mem_singleton.mp hx]; exact writeReg32_wellFormed .estat 0x00000002

end Sys2Proof.Machine
end

section
/-! Hashes and the 256-bit comparison (rules R141, R148, R150). -/

namespace Sys2Proof.Machine

/-- Rule R141's bit length reads back as the number, for a number of at most 64 bits. -/
theorem be256_toBE64 {n : Nat} (h : n < 2 ^ 64) : be256 (toBE64 n) = n := by
  have hbytes : toBE64 n = [.ofNat 8 (n / 256 ^ 7), .ofNat 8 (n / 256 ^ 6), .ofNat 8 (n / 256 ^ 5),
      .ofNat 8 (n / 256 ^ 4), .ofNat 8 (n / 256 ^ 3), .ofNat 8 (n / 256 ^ 2), .ofNat 8 (n / 256 ^ 1),
      .ofNat 8 (n / 256 ^ 0)] := rfl
  simp only [hbytes, be256, List.foldl_cons, List.foldl_nil, BitVec.toNat_ofNat]
  omega

/-- The parts of a padded message, and the number of zero bytes that fills the last block (rule R141). -/
theorem shaPad_eq (m : List Byte) : ∃ k, k < 64 ∧ (m.length + 9 + k) % 64 = 0 ∧
    shaPad m = m ++ 0x80 :: (fill k 0 ++ toBE64 (8 * m.length)) :=
  ⟨((55 - (m.length : Int)) % 64).toNat, by omega, by omega, by simp [shaPad]⟩

/-- Settles O28, from the parts of a padded message and the value of its bit length. -/
theorem shaPaddingFillsBlocks : Obligations.ShaPaddingFillsBlocks := by
  intro m hm
  obtain ⟨k, hk, hblocks, hpad⟩ := shaPad_eq m
  have hlen : (shaPad m).length = m.length + 9 + k := by
    simp only [hpad, List.length_append, List.length_cons, fill_length, toBE64_length]
    omega
  refine ⟨by rw [hlen, hblocks], by omega, by simp [hpad], by simp [hpad], fun i hi hz => ?_, ?_⟩
  · -- Byte `i` is zero number `i - m.length - 1`.
    obtain ⟨j, rfl⟩ : ∃ j, i = m.length + (j + 1) := ⟨i - m.length - 1, by omega⟩
    rw [hpad, List.getD_append_right _ _ _ _ (by omega), Nat.add_sub_cancel_left, List.getD_cons_succ,
      List.getD_append _ _ _ _ (by rw [fill_length]; omega), fill_zero_getD]
  · have hfront : (shaPad m).length - 8 = (m ++ 0x80 :: fill k 0).length := by
      simp only [hlen, List.length_append, List.length_cons, fill_length]
      omega
    have hsplit : shaPad m = (m ++ 0x80 :: fill k 0) ++ toBE64 (8 * m.length) := by simp [hpad]
    rw [hfront, hsplit, List.drop_left, be256_toBE64 (by omega)]

/-- Big-endian order is decided by the first byte that differs: what follows weighs less than one unit of it. -/
theorem be256_lt_of_first_byte_lt {a b : List Byte} {i : Nat} (hlen : a.length = b.length) (hi : i < a.length)
    (heq : ∀ j, j < i → a.getD j 0 = b.getD j 0) (hlt : (a.getD i 0).toNat < (b.getD i 0).toNat) :
    be256 a < be256 b := by
  induction a generalizing b i with
  | nil => cases hi
  | cons x xs ih =>
    obtain ⟨y, ys, rfl⟩ := List.exists_cons_of_length_eq_add_one hlen.symm
    have htail : xs.length = ys.length := Nat.succ.inj hlen
    rw [be256_cons, be256_cons, ← htail]
    cases i with
    | zero =>
      calc x.toNat * 256 ^ xs.length + be256 xs < (x.toNat + 1) * 256 ^ xs.length := by
            rw [Nat.succ_mul]; exact Nat.add_lt_add_left (be256_lt xs) _
        _ ≤ y.toNat * 256 ^ xs.length := Nat.mul_le_mul_right _ hlt
        _ ≤ y.toNat * 256 ^ xs.length + be256 ys := Nat.le_add_right _ _
    | succ i =>
      have hhead : x = y := heq 0 (Nat.succ_pos i)
      have := ih htail (Nat.lt_of_succ_lt_succ hi) (fun j hj => heq (j + 1) (Nat.succ_lt_succ hj)) hlt
      rw [hhead]
      exact Nat.add_lt_add_left this _

/-- Settles O30: the first byte that differs decides, by `be256_lt_of_first_byte_lt` in both directions. -/
theorem le256ComparesBytewise : Obligations.Le256ComparesBytewise := by
  intro a b ha hb
  refine ⟨le256_iff a b, fun h => (le256_iff a b).mpr (h ▸ le_rfl), fun i hi heq hne => ?_⟩
  rw [le256_iff]
  rcases Nat.lt_or_gt_of_ne (mt BitVec.eq_of_toNat_eq hne) with hlt | hgt
  · have := be256_lt_of_first_byte_lt (ha.trans hb.symm) (by omega) heq hlt
    exact iff_of_true this.le hlt
  · have := be256_lt_of_first_byte_lt (hb.trans ha.symm) (by omega) (fun j hj => (heq j hj).symm) hgt
    exact iff_of_false this.not_ge hgt.not_gt

/-- Settles O29: the 32 bytes of the outer digest are read from the last to the first. -/
theorem doubleHashIsReversedDigest : Obligations.DoubleHashIsReversedDigest := by
  intro x
  refine ⟨sha256_length x, doubleHash_length x, fun i hi => ?_⟩
  have hlen : i < (sha256 (sha256 x)).length := by rw [sha256_length]; exact hi
  rw [doubleHash, List.getD_reverse i hlen, sha256_length]

end Sys2Proof.Machine
end

section
/-! The compact target decoder (rules R170 to R174). -/

namespace Sys2Proof.Machine

/-- `decodeTarget_lt` with its bound as a number (rule R174). -/
theorem decodeTarget_lt_two_pow {bits : Word} {t : List Byte} (h : decodeTarget bits = some t) :
    be256 t < 2 ^ 256 - 1 := by
  have hones : be256 (fill 32 0xFF) = 2 ^ 256 - 1 := by rw [be256_fill_ones]; norm_num
  exact hones ▸ decodeTarget_lt h

/-- Settles O31: the exponent is `bits.toNat / 2 ^ 24`; failure and each fact of a decoded target are the decoder's
lemmas. -/
theorem decodeTargetValue : Obligations.DecodeTargetValue := by
  intro bits
  rw [← compactExponent_eq]
  exact ⟨decodeTarget_eq_none bits, fun t h =>
    ⟨decodeTarget_length h, decodeTarget_value h, decodeTarget_last h, decodeTarget_lt_two_pow h⟩⟩

end Sys2Proof.Machine
end

section
/-! The Merkle-path fold (rules R180 to R182). -/

namespace Sys2Proof.Machine

/-- Rule R182. -/
@[simp] theorem merkleFold_nil (cb : List Byte) : merkleFold cb [] = doubleHash cb := rfl

/-- Rule R181: the running value is on the left, the sibling as supplied on the right. -/
theorem merkleFold_append_singleton (cb : List Byte) (path : List (List Byte)) (sibling : List Byte) :
    merkleFold cb (path ++ [sibling]) = doubleHash (merkleFold cb path ++ sibling) := by
  have hlast : merkleFold cb (path ++ [sibling]) = merkleStep (merkleFold cb path) sibling :=
    List.foldl_concat merkleStep (doubleHash cb) sibling path
  rw [hlast, merkleStep]

/-- Settles O32: the empty path is `merkleFold_nil`, one more sibling `merkleFold_append_singleton`. -/
theorem merkleFoldBySibling : Obligations.MerkleFoldBySibling :=
  fun cb => ⟨merkleFold_nil cb, merkleFold_append_singleton cb⟩

end Sys2Proof.Machine
end

section
/-! The session commands BEGIN, INIT, END and REPORT (rules R190 to R205): what each outcome leaves in every register
and buffer. -/

namespace Sys2Proof.Machine

/-! ### Ranges of bytes -/

/-- A range holds two byte sequences one after another exactly when each stands in its own part of the range. -/
theorem readBytes_eq_append_iff {s : State} {a m n : Nat} {xs ys : List Byte} (hm : xs.length = m) :
    s.readBytes a (m + n) = xs ++ ys ↔ s.readBytes a m = xs ∧ s.readBytes (a + m) n = ys := by
  rw [readBytes_add]
  exact ⟨fun h => List.append_inj h (by rw [readBytes_length, hm]), fun ⟨hx, hy⟩ => by rw [hx, hy]⟩

theorem readBytes_eq_toLE32_iff (s : State) (a : Nat) (v : Word) :
    s.readBytes a 4 = toLE32 v ↔ s.readWord a = v := by
  rw [← toLE32_readWord]
  exact ⟨toLE32_injective, congrArg toLE32⟩

theorem readBytes_eq_fill {s : State} {a n : Nat} {v : Byte} (h : ∀ i, i < n → s.readByte (a + i) = v) :
    s.readBytes a n = fill n v := by
  apply eq_of_getD (by simp)
  intro i hi
  rw [readBytes_length] at hi
  rw [readBytes_getD _ _ _ _ hi, h i hi, fill_getD _ _ _ hi]

theorem buffer_take (s : State) (b : Buf) {n : Nat} (h : n ≤ bufSize b) :
    (s.buffer b).take n = s.readBytes (bufBase b) n := by
  obtain ⟨m, hm⟩ := Nat.exists_eq_add_of_le h
  rw [State.buffer, hm, readBytes_add, List.take_left' (readBytes_length _ _ _)]

/-! ### BEGIN -/

theorem beginEffect_over_cap {cap : Nat} {s : State} (h : cap < s.argCbLen.toNat) :
    beginEffect cap s = s.setResult .einval := by
  rcases beginEffect_cases cap s with ⟨-, e⟩ | ⟨hle, -⟩
  · exact e
  · omega

theorem beginEffect_within_cap {cap : Nat} {s : State} (h : s.argCbLen.toNat ≤ cap) :
    beginEffect cap s = beginScalars (beginBuffers s) := by
  rcases beginEffect_cases cap s with ⟨hlt, -⟩ | ⟨-, e⟩
  · omega
  · exact e

/-- Settles O10: over the cap BEGIN is a write of `RESULT`. -/
theorem beginOverCapKeepsEverything : Obligations.BeginOverCapKeepsEverything := by
  intro s h
  rw [exec_begin, beginEffect_over_cap h, State.setResult]

/-- `COINBASE` after BEGIN: four zeros, the fragment, and zeros to the end (rules R49, R190). -/
theorem beginBuffers_coinbase {s : State} (hn : s.argCbLen.toNat ≤ 128) :
    (beginBuffers s).buffer .coinbase =
      fill 4 0 ++ (s.buffer .argCb).take s.argCbLen.toNat ++ fill (128 - s.argCbLen.toNat) 0 := by
  have hprefix : (beginBuffers s).readBytes (bufBase .coinbase) 4 = fill 4 0 :=
    readBytes_eq_fill fun i hi => by rw [beginBuffers_coinbase_byte s i (by omega), if_neg (by omega)]
  have hfragment : (beginBuffers s).readBytes (bufBase .coinbase + 4) s.opFragment.length = s.opFragment :=
    readBytes_writeBuf_self _ _ _ _
  rw [opFragment_length, State.opFragment, State.opCbLen] at hfragment
  have htail : (beginBuffers s).readBytes (bufBase .coinbase + (4 + s.argCbLen.toNat)) (128 - s.argCbLen.toNat) =
      fill (128 - s.argCbLen.toNat) 0 :=
    readBytes_eq_fill fun i hi => by
      rw [Nat.add_assoc, beginBuffers_coinbase_byte s _ (by omega), if_neg (by omega)]
  have hsize : bufSize .coinbase = 4 + s.argCbLen.toNat + (128 - s.argCbLen.toNat) := by
    rw [bufSize]; omega
  rw [State.buffer, hsize, readBytes_add, readBytes_add, hprefix, hfragment, htail, buffer_take s .argCb hn]

/-- Settles O11: BEGIN within the cap is `beginScalars` after `beginBuffers`, and each field and buffer of the two has
its lemma. -/
theorem beginStartsSession : Obligations.BeginStartsSession := by
  intro s h
  have hn : s.argCbLen.toNat ≤ 128 := h.trans cbCap_le
  rw [exec_begin, beginEffect_within_cap h]
  refine ⟨_, rfl, ?_⟩
  simp [beginBuffers_bestHash s hn, beginBuffers_target s hn, beginBuffers_header s hn, beginBuffers_nonce s hn,
    beginBuffers_path s hn, beginBuffers_coinbase hn]

/-- Settles O12: over the cap only `RESULT` changes; within it the bytes written are those of the five buffers. -/
theorem beginFrame : Obligations.BeginFrame := by
  intro s t h
  rw [exec_begin, Host.Outcome.next.injEq] at h
  subst h
  rcases beginEffect_cases Config.cbCap s with ⟨-, e⟩ | ⟨hcap, e⟩ <;> rw [e]
  · exact ⟨rfl, fun a _ => setResult_readByte s _ a⟩
  · refine ⟨?_, fun a ha => ?_⟩
    · rw [beginBuffers_eq]; rfl
    · rw [beginScalars_readByte, beginBuffers_frame s (hcap.trans cbCap_le) a ha]

/-! ### INIT -/

theorem initEffect_rejected (lead : Byte) {s : State} (hr : s.status ≠ .ready) (hi : s.status ≠ .invalid) :
    initEffect lead s = s.setResult .estate := by
  rcases initEffect_cases lead s with ⟨-, -, e⟩ | ⟨h, -⟩ | ⟨h, -⟩
  · exact e
  · exact absurd h (not_or.mpr ⟨hr, hi⟩)
  · exact absurd h (not_or.mpr ⟨hr, hi⟩)

theorem initEffect_accepted (lead : Byte) {s : State} (h : s.status = .ready ∨ s.status = .invalid) :
    (initTarget s = none ∧ initEffect lead s = failInit s) ∨
      ∃ t, initTarget s = some t ∧ initEffect lead s = initSession lead t s := by
  rcases initEffect_cases lead s with ⟨hr, hi, -⟩ | ⟨-, hfail⟩ | ⟨-, hok⟩
  · exact absurd h (not_or.mpr ⟨hr, hi⟩)
  · exact .inl hfail
  · exact .inr hok

/-- Settles O13: in any other status INIT is a write of `RESULT`. -/
theorem initRejectedOutsideReadyInvalid : Obligations.InitRejectedOutsideReadyInvalid := by
  intro s hr hi
  rw [exec_init, initEffect_rejected _ hr hi, State.setResult]

/-- Settles O14: the failed validation leaves no target, so the accepted INIT is `failInit`. -/
theorem initFailsValidation : Obligations.InitFailsValidation := by
  intro s hs hbad
  have hnone : initTarget s = none := (initTarget_eq_none s).mpr hbad
  obtain ⟨hheight, hpath⟩ := failInit_bounds s
  rcases initEffect_accepted Config.cbLead hs with ⟨-, e⟩ | ⟨t, ht, -⟩
  · rw [exec_init, e]
    refine ⟨_, rfl, failInit_status s, failInit_result s, hheight, hpath, ?_,
      fun a h1 h2 h3 => failInit_frame s a ⟨h1, h2, h3⟩⟩
    rw [failInit_draws]
    exact failInit_eq s
  · rw [hnone] at ht; cases ht

/-- The header argument in its three parts: before, in and after the Merkle-root field. -/
theorem opHeader_eq (s : State) :
    s.opHeader = s.readBytes (bufBase .argHeader) 36 ++ s.readBytes (bufBase .argHeader + 36) 32 ++
      s.readBytes (bufBase .argHeader + 68) 12 := by
  rw [← readBytes_add s _ 36 32, ← readBytes_add s _ (36 + 32) 12]
  rfl

/-- The header INIT stores, in its three parts: only the Merkle-root field can differ from the argument (rules R34,
R185, R197). -/
theorem initHeader_eq (s : State) :
    initHeader s =
      s.readBytes (bufBase .argHeader) 36 ++
        (if s.mroot then s.readBytes (bufBase .argHeader + 36) 32
         else merkleFold s.storedCoinbase (s.pathEntries s.opPathLen)) ++
        s.readBytes (bufBase .argHeader + 68) 12 := by
  unfold initHeader
  split
  · exact opHeader_eq s
  · rw [opHeader_eq, List.drop_left' (by simp), List.append_assoc (s.readBytes _ 36),
      List.take_left' (by simp)]

/-- INIT's argument buffers, below `COINBASE`, are not changed by what INIT has stored. -/
theorem initStore_readBytes_low (lead : Byte) {s : State} (hp : s.argPathLen.toNat ≤ 16) {a n : Nat}
    (h : a + n ≤ 0x400) : (initStore lead s).readBytes a n = s.readBytes a n :=
  readBytes_congr fun i hi => initStore_frame lead s _ hp (.inl (by omega)) (.inl (by omega))

/-- From `COINBASE` on, INIT's last two writes leave every range as `initStore` left it. -/
theorem initSession_readBytes_stored (lead : Byte) {t : List Byte} (ht : t.length = 32) (s : State) {a : Nat}
    (h : 0x400 ≤ a) (n : Nat) : (initSession lead t s).readBytes a n = (initStore lead s).readBytes a n :=
  readBytes_congr fun i _ => initSession_stored lead t s _ ht (.inr (by omega))

section SuccessfulInit

variable (lead : Byte) {t : List Byte} {s : State} (ht : t.length = 32) (hp : s.argPathLen.toNat ≤ 16)

include ht

/-- Rule R196. -/
theorem initSession_prefix :
    (initSession lead t s).readBytes (bufBase .coinbase) 4 = coinbasePrefix lead s.argHeight := by
  rw [initSession_readBytes_stored lead ht s (by decide), initStore_prefix]

include hp

/-- Rule R197: the supplied entries, then zeros. -/
theorem initSession_path :
    (initSession lead t s).buffer .path =
      (s.buffer .argPath).take (32 * s.argPathLen.toNat) ++ fill (512 - 32 * s.argPathLen.toNat) 0 := by
  have hstored : (initSession lead t s).buffer .path = (initStore lead s).buffer .path :=
    initSession_readBytes_stored lead ht s (by decide) _
  have hargs : (s.buffer .argPath).take (32 * s.argPathLen.toNat) = s.opPathBytes s.opPathLen :=
    buffer_take s .argPath (by simp only [bufSize]; omega)
  rw [hstored, initStore_path lead s hp, hargs, State.opPathLen]

/-- Rules R34, R185, R197: the header field by field, the fold taken over the coinbase the session holds and the
supplied entries. -/
theorem initSession_header_parts :
    (initSession lead t s).readBytes (bufBase .header) 36 = s.readBytes (bufBase .argHeader) 36 ∧
      (initSession lead t s).readBytes (bufBase .header + 36) 32 =
        (if s.mroot then s.readBytes (bufBase .argHeader + 36) 32
         else merkleFold ((initSession lead t s).readBytes (bufBase .coinbase) (4 + s.cbLen.toNat))
           ((List.range s.argPathLen.toNat).map fun k => s.readBytes (bufBase .argPath + 32 * k) 32)) ∧
      (initSession lead t s).readBytes (bufBase .header + 68) 12 = s.readBytes (bufBase .argHeader + 68) 12 := by
  have hcoinbase : (initStore lead s).storedCoinbase =
      (initSession lead t s).readBytes (bufBase .coinbase) (4 + s.cbLen.toNat) := by
    rw [initSession_readBytes_stored lead ht s (by decide), State.storedCoinbase, initStore_cbLen]
  have hentries : (initStore lead s).pathEntries (initStore lead s).opPathLen =
      (List.range s.argPathLen.toNat).map fun k => s.readBytes (bufBase .argPath + 32 * k) 32 :=
    initStore_pathEntries lead s hp
  have hheader : (initSession lead t s).readBytes (bufBase .header) (36 + 32 + 12) = initHeader (initStore lead s) :=
    initSession_header lead t s ht
  have hmroot : (initStore lead s).mroot = s.mroot := rfl
  rw [initHeader_eq, initStore_readBytes_low lead hp (by decide), initStore_readBytes_low lead hp (by decide),
    initStore_readBytes_low lead hp (by decide), hcoinbase, hentries, hmroot,
    readBytes_eq_append_iff (by split <;> simp), readBytes_eq_append_iff (by simp)] at hheader
  obtain ⟨⟨hbefore, hroot⟩, hafter⟩ := hheader
  exact ⟨hbefore, hroot, hafter⟩

/-- Rule R197: the nonce of the stored header is the argument's. -/
theorem initSession_nonce :
    (initSession lead t s).nonce = s.readWord (bufBase .argHeader + 76) := by
  obtain ⟨-, -, hafter⟩ := initSession_header_parts lead ht hp
  have hword : le32At ((initSession lead t s).readBytes (bufBase .header + 68) 12) 8 =
      le32At (s.readBytes (bufBase .argHeader + 68) 12) 8 := by rw [hafter]
  rwa [le32At_readBytes _ _ _ _ (by decide), le32At_readBytes _ _ _ _ (by decide)] at hword

end SuccessfulInit

/-- Settles O15: valid arguments have a target, so the accepted INIT is `initSession`, and each part of the session it
leaves has its lemma. -/
theorem initConfiguresSession : Obligations.InitConfiguresSession := by
  intro s hs hheight hp hlow hhigh
  have hsome : initTarget s ≠ none := fun hnone => by
    have hbad : 0xFFFFFF < s.argHeight.toNat ∨ 16 < s.argPathLen.toNat ∨
        compactExponent (s.readWord (0x120 + 72)) ≤ 3 ∨ 32 < compactExponent (s.readWord (0x120 + 72)) :=
      (initTarget_eq_none s).mp hnone
    omega
  rcases initEffect_accepted Config.cbLead hs with ⟨hnone, -⟩ | ⟨t, htarget, e⟩
  · exact absurd hnone hsome
  obtain ⟨-, -, hdecode⟩ := initTarget_eq_some htarget
  have ht : t.length = 32 := decodeTarget_length hdecode
  obtain ⟨hbefore, hroot, hafter⟩ := initSession_header_parts Config.cbLead ht hp
  have hnonce := initSession_nonce Config.cbLead ht hp
  rw [exec_init, e]
  refine ⟨_, rfl, initSession_status _ t s, initSession_result _ t s, initSession_height _ t s,
    initSession_pathLen _ t s, initSession_prefix _ ht, initSession_path _ ht hp, hbefore, hafter, hroot, ?_,
    (initSession_startNonce _ t s).trans hnonce, hnonce, initSession_eq _ t s,
    fun a h1 h2 h3 => initSession_frame _ t s a hp ht ⟨h1, h2, h3⟩⟩
  rw [initSession_target _ t s ht]
  exact hdecode

/-! ### END and REPORT -/

/-- Settles O16: END is its two register writes. -/
theorem endReturnsToIdle : Obligations.EndReturnsToIdle := by
  intro s
  rw [exec_endSession, endEffect, State.setResult, State.setStatus]

/-- REPORT changes memory and `RESULT` alone (rule R205). -/
theorem reportEffect_eq (s : State) : reportEffect s = { s with result := .ok, mem := (reportEffect s).mem } := by
  simp only [reportEffect, State.writeBuf, State.setResult]

/-- Settles O17: the report is `reportBytes`, and each of its eight parts stands at its own offset. -/
theorem reportCopiesSession : Obligations.ReportCopiesSession := by
  intro s
  have hreport : (reportEffect s).readBytes (bufBase .report) (4 + 4 + 4 + 4 + 4 + 32 + 4 + 4) = reportBytes s :=
    reportEffect_report s
  rw [reportBytes, ← toLE32_readWord, readBytes_eq_append_iff (by simp [bufSize]),
    readBytes_eq_append_iff (by simp [bufSize]), readBytes_eq_append_iff (by simp), readBytes_eq_append_iff (by simp),
    readBytes_eq_append_iff (by simp), readBytes_eq_append_iff (by simp), readBytes_eq_append_iff (by simp)] at hreport
  simp only [readBytes_eq_toLE32_iff] at hreport
  obtain ⟨⟨⟨⟨⟨⟨⟨hctrl, hstatus⟩, hheight⟩, hnonce⟩, hnonce2⟩, hbest⟩, htime⟩, hrate⟩ := hreport
  exact ⟨_, exec_report s, reportEffect_eq s, hctrl, hstatus, hheight, hnonce, hnonce2, hbest, htime, hrate,
    reportEffect_frame s⟩

end Sys2Proof.Machine
end

section
/-! The nonce search (rules R220 to R231): MINE as its passes, the outcomes of one pass, splitting a MINE in two, where
a search ends, and that no step of a session increases the best hash. -/

namespace Sys2Proof.Machine

/-! ### MINE as its passes -/

/-- MINE in MINING: the passes, then the elapsed time, the count of its draw, and OK (rules R220, R226). -/
theorem exec_mine_of_mining {s : State} (hm : s.status = .mining) :
    exec .mine s = .next
      (((addHashTime (Config.drawElapsed s.draws) (minePasses s.argCycles.toNat s)).countDraw).setResult .ok) := by
  rcases mineEffect_cases (Config.drawElapsed s.draws) s with ⟨-, e⟩ | ⟨hn, -⟩
  · rw [exec_mine, e]
  · exact absurd hm hn

theorem exec_mine_of_not_mining {s : State} (hm : s.status ≠ .mining) : exec .mine s = .next (s.setResult .ok) := by
  rcases mineEffect_cases (Config.drawElapsed s.draws) s with ⟨h, -⟩ | ⟨-, e⟩
  · exact absurd h hm
  · rw [exec_mine, e]

/-- MINE is its passes and a write of fields that no pass reads; outside MINING no pass does anything (rules R220,
R221, R228). -/
theorem exec_mine_eq_withUnsearched (s : State) :
    ∃ elapsed draws, exec .mine s =
      .next ((minePasses s.argCycles.toNat s).withUnsearched s.argCycles elapsed draws .ok) := by
  by_cases hm : s.status = .mining
  · refine ⟨sat32 (s.hashTime.toNat + Config.drawElapsed s.draws), s.draws + 1, ?_⟩
    rw [exec_mine_of_mining hm, minePasses_eq]
    rfl
  · refine ⟨s.hashTime, s.draws, ?_⟩
    rw [exec_mine_of_not_mining hm, minePasses_of_ne _ _ hm]
    rfl

/-- The first pass is the last where it leaves MINING, however many are allowed (rule R220). -/
theorem minePasses_of_ending_pass {c : Word} {s : State} (hc : c ≠ 0) (hm : s.status = .mining)
    (hend : (minePass s).status ≠ .mining) : minePasses c.toNat s = minePass s := by
  have hc0 : c.toNat ≠ 0 := fun h => hc (BitVec.eq_of_toNat_eq h)
  obtain ⟨k, hk⟩ := Nat.exists_eq_succ_of_ne_zero hc0
  rw [hk, minePasses_succ k s hm, minePasses_of_ne k _ hend]

/-- Settles O18: outside MINING the command is a write of `RESULT`. -/
theorem mineOutsideMiningIsNoOp : Obligations.MineOutsideMiningIsNoOp := by
  intro s hm
  rw [exec_mine_of_not_mining hm, State.setResult]

/-- Settles O24: the passes write `STATE`, `NONCE2`, `BEST_NONCE` and the two ranges of memory. -/
theorem mineFrame : Obligations.MineFrame := by
  intro s t ht
  obtain ⟨elapsed, draws, e⟩ := exec_mine_eq_withUnsearched s
  rw [e, Host.Outcome.next.injEq] at ht
  subst ht
  refine ⟨?_, fun a h1 h2 => minePasses_readByte _ s a h1 h2⟩
  rw [minePasses_eq]
  rfl

/-- Settles O25: the passes leave `HASHTIME` and the count, and the command adds the draw. -/
theorem mineAddsElapsedTime : Obligations.MineAddsElapsedTime := by
  intro s t ht
  refine ⟨fun hm => ?_, fun hm => ?_⟩
  · rw [exec_mine_of_mining hm, Host.Outcome.next.injEq] at ht
    subst ht
    simp [sat32_toNat]
  · rw [exec_mine_of_not_mining hm, Host.Outcome.next.injEq] at ht
    subst ht
    exact ⟨rfl, rfl⟩

/-- MINE with any number of passes, elapsed time, count of draws and result: the passes read none of them (rule R221). -/
theorem exec_mine_withUnsearched (s : State) (c e : Word) (d : Nat) (r : ResultCode) :
    ∃ elapsed draws, exec .mine (s.withUnsearched c e d r) =
      .next ((minePasses c.toNat s).withUnsearched c elapsed draws .ok) := by
  obtain ⟨elapsed, draws, h⟩ := exec_mine_eq_withUnsearched (s.withUnsearched c e d r)
  rw [withUnsearched_argCycles, minePasses_withUnsearched] at h
  exact ⟨elapsed, draws, h⟩

/-- Settles O23: passes add up (`minePasses_add`), and neither part reads what the other writes besides them. -/
theorem mineMayBeSplit : Obligations.MineMayBeSplit := by
  intro s t u v a b c hc ht hu hv
  obtain ⟨elapsed, draws, hfirst⟩ := exec_mine_withUnsearched s a s.hashTime s.draws s.result
  obtain rfl := Host.Outcome.next.inj (hfirst.symm.trans ht)
  obtain ⟨_, _, hsecond⟩ := exec_mine_withUnsearched (minePasses a.toNat s) b elapsed draws .ok
  obtain rfl := Host.Outcome.next.inj (hsecond.symm.trans hu)
  obtain ⟨_, _, hwhole⟩ := exec_mine_withUnsearched s c s.hashTime s.draws s.result
  obtain rfl := Host.Outcome.next.inj (hwhole.symm.trans hv)
  rw [hc, minePasses_add]
  rfl

/-! ### One pass -/

theorem minePass_of_success {s : State} (h : le256 (headerHash s) (s.buffer .target) = true) :
    minePass s = (s.recordBest (headerHash s) s.nonce).setStatus .done := by
  rcases minePass_cases s with ⟨-, e⟩ | ⟨hf, -⟩ | ⟨hf, -⟩ | ⟨hf, -⟩
  · exact e
  all_goals rw [h] at hf; cases hf

/-- The exhaustion test (rule R224). -/
theorem minePass_fails {s : State} (h : le256 (headerHash s) (s.buffer .target) = false)
    (hn : s.nonce = Config.nonceMax) (hx : s.xpol = false ∨ s.nonce2 = Config.nonce2Max) :
    (minePass s).status = .fail := by
  rcases minePass_cases s with ⟨hs, -⟩ | ⟨-, -, -, e⟩ | ⟨-, -, hx', hn2, -⟩ | ⟨-, hn', -⟩
  · rw [h] at hs; cases hs
  · rw [e, setStatus_status]
  · rcases hx with hx | hx
    · rw [hx'] at hx; cases hx
    · exact absurd hx hn2
  · exact absurd hn hn'

theorem toNat_add_one_of_ne_max {v : Word} (h : v ≠ 0xFFFFFFFF) : (v + 1).toNat = v.toNat + 1 := by
  bv_omega

/-- The next nonce, or the rollover to nonce 0 (rules R224, R225). -/
theorem minePass_advances {s : State} (hm : s.status = .mining)
    (h : le256 (headerHash s) (s.buffer .target) = false)
    (hx : s.nonce = 0xFFFFFFFF → s.xpol = true ∧ s.nonce2 ≠ 0xFFFFFFFF) :
    (minePass s).status = .mining ∧
      if s.nonce = 0xFFFFFFFF then (minePass s).nonce = 0 ∧ (minePass s).nonce2.toNat = s.nonce2.toNat + 1
      else (minePass s).nonce.toNat = s.nonce.toNat + 1 ∧ (minePass s).nonce2 = s.nonce2 := by
  rcases minePass_cases s with ⟨hs, -⟩ | ⟨-, hn, hend, -⟩ | ⟨-, hn, -, hn2, e⟩ | ⟨-, hn, e⟩
  · rw [h] at hs; cases hs
  · obtain ⟨hpol, hn2⟩ := hx hn
    rcases hend with hend | hend
    · rw [hpol] at hend; cases hend
    · exact absurd hend hn2
  · have hn : s.nonce = 0xFFFFFFFF := hn
    rw [if_pos hn, ← toNat_add_one_of_ne_max hn2, e]
    simp [hm]
  · have hn : s.nonce ≠ 0xFFFFFFFF := hn
    rw [if_neg hn, ← toNat_add_one_of_ne_max hn, e]
    simp [hm]

/-- Best-hash tracking of a pass that does not meet the target: equality counts as an improvement (rules R151,
R220). -/
theorem minePass_tracks {s : State} (h : le256 (headerHash s) (s.buffer .target) = false) :
    if le256 (headerHash s) (s.buffer .bestHash) = true then
      (minePass s).buffer .bestHash = headerHash s ∧ (minePass s).bestNonce = s.nonce
    else (minePass s).buffer .bestHash = s.buffer .bestHash ∧ (minePass s).bestNonce = s.bestNonce := by
  rcases minePass_best s with ⟨hle, hbest⟩ | ⟨-, hlt, hbest⟩
  · rw [h] at hle
    rw [if_pos ((le256_iff _ _).mpr (hle.resolve_left (by decide)))]
    exact hbest
  · rw [(le256_false_iff _ _).mpr hlt]
    exact hbest

/-- Settles O19: the first pass ends the search, and it is a record of the best hash and of DONE. -/
theorem mineStopsOnSuccess : Obligations.MineStopsOnSuccess := by
  intro s hm hc h
  rw [← headerHash] at h ⊢
  have hl := headerHash_length s
  have e := minePass_of_success h
  have hpasses := minePasses_of_ending_pass hc hm (by rw [e, setStatus_status]; decide)
  obtain ⟨elapsed, draws, ht⟩ := exec_mine_eq_withUnsearched s
  rw [hpasses, e] at ht
  refine ⟨_, ht, rfl, rfl, ?_, rfl, ?_, rfl, fun a ha => ?_⟩
  · rw [withUnsearched_buffer, setStatus_buffer, buffer_recordBest_self s _ _ hl]
  · rw [withUnsearched_nonce, setStatus_nonce, nonce_recordBest s _ _ hl]
  · rw [withUnsearched_readByte, setStatus_readByte, readByte_recordBest s _ _ a hl ha]

/-- Settles O20: the first pass ends in FAIL, where it stands (`minePass_position`). -/
theorem mineFailsWhenExhausted : Obligations.MineFailsWhenExhausted := by
  intro s hm hc hn hx h
  rw [← headerHash] at h ⊢
  have hfail := minePass_fails h hn hx
  have hend : (minePass s).status ≠ .mining := by rw [hfail]; decide
  obtain ⟨hnonce, hnonce2⟩ : (minePass s).nonce = s.nonce ∧ (minePass s).nonce2 = s.nonce2 := by
    rcases minePass_position s hm with ⟨hm', -⟩ | ⟨-, hpos⟩
    · exact absurd hm' hend
    · exact hpos
  have hheader : (minePass s).buffer .header = s.buffer .header := by
    rw [buffer_header_eq, headerAt_minePass, hnonce, headerAt_nonce]
  have hbest := minePass_tracks h
  rw [hn] at hbest
  obtain ⟨elapsed, draws, ht⟩ := exec_mine_eq_withUnsearched s
  rw [minePasses_of_ending_pass hc hm hend] at ht
  refine ⟨_, ht, ?_⟩
  simp only [withUnsearched_status, withUnsearched_result, withUnsearched_nonce, withUnsearched_nonce2,
    withUnsearched_buffer, withUnsearched_bestNonce]
  exact ⟨hfail, trivial, hnonce.trans hn, hnonce2, hheader, hbest⟩

/-- Settles O21: the one pass advances or rolls over, and tracks the best hash. -/
theorem mineAdvancesOnePass : Obligations.MineAdvancesOnePass := by
  intro s hm hc hx h
  rw [← headerHash] at h ⊢
  obtain ⟨hm', hnonces⟩ := minePass_advances hm h hx
  have hone : minePasses s.argCycles.toNat s = minePass s := by
    rw [hc]
    exact minePasses_succ 0 s hm
  have hheader : (minePass s).buffer .header = headerAt s (minePass s).nonce := by
    rw [buffer_header_eq, headerAt_minePass]
  obtain ⟨elapsed, draws, ht⟩ := exec_mine_eq_withUnsearched s
  rw [hone] at ht
  refine ⟨_, ht, ?_⟩
  simp only [withUnsearched_status, withUnsearched_result, withUnsearched_nonce, withUnsearched_nonce2,
    withUnsearched_buffer, withUnsearched_bestNonce]
  exact ⟨hm', trivial, minePass_tracks h, hnonces, hheader⟩

/-- Counted from nonce 0 the nonces tried are the search position (rules R221, R242). -/
theorem noncesTried_zero_eq (s : State) : noncesTried s.nonce2 s.nonce 0 = (searchPosition s : Int) := by
  simp [noncesTried, searchPosition]

/-- Settles O22: the bound of `minePasses_position`, in nonces tried. -/
theorem mineIsBounded : Obligations.MineIsBounded := by
  intro s hm
  obtain ⟨elapsed, draws, ht⟩ := exec_mine_eq_withUnsearched s
  refine ⟨_, ht, rfl, ?_⟩
  simp only [withUnsearched_status, withUnsearched_nonce, withUnsearched_nonce2, noncesTried_zero_eq]
  rcases minePasses_position s.argCycles.toNat s hm with ⟨h, hpos⟩ | ⟨h, hlo, hhi⟩
  · exact ⟨.inl h, by omega, by omega, fun _ => by omega⟩
  · refine ⟨.inr h, by omega, by omega, fun hm' => ?_⟩
    rcases h with h | h <;> rw [hm'] at h <;> cases h

/-! ### Where a search under the FAIL policy ends -/

/-- Under the FAIL policy passes that end in DONE end at the lowest nonce that meets the target: each pass before the
last hashed a header above it and went on by one (rules R225, R231). -/
theorem minePasses_done_lowest {c : Nat} {s : State} (hm : s.status = .mining) (hx : s.xpol = false)
    (hd : (minePasses c s).status = .done) :
    s.nonce.toNat ≤ (minePasses c s).nonce.toNat ∧
      le256 (doubleHash (headerAt s (minePasses c s).nonce)) (s.buffer .target) = true ∧
      ∀ n : Word, s.nonce.toNat ≤ n.toNat → n.toNat < (minePasses c s).nonce.toNat →
        le256 (doubleHash (headerAt s n)) (s.buffer .target) = false := by
  induction c generalizing s with
  | zero => rw [minePasses, hm] at hd; cases hd
  | succ c ih =>
    rw [minePasses_succ c s hm] at hd ⊢
    by_cases hs : le256 (headerHash s) (s.buffer .target) = true
    case pos =>
      have e := minePass_of_success hs
      have hnonce : (minePass s).nonce = s.nonce := by
        rw [e, setStatus_nonce, nonce_recordBest _ _ _ (headerHash_length s)]
      rw [minePasses_of_ne c _ (by rw [e, setStatus_status]; decide), hnonce, ← headerHash_eq]
      exact ⟨le_rfl, hs, fun n h1 h2 => absurd h1 (by omega)⟩
    have hs := Bool.eq_false_iff.mpr hs
    by_cases hn : s.nonce = 0xFFFFFFFF
    case pos =>
      have hfail := minePass_fails hs hn (.inl hx)
      rw [minePasses_of_ne c _ (by rw [hfail]; decide), hfail] at hd
      cases hd
    obtain ⟨hm', hnext⟩ := minePass_advances hm hs (fun h => absurd h hn)
    rw [if_neg hn] at hnext
    obtain ⟨hsucc, -⟩ := hnext
    obtain ⟨hle, hmet, hlow⟩ := ih hm' (by rw [minePass_xpol, hx]) hd
    simp only [headerAt_minePass, minePass_target] at hmet hlow
    refine ⟨by omega, hmet, fun n h1 h2 => ?_⟩
    rcases Nat.eq_or_lt_of_le h1 with heq | hlt
    · rw [← BitVec.eq_of_toNat_eq heq, ← headerHash_eq, hs]
    · exact hlow n (by omega) h2

/-- Settles O26: MINE ends where its passes end. -/
theorem mineStopsAtLowestSuccess : Obligations.MineStopsAtLowestSuccess := by
  intro s t hm hx ht hd
  rw [exec_mine_of_mining hm, Host.Outcome.next.injEq] at ht
  subst ht
  exact minePasses_done_lowest hm hx hd

/-! ### The best hash within a session -/

/-- A pass records only a hash that is not larger: in MINING the best hash is above the target, so one that meets the
target is smaller (rules R220, R223, R227). -/
theorem minePass_best_le {s : State} (h : s.Inv) (hm : s.status = .mining) :
    be256 ((minePass s).buffer .bestHash) ≤ be256 (s.buffer .bestHash) := by
  obtain ⟨hnew, hbest, -⟩ | ⟨-, -, hbest, -⟩ := minePass_best s <;> rw [hbest]
  rcases hnew with hmet | hle
  · exact ((le256_iff _ _).mp hmet).trans (h.best hm).le
  · exact hle

theorem minePasses_best_le {s : State} (h : s.Inv) (c : Nat) :
    be256 ((minePasses c s).buffer .bestHash) ≤ be256 (s.buffer .bestHash) := by
  have hkeeps := minePasses_keeps (P := fun u => u.Inv ∧ be256 (u.buffer .bestHash) ≤ be256 (s.buffer .bestHash))
    (fun u hm ⟨hinv, hle⟩ => ⟨minePass_inv hm hinv, (minePass_best_le hinv hm).trans hle⟩) c s ⟨h, le_rfl⟩
  exact hkeeps.2

/-- No command but BEGIN increases the best hash: MINE by its passes, and `BEST_HASH` is in no other write set (rules
R93, R227). -/
theorem exec_best_le {i : Instr} {s t : State} (h : s.Inv) (hi : i ≠ .begin) (ht : exec i s = .next t) :
    be256 (t.buffer .bestHash) ≤ be256 (s.buffer .bestHash) := by
  by_cases hmine : i = .mine
  · subst hmine
    obtain ⟨elapsed, draws, e⟩ := exec_mine_eq_withUnsearched s
    rw [e, Host.Outcome.next.injEq] at ht
    subst ht
    exact minePasses_best_le h _
  · have hset : Loc.buf .bestHash ∉ writeSet (some i) := by revert hi hmine; cases i <;> decide
    obtain ⟨-, hbuf⟩ := exec_keepsOutside ht
    rw [hbuf .bestHash hset]

theorem engineTurn_best_le {s t : State} (h : s.Inv) (hp : s.pending ≠ some (encode .begin))
    (ht : engineTurn s = .next t) : be256 (t.buffer .bestHash) ≤ be256 (s.buffer .bestHash) := by
  rcases engineTurn_cases s with ⟨-, e⟩ | ⟨-, w, i, u, hw, hdec, hu, e⟩ | ⟨-, w, r, -, -, e⟩ <;>
    rw [e, Host.Outcome.next.injEq] at ht <;> rw [← ht]
  · have hi : i ≠ .begin := fun hi => hp (by rw [hw, encode_of_decode hdec, hi])
    rw [finishCommand_buffer]
    exact exec_best_le h hi hu
  · exact le_rfl

/-- A host write changes no read-only buffer (rules R87, R88). -/
theorem hostWrite_buffer_readOnly {o : Nat} (ho : o % 4 = 0) (v : Word) (s : State) {c : Buf}
    (hc : bufWritable c = false) : (hostWrite o v s).buffer c = s.buffer c := by
  rcases hostWrite_mem o v s with hm | ⟨b, hl, hb, e⟩
  · obtain ⟨-, -, -, -, -, -, -, -, -, -, -, -, -, -, hd⟩ := hostWrite_keeps o v s
    exact readBytes_congr fun _ _ => by rw [State.readByte, State.readByte, hm, hd]
  · obtain ⟨h1, h2⟩ := (locate_eq_buf o b).mp hl
    have hmod := bufBase_mod b
    have hbc : b ≠ c := fun hbc => by rw [hbc, hc] at hb; cases hb
    rw [e, store_eq_writeBuf s h1, buffer_writeBuf_other s _ _ hbc (by rw [toLE32_length]; omega)]

theorem hostAccess_buffer_readOnly {a : Access} {s t : State} (ht : hostAccess a s = .next t) {c : Buf}
    (hc : bufWritable c = false) : t.buffer c = s.buffer c := by
  rcases hostAccess_next ht with e | ⟨o, ho, -, e | ⟨v, e⟩⟩ <;> rw [e]
  · rfl
  · rcases hostRead_cases o s with ⟨-, e⟩ | ⟨-, e⟩ <;> rw [e] <;> rfl
  · exact hostWrite_buffer_readOnly ho v _ hc

/-- Settles O27: by the next event; the engine's turn by command, MINE by induction on its passes. -/
theorem bestHashNeverIncreases : Obligations.BestHashNeverIncreases := by
  intro s t h ht hp hrelease
  cases hs : s.schedule with
  | nil => rw [step_nil hs] at ht; exact engineTurn_best_le h hp ht
  | cons e rest =>
    rw [step_cons hs] at ht
    cases e with
    | access a => exact (congrArg be256 (hostAccess_buffer_readOnly ht rfl)).le
    | engine => exact engineTurn_best_le (s := s.withSchedule rest) (h.withSchedule rest) hp ht
    | resetAssert => exact (Host.Outcome.next.inj ht) ▸ le_rfl
    | resetRelease => exact absurd (by rw [hs]; rfl) hrelease

end Sys2Proof.Machine
end

section
/-! The hash-rate estimator (rules R240 to R243). -/

namespace Sys2Proof.Machine

/-- Rule R11: `sat32` stops at the largest word. -/
theorem sat32_of_ge {n : Nat} (h : 0xFFFFFFFF ≤ n) : sat32 n = 0xFFFFFFFF := by
  rw [sat32, Nat.min_eq_right h]; rfl

theorem sat32_toNat_of_lt {n : Nat} (h : n < 0xFFFFFFFF) : (sat32 n).toNat = n := by
  rw [sat32_toNat, Nat.min_eq_left h.le]

/-- Rule R240, the guard. -/
theorem hashRate_of_no_time_or_progress {n2 nc s ms : Word} (h : ms = 0 ∨ noncesTried n2 nc s ≤ 0) :
    hashRate n2 nc s ms = 0 := if_pos h

/-- Rule R240, past the guard: the sum is a natural number there. -/
theorem hashRate_of_progress {n2 nc s ms : Word} {n : Nat} (hms : ms ≠ 0) (hn : 0 < n)
    (htotal : noncesTried n2 nc s = n) : hashRate n2 nc s ms = sat32 (n * 1000 / ms.toNat) := by
  have hguard : ¬(ms = 0 ∨ noncesTried n2 nc s ≤ 0) := not_or.mpr ⟨hms, by omega⟩
  have hrate : hashRate n2 nc s ms = sat32 ((noncesTried n2 nc s).toNat * 1000 / ms.toNat) := if_neg hguard
  rw [hrate, htotal, Int.toNat_natCast]

/-- What a saturated quotient is, said by products alone: rounding down and the cap of rule R240. -/
theorem sat32_div_spec {a m : Nat} (hm : 0 < m) :
    if 0xFFFFFFFF * m ≤ a then sat32 (a / m) = 0xFFFFFFFF
    else (sat32 (a / m)).toNat * m ≤ a ∧ a < ((sat32 (a / m)).toNat + 1) * m := by
  split
  case isTrue hsat => exact sat32_of_ge ((Nat.le_div_iff_mul_le hm).mpr hsat)
  case isFalse hsat =>
    have hlt : a / m < 0xFFFFFFFF := (Nat.div_lt_iff_lt_mul hm).mpr (Nat.lt_of_not_le hsat)
    rw [sat32_toNat_of_lt hlt]
    exact ⟨Nat.div_mul_le_self a m, Nat.lt_mul_of_div_lt (Nat.lt_succ_self _) hm⟩

/-- Settles O33: the guard's case, then the saturated quotient with the sum cast to a natural number. -/
theorem hashRateIsFlooredQuotient : Obligations.HashRateIsFlooredQuotient := by
  intro n2 nc s ms total htotal
  have htried : noncesTried n2 nc s = total := htotal.symm
  refine ⟨fun h => hashRate_of_no_time_or_progress (htried ▸ h), fun hms hpos => ?_⟩
  obtain ⟨n, rfl⟩ := Int.eq_ofNat_of_zero_le hpos.le
  have hm : 0 < ms.toNat := Nat.pos_of_ne_zero fun h => hms (BitVec.eq_of_toNat_eq h)
  rw [hashRate_of_progress hms (by omega) htried]
  exact_mod_cast sat32_div_spec (a := n * 1000) hm

end Sys2Proof.Machine
end

section
/-! The payload cipher (rules R250 to R267): XTEA's inverse law, what each outcome of ENCRYPT and DECRYPT leaves, that
the two commands restore a payload, and what they read. -/

namespace Sys2Proof.Machine

/-! ### XTEA -/

/-- The decipherment starts from the `sum` 32 cycles of encipherment end at (rules R259, R260). -/
theorem xteaSum_32_zero : xteaSum 32 0 = 0xC6EF3720 := by decide

/-- Settles O34: the inverse law over any number of cycles, at 32 cycles from `sum` = 0. -/
theorem xteaDecipherUndoesEncipher : Obligations.XteaDecipherUndoesEncipher := by
  intro k b
  rw [xteaDecipher, xteaEncipher, ← xteaSum_32_zero]
  exact xteaDecCycles_xteaEncCycles k 32 0 b

/-! ### What a successful command leaves -/

/-- What both commands do on success: the region is written from byte 0 of `CBUF`, and `CRES` and `RESULT` are set. -/
def cipherStored (out : List Byte) (v : Word) (s : State) : State :=
  ((s.writeBuf .cbuf 0 out).setCres v).setResult .ok

section CipherStored

variable (out : List Byte) (v : Word) (s : State)

@[simp] theorem cipherStored_cres : (cipherStored out v s).cres = v := rfl

@[simp] theorem cipherStored_key : (cipherStored out v s).key = s.key := rfl

theorem cipherStored_frame :
    cipherStored out v s = { s with cres := v, result := .ok, mem := (cipherStored out v s).mem } := rfl

theorem cipherStored_readBytes {n : Nat} (h : out.length = n) : (cipherStored out v s).readBytes 0x800 n = out := by
  subst h
  exact readBytes_writeBuf_self s .cbuf 0 out

theorem cipherStored_readWord {i : Nat} (h : i + 4 ≤ out.length) :
    (cipherStored out v s).readWord (0x800 + i) = le32At out i := by
  rw [← le32At_readBytes _ _ _ _ h, cipherStored_readBytes out v s rfl]

theorem cipherStored_readByte_of_mem {i : Nat} (h : i < out.length) :
    (cipherStored out v s).readByte (0x800 + i) = out.getD i 0 :=
  readByte_writeBuf_of_mem s .cbuf 0 out i h

theorem cipherStored_readByte_of_not {a : Nat} (h : a < 0x800 ∨ 0x800 + out.length ≤ a) :
    (cipherStored out v s).readByte a = s.readByte a :=
  readByte_writeBuf_of_not s .cbuf 0 out a h

end CipherStored

section CipheredRegion

variable (f : Block → Block) (v : Word) (s : State) {bs : List Byte} {n : Nat} (hlen : bs.length = n) (hm : n % 4 = 0)

include hlen hm

/-- The word pairs of a ciphered region, read back from `CBUF` (rules R252, R253). -/
theorem cipherStored_pair {j : Nat} (hj : j % 2 = 0) (h : 4 * j + 8 ≤ n) :
    ((cipherStored (cipherRegion f bs) v s).readWord (0x800 + 4 * j),
      (cipherStored (cipherRegion f bs) v s).readWord (0x800 + 4 * j + 4)) =
      f (le32At bs (4 * j), le32At bs (4 * j + 4)) := by
  subst hlen
  have hl := cipherRegion_length f bs hm
  rw [Nat.add_assoc, cipherStored_readWord _ v s (by omega), cipherStored_readWord _ v s (by omega)]
  exact cipherRegion_pair f bs j hm hj h

/-- The unpaired last word of a ciphered region, read back from `CBUF` (rules R253, R266). -/
theorem cipherStored_last (ho : n / 4 % 2 = 1) :
    (cipherStored (cipherRegion f bs) v s).readWord (0x800 + (n - 4)) = le32At bs (n - 4) := by
  subst hlen
  have hl := cipherRegion_length f bs hm
  rw [cipherStored_readWord _ v s (by omega)]
  exact cipherRegion_last f bs hm ho

theorem cipherStored_outside {a : Nat} (h : a < 0x800 ∨ 0x800 + n ≤ a) :
    (cipherStored (cipherRegion f bs) v s).readByte a = s.readByte a := by
  subst hlen
  exact cipherStored_readByte_of_not _ v s (by rwa [cipherRegion_length f bs hm])

end CipheredRegion

/-! ### The outcomes of ENCRYPT -/

/-- The payload of `n` bytes in `CBUF` with `p` padding bytes `p` after it (rules R255, R262). -/
def paddedPayload (s : State) (n p : Nat) : List Byte := s.readBytes 0x800 n ++ fill p (BitVec.ofNat 8 p)

@[simp] theorem paddedPayload_length (s : State) (n p : Nat) : (paddedPayload s n p).length = n + p := by
  simp [paddedPayload]

/-- The padding count stands in the last byte (rule R262). -/
theorem paddedPayload_last (s : State) (n : Nat) {p : Nat} (hp : 0 < p) :
    (paddedPayload s n p).getD (n + p - 1) 0 = BitVec.ofNat 8 p := by
  have hlast : n + p - 1 - (s.readBytes 0x800 n).length = p - 1 := by rw [readBytes_length]; omega
  rw [paddedPayload, List.getD_append_right _ _ _ _ (by rw [readBytes_length]; omega), hlast,
    fill_getD _ _ _ (by omega)]

theorem encryptedRegion_eq (e : Key → Block → Block) (n : Nat) (s : State) :
    encryptedRegion e n s = cipherRegion (e s.key) (paddedPayload s n (padCount n)) := by
  rw [encryptedRegion, padded, readBytes_length]
  rfl

theorem encryptEffect_of_zero (e : Key → Block → Block) {s : State} (h : s.clen.toInt = 0) :
    encryptEffect e s = (s.setCres 0).setResult .ok := by
  rcases encryptEffect_cases e s with ⟨-, heq⟩ | ⟨hc, -⟩ | ⟨hc, -⟩
  · exact heq
  · omega
  · omega

theorem encryptEffect_of_refused (e : Key → Block → Block) {s : State}
    (h : s.clen.toInt < 0 ∨ (0 < s.clen.toInt ∧
      (s.ccap.toNat < s.clen.toNat + padCount s.clen.toNat ∨ 2048 < s.clen.toNat + padCount s.clen.toNat))) :
    encryptEffect e s = (s.setCres 0xFFFFFFFF).setResult .einval := by
  rcases encryptEffect_cases e s with ⟨hc, -⟩ | ⟨-, heq⟩ | ⟨hpos, hcap, hbuf, -⟩
  · omega
  · exact heq
  · omega

theorem encryptEffect_of_fits (e : Key → Block → Block) {s : State} {n p : Nat} (h0 : 0 < n) (hn : s.clen.toNat = n)
    (hp : p = padCount n) (hcap : n + p ≤ s.ccap.toNat) (hbuf : n + p ≤ 2048) :
    encryptEffect e s =
      cipherStored (cipherRegion (e s.key) (paddedPayload s n p)) (BitVec.ofNat 32 (n + p)) s := by
  subst hn hp
  have hint := clen_toInt s (by omega)
  rcases encryptEffect_cases e s with ⟨hc, -⟩ | ⟨hc, -⟩ | ⟨-, -, -, heq⟩
  · omega
  · omega
  · rw [heq, encryptedRegion_eq]
    rfl

/-- Settles O35: the first of ENCRYPT's outcomes. -/
theorem encryptLengthZeroIsNoOp : Obligations.EncryptLengthZeroIsNoOp := by
  intro s h
  rw [exec_encrypt, encryptEffect_of_zero cipherE (by rw [h]; rfl)]
  rfl

/-- Settles O36: the second of ENCRYPT's outcomes; a positive length is the same number read signed and unsigned. -/
theorem encryptRefusesOverCapacity : Obligations.EncryptRefusesOverCapacity := by
  intro s h
  rw [exec_encrypt, encryptEffect_of_refused cipherE]
  · rfl
  refine h.imp_right fun ⟨hpos, hover⟩ => ⟨hpos, ?_⟩
  have hnat := clen_toNat s hpos.le
  unfold padCount
  omega

/-- Settles O37: the stored region is `cipherRegion` of the padded payload. -/
theorem encryptEnciphersPaddedPayload : Obligations.EncryptEnciphersPaddedPayload := by
  intro s n p h0 hn hp hcap hbuf
  have hlen := paddedPayload_length s n p
  have hm : (n + p) % 4 = 0 := by omega
  have ht := exec_encrypt s
  rw [encryptEffect_of_fits cipherE h0 hn hp hcap hbuf] at ht
  refine ⟨_, ht, rfl, ?_, cipherStored_frame _ _ s, fun j => cipherStored_pair _ _ s hlen hm,
    cipherStored_last _ _ s hlen hm, fun a => cipherStored_outside _ _ s hlen hm⟩
  rw [cipherStored_cres, BitVec.toNat_ofNat, Nat.mod_eq_of_lt (by omega)]

/-! ### The outcomes of DECRYPT -/

theorem decryptEffect_of_malformed (d : Key → Block → Block) {s : State}
    (h : s.clen.toInt ≤ 0 ∨ s.clen.toInt % 4 ≠ 0 ∨ 2048 < s.clen.toInt) :
    decryptEffect d s = (s.setCres s.clen).setResult .einval := by
  rcases decryptEffect_cases d s with ⟨-, heq⟩ | ⟨hpos, hm, hbuf, -⟩
  · exact heq
  · have hint := clen_toInt s (by omega)
    omega

/-- The word DECRYPT puts into `CRES`: the length less the last byte of the deciphered region (rules R257, R265). -/
def payloadLength (out : List Byte) (n : Nat) : Word := BitVec.ofInt 32 ((n : Int) - ((out.getD (n - 1) 0).toNat : Int))

theorem payloadLength_toInt (out : List Byte) {n : Nat} (h : n ≤ 2048) :
    (payloadLength out n).toInt = (n : Int) - ((out.getD (n - 1) 0).toNat : Int) := by
  have hbyte := (out.getD (n - 1) 0).isLt
  rw [payloadLength, BitVec.toInt_ofInt_eq_self (by decide) (by omega) (by omega)]

theorem decryptEffect_of_wellFormed (d : Key → Block → Block) {s : State} {n : Nat} (h0 : 0 < n) (hm : n % 4 = 0)
    (hbuf : n ≤ 2048) (hn : s.clen.toNat = n) :
    decryptEffect d s = cipherStored (decryptedRegion d n s) (payloadLength (decryptedRegion d n s) n) s := by
  subst hn
  have hint := clen_toInt s (by omega)
  rcases decryptEffect_cases d s with ⟨hc, -⟩ | ⟨-, -, -, heq⟩
  · omega
  · rw [heq]
    rfl

/-- Settles O38: the first of DECRYPT's outcomes. -/
theorem decryptReturnsMalformedLength : Obligations.DecryptReturnsMalformedLength := by
  intro s h
  rw [exec_decrypt, decryptEffect_of_malformed cipherD h]
  rfl

/-- Settles O39: the stored region is `cipherRegion` of the bytes of `CBUF`, whose words are the words of `CBUF`. -/
theorem decryptDeciphersRegion : Obligations.DecryptDeciphersRegion := by
  intro s n h0 hm hbuf hn
  have hlen := readBytes_length s 0x800 n
  have ht := exec_decrypt s
  rw [decryptEffect_of_wellFormed cipherD h0 hm hbuf hn] at ht
  refine ⟨_, ht, rfl, ?_, cipherStored_frame _ _ s, fun j hj h => ?_, fun ho => ?_,
    fun a => cipherStored_outside _ _ s hlen hm⟩
  · rw [cipherStored_cres, payloadLength_toInt _ hbuf,
      cipherStored_readByte_of_mem _ _ s (by rw [decryptedRegion_length _ _ _ hm]; omega)]
  · rw [Nat.add_assoc, ← le32At_readBytes s _ n _ (by omega), ← le32At_readBytes s _ n _ (by omega),
      ← Nat.add_assoc]
    exact cipherStored_pair _ _ s hlen hm hj h
  · rw [← le32At_readBytes s _ n _ (by omega)]
    exact cipherStored_last _ _ s hlen hm ho

/-! ### The round trip -/

/-- DECRYPT restores the padded payload wherever `CBUF` holds it enciphered under the same key, and returns its length
without the padding (rule R261). -/
theorem decryptEffect_of_enciphered {e d : Key → Block → Block} (hinv : ∀ k b, d k (e k b) = b) {s t : State}
    {n p : Nat} (hp : p = padCount n) (hbuf : n + p ≤ 2048) (hkey : t.key = s.key) (hlen : t.clen.toNat = n + p)
    (ht : t.readBytes 0x800 (n + p) = cipherRegion (e s.key) (paddedPayload s n p)) :
    decryptEffect d t = cipherStored (paddedPayload s n p) (BitVec.ofNat 32 n) t := by
  obtain ⟨hp1, hp4, hm⟩ := padCount_bounds n
  rw [← hp] at hp1 hp4 hm
  have hout : decryptedRegion d (n + p) t = paddedPayload s n p := by
    rw [← cipherRegion_inverse (hinv s.key) (paddedPayload s n p) (by rwa [paddedPayload_length]), ← ht, ← hkey]
    rfl
  have hres : payloadLength (paddedPayload s n p) (n + p) = BitVec.ofNat 32 n := by
    have hpad : (BitVec.ofNat 8 p).toNat = p := by rw [BitVec.toNat_ofNat, Nat.mod_eq_of_lt (by omega)]
    have hsub : ((n + p : Nat) : Int) - (p : Int) = (n : Int) := by omega
    rw [payloadLength, paddedPayload_last s n hp1, hpad, hsub, BitVec.ofInt_natCast]
  rw [decryptEffect_of_wellFormed d (by omega) hm hbuf hlen, hout, hres]

/-- Settles O40: `CBUF` holds the padded payload enciphered after ENCRYPT, and DECRYPT restores it. -/
theorem cipherRoundTripsForEveryCipher : Obligations.CipherRoundTripsForEveryCipher := by
  intro e d hinv s n p h0 hn hp hcap hbuf t u ht hu
  have hm : (n + p) % 4 = 0 := by omega
  rw [encryptEffect_of_fits e h0 hn hp hcap hbuf] at ht
  have hcres : t.cres.toNat = n + p := by
    rw [← ht, cipherStored_cres, BitVec.toNat_ofNat, Nat.mod_eq_of_lt (by omega)]
  have hregion : t.readBytes 0x800 (n + p) = cipherRegion (e s.key) (paddedPayload s n p) := by
    rw [← ht]
    exact cipherStored_readBytes _ _ s (by rw [cipherRegion_length] <;> simp [hm])
  have hkey : t.key = s.key := by rw [← ht, cipherStored_key]
  rw [decryptEffect_of_enciphered hinv (t := { t with clen := t.cres }) hp hbuf hkey hcres hregion] at hu
  rw [← hu, cipherStored_cres, ← hn, BitVec.ofNat_toNat, BitVec.setWidth_eq]
  exact ⟨hn ▸ hcres, rfl, rfl, cipherStored_readBytes _ _ _ (paddedPayload_length s _ p)⟩

/-- Settles O41: the round trip of every cipher, at XTEA; the payload is the first part of the padded plaintext. -/
theorem cipherCommandsRoundTrip : Obligations.CipherCommandsRoundTrip := by
  intro s t u hpos hcap hbuf ht hu
  rw [exec_encrypt, Host.Outcome.next.injEq] at ht
  rw [exec_decrypt, Host.Outcome.next.injEq] at hu
  have hnat := clen_toNat s hpos.le
  obtain ⟨-, hres, hok, hbytes⟩ := cipherRoundTripsForEveryCipher cipherE cipherD xteaDecipherUndoesEncipher s _ _
    (by omega) rfl rfl (by omega) (by omega) t u ht hu
  exact ⟨hres, hok, ((readBytes_eq_append_iff (readBytes_length s _ _)).mp hbytes).1⟩

/-! ### What the commands read -/

/-- A write into a buffer leaves the same buffer wherever it stood the same. -/
theorem buffer_writeBuf_congr {s t : State} {b : Buf} (h : s.buffer b = t.buffer b) (k : Nat) (bs : List Byte) :
    (s.writeBuf b k bs).buffer b = (t.writeBuf b k bs).buffer b := by
  refine readBytes_congr fun i hi => ?_
  rw [readByte_writeBuf, readByte_writeBuf, ← buffer_getD s b i hi, ← buffer_getD t b i hi, h]

/-- Two states agree in what the cipher commands leave. -/
def SameCipherOutput (s t : State) : Prop :=
  s.cres = t.cres ∧ s.result = t.result ∧ s.buffer .cbuf = t.buffer .cbuf

section SameInput

variable {s t : State} (hkey : s.key = t.key) (hlen : s.clen = t.clen) (hcbuf : s.buffer .cbuf = t.buffer .cbuf)

include hcbuf

theorem readBytes_cbuf_congr {n : Nat} (h : n ≤ 2048) : s.readBytes 0x800 n = t.readBytes 0x800 n :=
  calc s.readBytes 0x800 n = (s.buffer .cbuf).take n := (buffer_take s .cbuf h).symm
    _ = (t.buffer .cbuf).take n := by rw [hcbuf]
    _ = t.readBytes 0x800 n := buffer_take t .cbuf h

theorem SameCipherOutput.failed (v : Word) (r : ResultCode) :
    SameCipherOutput ((s.setCres v).setResult r) ((t.setCres v).setResult r) := ⟨rfl, rfl, hcbuf⟩

theorem SameCipherOutput.stored (out : List Byte) (v : Word) :
    SameCipherOutput (cipherStored out v s) (cipherStored out v t) :=
  ⟨rfl, rfl, buffer_writeBuf_congr hcbuf 0 out⟩

include hkey hlen

theorem encryptEffect_congr (hcap : s.ccap = t.ccap) (e : Key → Block → Block) :
    SameCipherOutput (encryptEffect e s) (encryptEffect e t) := by
  rcases encryptEffect_cases e s with ⟨hzero, heq⟩ | ⟨hrefused, heq⟩ | ⟨hpos, hfits, hbuf, -⟩
  · rw [heq, encryptEffect_of_zero e (by rwa [← hlen])]
    exact .failed hcbuf 0 .ok
  · rw [heq, encryptEffect_of_refused e (by rwa [← hlen, ← hcap])]
    exact .failed hcbuf 0xFFFFFFFF .einval
  · have hnat := clen_toNat s hpos.le
    have hpayload : ∀ p, paddedPayload s s.clen.toNat p = paddedPayload t s.clen.toNat p := fun p => by
      rw [paddedPayload, paddedPayload, readBytes_cbuf_congr hcbuf (by omega)]
    rw [encryptEffect_of_fits e (by omega) rfl rfl hfits hbuf,
      encryptEffect_of_fits (s := t) e (by omega) (by rw [hlen]) rfl (hcap ▸ hfits) hbuf, hkey, hpayload]
    exact .stored hcbuf _ _

theorem decryptEffect_congr (d : Key → Block → Block) :
    SameCipherOutput (decryptEffect d s) (decryptEffect d t) := by
  rcases decryptEffect_cases d s with ⟨hmalformed, heq⟩ | ⟨hpos, hm, hbuf, -⟩
  · rw [heq, decryptEffect_of_malformed d (by rwa [← hlen]), hlen]
    exact .failed hcbuf t.clen .einval
  · have hregion : decryptedRegion d s.clen.toNat s = decryptedRegion d s.clen.toNat t := by
      rw [decryptedRegion, decryptedRegion, hkey]
      exact congrArg _ (readBytes_cbuf_congr hcbuf hbuf)
    rw [decryptEffect_of_wellFormed d hpos hm hbuf rfl,
      decryptEffect_of_wellFormed (s := t) d hpos hm hbuf (by rw [hlen]), hregion]
    exact .stored hcbuf _ _

end SameInput

/-- Settles O42: each outcome's condition and the region it stores are read off the inputs the two states share. -/
theorem cipherReadsNoSession : Obligations.CipherReadsNoSession := by
  intro i s t s' t' hi hkey hlen hcap hcbuf hs ht
  rcases hi with rfl | rfl
  · rw [exec_encrypt, Host.Outcome.next.injEq] at hs ht
    exact hs ▸ ht ▸ encryptEffect_congr hkey hlen hcbuf hcap cipherE
  · rw [exec_decrypt, Host.Outcome.next.injEq] at hs ht
    exact hs ▸ ht ▸ decryptEffect_congr hkey hlen hcbuf cipherD

end Sys2Proof.Machine
end

section
/-! The engine's turn while `BUSY` = 0 (60_exceptions.md). -/

namespace Sys2Proof.Machine

/-- With nothing pending the engine's turn changes nothing, whatever the reset input (rule R292). -/
theorem engineTurn_of_pending_none {s : State} (hp : s.pending = none) : engineTurn s = .next s := by
  rcases engineTurn_cases s with ⟨-, hidle⟩ | ⟨-, w, -, -, hw, -⟩ | ⟨-, w, -, hw, -⟩
  · exact hidle
  · rw [hp] at hw; cases hw
  · rw [hp] at hw; cases hw

/-- Settles O6: both steps are an engine's turn with nothing pending, the first after its event left the schedule. -/
theorem idleEngineDoesNothing : Obligations.IdleEngineDoesNothing := by
  intro s hp
  refine ⟨fun rest hs => ?_, fun hs => ?_⟩
  · have hturn : handleEvent .engine (s.withSchedule rest) = .next (s.withSchedule rest) :=
      engineTurn_of_pending_none hp
    exact (step_cons hs).trans hturn
  · exact (step_nil hs).trans (engineTurn_of_pending_none hp)

end Sys2Proof.Machine
end

section
/-! Reset (70_reset_and_hazards.md): nothing happens while it is asserted, its release gives every location its reset
value, and BEGIN of an empty fragment restores the session's reset values. -/

namespace Sys2Proof.Machine

/-! ### While reset is asserted -/

/-- The engine's turn while reset is asserted (rule R300). -/
theorem engineTurn_in_reset {s : State} (hr : s.resetLine = true) : engineTurn s = .next s := by
  rw [engineTurn, if_pos hr]

/-- No access is performed while reset is asserted, well formed or not (rule R300). -/
theorem hostAccess_in_reset (a : Access) {s : State} (hr : s.resetLine = true) :
    hostAccess a s = .next { s with busData := none } := by
  rw [hostAccess, if_pos hr]

/-- Settles O56: the engine's turn keeps the bus data, an access clears it. -/
theorem nothingHappensInReset : Obligations.NothingHappensInReset := by
  intro s e rest hs hr he
  have hr' : (s.withSchedule rest).resetLine = true := hr
  rcases he with rfl | ⟨a, rfl⟩
  · exact ⟨s.busData, (step_cons hs).trans (engineTurn_in_reset hr')⟩
  · exact ⟨none, (step_cons hs).trans (hostAccess_in_reset a hr')⟩

/-! ### The release of reset -/

/-- The state a release of reset leaves: the reset state, with what is scheduled kept and draw `d` made for the
UNSPECIFIED buffers (rules R300, R301). -/
def released (d : Nat) (l : List Event) : State :=
  { State.reset with schedule := l, draws := d + 1, resetDraw := d }

theorem step_resetRelease {s : State} {rest : List Event} (hs : s.schedule = .resetRelease :: rest)
    (hr : s.resetLine = true) : step s = .next (released s.draws rest) := by
  have hrelease : releaseReset (s.withSchedule rest) = released s.draws rest := if_pos hr
  exact (step_cons hs).trans (congrArg Host.Outcome.next hrelease)

/-- With nothing in memory an UNSPECIFIED byte reads as the reset's draw (rule R301). -/
theorem readByte_of_mem_nil_unspecified {s : State} (hm : s.mem = []) {a : Nat} (h : unlistedByte a = none) :
    s.readByte a = Config.drawByte s.resetDraw a := by
  have hg : s.mem.get a = none := by rw [hm]; exact h
  rw [State.readByte, hg]

/-- Every register is 0 when reset is released (rule R301). -/
theorem readReg_released (d : Nat) (l : List Event) (r : Reg) : readReg (released d l) r = 0 := by
  cases r
  case nonce => exact nonce_of_mem_nil rfl
  case estat => exact (estatWord_congr (s := State.reset) rfl rfl).trans rfl
  all_goals rfl

/-- A word of a buffer filled with one byte has that byte in each lane. -/
theorem readWord_of_buffer_eq_fill {s : State} {b : Buf} {v : Byte} (h : s.buffer b = fill (bufSize b) v) {o : Nat}
    (ho : o % 4 = 0) (h1 : bufBase b ≤ o) (h2 : o < bufBase b + bufSize b) : s.readWord o = le32 v v v v := by
  have hm := bufBase_mod b
  rw [readWord_of_buffer s b o ho h1 h2, h, le32At, fill_getD _ _ _ (by omega), fill_getD _ _ _ (by omega),
    fill_getD _ _ _ (by omega), fill_getD _ _ _ (by omega)]

/-- A buffer is `BEST_HASH`, UNSPECIFIED at reset, or 0 at reset (rule R301). -/
theorem buf_reset_cases (b : Buf) :
    b = .bestHash ∨ b ∈ [Buf.argHeader, .argCb, .argPath, .cbuf] ∨
      b ∈ [Buf.target, .header, .report, .coinbase, .path] := by
  cases b <;> decide

/-- The settled words of the window when reset is released (rule R301). -/
theorem windowWord_released (d : Nat) (l : List Event) {o : Nat} (ho : o % 4 = 0)
    (hset : locate o ∉ [.buf .argHeader, .buf .argCb, .buf .argPath, .buf .cbuf]) :
    windowWord (released d l) o = if locate o = .buf .bestHash then 0xFFFFFFFF else 0 := by
  cases hl : locate o with
  | reg r =>
    obtain rfl := (locate_eq_reg ho r).mp hl
    rw [windowWord_reg, readReg_released, if_neg (by simp)]
  | buf b =>
    obtain ⟨h1, h2⟩ := (locate_eq_buf o b).mp hl
    rw [windowWord_buf hl]
    rcases buf_reset_cases b with rfl | hdrawn | hzero
    · rw [readWord_of_buffer_eq_fill (bestHash_of_mem_nil rfl) ho h1 h2, if_pos rfl]
      rfl
    · exact absurd (List.mem_map_of_mem (f := Loc.buf) hdrawn) (hl ▸ hset)
    · have hne : b ≠ .bestHash := by rintro rfl; revert hzero; decide
      rw [readWord_of_buffer_eq_fill (buffer_of_mem_nil rfl hzero) ho h1 h2, if_neg (by simpa using hne)]
      rfl
  | reserved => rw [windowWord_reserved hl, if_neg (by simp)]

/-- Settles O54: the step leaves `released`, whose words and drawn bytes have their lemmas. -/
theorem resetValues : Obligations.ResetValues := fun s rest hs hr =>
  ⟨released s.draws rest, step_resetRelease hs hr, rfl, rfl, rfl, rfl, rfl,
    fun _ ho _ hset => windowWord_released s.draws rest ho hset,
    fun _ hb k hk => readByte_of_mem_nil_unspecified rfl (unlistedByte_unspecified hb k hk)⟩

/-! ### BEGIN of an empty fragment -/

/-- The offsets of the session registers but `STATE`, and of `BEST_HASH`, `TARGET`, `HEADER`, `COINBASE` and `PATH`
(rules R87, R303). -/
def offsetSession (o : Nat) : Prop :=
  (0x014 ≤ o ∧ o < 0x034) ∨ (0x040 ≤ o ∧ o < 0x0D0) ∨ (0x400 ≤ o ∧ o < 0x484) ∨ (0x500 ≤ o ∧ o < 0x700)

/-- Every session register is 0 after BEGIN of an empty fragment (rule R190). -/
theorem readReg_begin_empty {s : State} (h : s.argCbLen = 0) {r : Reg} (hr : offsetSession (regOffset r)) :
    readReg (beginScalars (beginBuffers s)) r = 0 := by
  unfold offsetSession at hr
  cases r
  case nonce => rw [readReg, beginScalars_nonce, beginBuffers_nonce s (by simp [h])]
  case cbLen => rw [readReg, beginScalars_cbLen, beginBuffers_argCbLen, h]
  case height | nonce2 | startNonce | bestNonce | hashTime | pathLen => simp [readReg]
  all_goals exact absurd hr (by decide)

/-- With an empty fragment BEGIN leaves no byte of `COINBASE` but 0 (rules R49, R190). -/
theorem coinbase_begin_empty {s : State} (h : s.argCbLen = 0) :
    (beginBuffers s).buffer .coinbase = fill 132 0 :=
  buffer_eq_fill fun k hk => by
    rw [beginBuffers_coinbase_byte s k hk, h, if_neg (by simp)]

/-- Every session buffer is as at reset after BEGIN of an empty fragment (rules R190, R301). -/
theorem buffer_begin_empty {s : State} (h : s.argCbLen = 0) {b : Buf} {o : Nat} (hb : locate o = .buf b)
    (ho : offsetSession o) : (beginScalars (beginBuffers s)).buffer b = State.reset.buffer b := by
  have hn : s.argCbLen.toNat ≤ 128 := by simp [h]
  obtain ⟨h1, h2⟩ := (locate_eq_buf o b).mp hb
  unfold offsetSession at ho
  rw [beginScalars_buffer]
  cases b
  case bestHash => rw [beginBuffers_bestHash s hn, bestHash_of_mem_nil rfl, noBest]
  case target => rw [beginBuffers_target s hn, buffer_of_mem_nil rfl (by decide), bufSize]
  case header => rw [beginBuffers_header s hn, buffer_of_mem_nil rfl (by decide), bufSize]
  case coinbase => rw [coinbase_begin_empty h, buffer_of_mem_nil rfl (by decide), bufSize]
  case path => rw [beginBuffers_path s hn, buffer_of_mem_nil rfl (by decide), bufSize]
  all_goals simp only [bufBase, bufSize] at h1 h2; omega

/-- Settles O55: an empty fragment is within the cap; the session's registers are 0 in both states and its buffers
agree. -/
theorem resetEqualsEmptyBegin : Obligations.ResetEqualsEmptyBegin := by
  intro s h
  have hcap : s.argCbLen.toNat ≤ Config.cbCap := by simp [h]
  rw [exec_begin, beginEffect_within_cap hcap]
  refine ⟨_, rfl, beginScalars_status _, rfl, fun o ho hsession => windowWord_congr ho (fun r hr => ?_) fun b hb =>
    buffer_begin_empty h hb hsession⟩
  obtain rfl := (locate_eq_reg ho r).mp hr
  rw [readReg_begin_empty h hsession]
  exact (readReg_released 0 [] r).symm

end Sys2Proof.Machine
end
